-- ==== Sys2Proof/Word.lean ====
section
/-! DEFINITION. The fixed-width words of the decode core (00_scope.md R10, R26; 30_encoding.md R150). -/

namespace Sys2Proof

/-- An 8-bit number: a pattern id, a data-unit type, a protocol tag, a role's class. -/
abbrev U8 := BitVec 8
/-- A 16-bit number: a message variant, a block count. -/
abbrev U16 := BitVec 16
/-- A 32-bit number: a CSR's content, a counter, an opcode or vendor value. -/
abbrev U32 := BitVec 32
/-- A 64-bit number: the unit count and the unit indices taken from it. -/
abbrev U64 := BitVec 64
/-- A command word (30_encoding.md R150). -/
abbrev Word := BitVec 64
/-- A CSR number (10_state.md R60). -/
abbrev CsrNum := BitVec 12
/-- A dibit `b_hi b_lo` (00_scope.md R26): `b_hi` is bit 1, `b_lo` bit 0. -/
abbrev Dibit := BitVec 2
/-- The raw bits of an IEEE 754 binary32 value (00_scope.md R25, 30_encoding.md R156). -/
abbrev Binary32 := BitVec 32

end Sys2Proof
end

