-- ==== Sys2Proof/Syntax.lean ====
section
/-! DEFINITION. The eight commands of the core, one constructor per row of spec/opcode_table.json
(30_encoding.md R154), each operand at the width R156 gives it. -/

namespace Sys2Proof

inductive Instr where
  /-- NOP (44_control.md R400). -/
  | nop
  /-- PUSH_BIT: the hard bit DATA[0] (40_sync_detector.md R202). -/
  | pushBit (b : Bool)
  /-- PUSH_DIBIT: the dibit DATA[1:0] (R203). -/
  | pushDibit (d : Dibit)
  /-- PUSH_SOFT: the binary32 bits DATA[31:0] (R204). -/
  | pushSoft (v : Binary32)
  /-- RESET (44_control.md R410). -/
  | reset
  /-- POP (R420). -/
  | pop
  /-- RDCSR: the CSR number (R430). -/
  | rdcsr (csrn : CsrNum)
  /-- WRCSR: the CSR number and the value DATA[31:0] (R440). -/
  | wrcsr (csrn : CsrNum) (v : U32)
  deriving DecidableEq, Repr

end Sys2Proof
end

