-- ==== Sys2Proof/WellFormed.lean ====
section
/-! DEFINITION. Which command words are well formed: those that some row of spec/opcode_table.json describes, so that
the OPC is assigned (30_encoding.md R154) and every bit the opcode does not use is zero (R155, R161). Every term of
`Instr` is well formed by its type: each operand has exactly the width of its field (R156). The well-formedness of a
configuration (00_scope.md R13 to R22) stands in Machine/Validate.lean, where a repair can mend it. -/

namespace Sys2Proof

/-- One row of spec/opcode_table.json: a word is the row's when it agrees with `pattern` on the bits of `mask`. -/
structure OpcodeRow where
  mnemonic : String
  pattern : Word
  mask : Word
  deriving DecidableEq, Repr

def OpcodeRow.covers (r : OpcodeRow) (w : Word) : Bool := w &&& r.mask == r.pattern

def rowNop : OpcodeRow := ⟨"NOP", 0x0000000000000000, 0xFFFFFFFFFFFFFFFF⟩
def rowPushBit : OpcodeRow := ⟨"PUSH_BIT", 0x0100000000000000, 0xFFFFFFFFFFFFFFFE⟩
def rowPushDibit : OpcodeRow := ⟨"PUSH_DIBIT", 0x0200000000000000, 0xFFFFFFFFFFFFFFFC⟩
def rowPushSoft : OpcodeRow := ⟨"PUSH_SOFT", 0x0300000000000000, 0xFFFFFFFF00000000⟩
def rowReset : OpcodeRow := ⟨"RESET", 0x0800000000000000, 0xFFFFFFFFFFFFFFFF⟩
def rowPop : OpcodeRow := ⟨"POP", 0x1000000000000000, 0xFFFFFFFFFFFFFFFF⟩
def rowRdcsr : OpcodeRow := ⟨"RDCSR", 0x2000000000000000, 0xFFFFF000FFFFFFFF⟩
def rowWrcsr : OpcodeRow := ⟨"WRCSR", 0x2100000000000000, 0xFFFFF00000000000⟩

/-- spec/opcode_table.json, in its order. -/
def opcodeTable : List OpcodeRow :=
  [rowNop, rowPushBit, rowPushDibit, rowPushSoft, rowReset, rowPop, rowRdcsr, rowWrcsr]

/-- The row of an instruction. -/
def Instr.row : Instr → OpcodeRow
  | .nop => rowNop
  | .pushBit _ => rowPushBit
  | .pushDibit _ => rowPushDibit
  | .pushSoft _ => rowPushSoft
  | .reset => rowReset
  | .pop => rowPop
  | .rdcsr _ => rowRdcsr
  | .wrcsr _ _ => rowWrcsr

/-- The words the opcode table describes. -/
def WellFormed (w : Word) : Bool := opcodeTable.any fun r => r.covers w

end Sys2Proof
end

