-- ==== Sys2Proof/Decode.lean ====
section
/-! DEFINITION. The decoder, total on every 64-bit word (30_encoding.md R150, R152, R167), and the encoder beside it
(R165). -/

namespace Sys2Proof

/-- What the decoder answers on a word that is no command (R167): ILLEGAL(opc) for an unassigned OPC (R160),
RESERVED(opc) for a nonzero reserved bit (R161). -/
inductive Reject where
  | illegal (opc : U8)
  | reserved (opc : U8)
  deriving DecidableEq, Repr

/-- The fields of a command word (R150). -/
def opcOf (w : Word) : U8 := w.extractLsb' 56 8
def rsvdOf (w : Word) : BitVec 12 := w.extractLsb' 44 12
def csrOf (w : Word) : CsrNum := w.extractLsb' 32 12
def dataOf (w : Word) : U32 := w.extractLsb' 0 32

/-- The assigned OPC values (R152, R154). -/
def opcAssigned (opc : U8) : Bool :=
  [0x00, 0x01, 0x02, 0x03, 0x08, 0x10, 0x20, 0x21].contains opc

/-- The DATA bits an opcode uses, as a mask (R155). -/
def usedData (opc : U8) : U32 :=
  if opc = 0x01 then 0x00000001
  else if opc = 0x02 then 0x00000003
  else if opc = 0x03 ∨ opc = 0x21 then 0xFFFFFFFF
  else 0

/-- Whether an opcode uses the CSR field (R155). -/
def usesCsr (opc : U8) : Bool := opc == 0x20 || opc == 0x21

/-- Some bit the opcode does not use is 1 (R152, R161). -/
def reservedNonzero (w : Word) : Bool :=
  rsvdOf w != 0 || (!usesCsr (opcOf w) && csrOf w != 0) || dataOf w &&& ~~~ (usedData (opcOf w)) != 0

/-- The instruction of an assigned opcode with its operands (R154, R156). -/
def assemble (w : Word) : Option Instr :=
  let opc := opcOf w
  if opc = 0x00 then some .nop
  else if opc = 0x01 then some (.pushBit ((dataOf w).getLsbD 0))
  else if opc = 0x02 then some (.pushDibit ((dataOf w).extractLsb' 0 2))
  else if opc = 0x03 then some (.pushSoft (dataOf w))
  else if opc = 0x08 then some .reset
  else if opc = 0x10 then some .pop
  else if opc = 0x20 then some (.rdcsr (csrOf w))
  else if opc = 0x21 then some (.wrcsr (csrOf w) (dataOf w))
  else none

/-- R167: one of the eight commands with its operands, or ILLEGAL(opc), or RESERVED(opc), checked in the order of R152. -/
def decode (w : Word) : Except Reject Instr :=
  if !opcAssigned (opcOf w) then .error (.illegal (opcOf w))
  else if reservedNonzero w then .error (.reserved (opcOf w))
  else match assemble w with
    | some i => .ok i
    | none => .error (.illegal (opcOf w))

/-- A command word of its four fields, RSVD zero (R150). -/
def cmdWord (opc : U8) (csrn : CsrNum) (data : U32) : Word :=
  opc ++ (0 : BitVec 12) ++ csrn ++ data

/-- The words of R165. -/
def encode : Instr → Word
  | .nop => cmdWord 0x00 0 0
  | .pushBit b => cmdWord 0x01 0 ((BitVec.ofBool b).setWidth 32)
  | .pushDibit d => cmdWord 0x02 0 (d.setWidth 32)
  | .pushSoft v => cmdWord 0x03 0 v
  | .reset => cmdWord 0x08 0 0
  | .pop => cmdWord 0x10 0 0
  | .rdcsr csrn => cmdWord 0x20 csrn 0
  | .wrcsr csrn v => cmdWord 0x21 csrn v

/-- The command word whose low `nbits` bits are those of `w`, every bit above them zero. The word is one 64-bit value
transferred whole, so no byte order arises (20_memory.md R106). -/
def tableWord (nbits w : Nat) : Word := BitVec.ofNat 64 (w % 2 ^ nbits)

/-- What the decoder reads from an instruction whose bits are `w`, numbered as spec/opcode_table.json numbers them. -/
def decodeTableWord (nbits w : Nat) : Option Instr :=
  match decode (tableWord nbits w) with
  | .ok i => some i
  | .error _ => none

end Sys2Proof
end

