-- ==== Sys2Proof/Machine/Binary32.lean ====
section
/-! DEFINITION. IEEE 754 binary32 as far as the core observes it (00_scope.md R25, 30_encoding.md R156): addition and
multiplication rounded to nearest, ties to even, and the comparisons. A finite value is held exactly, as a multiple of
2^-149 (the least subnormal), so every sum and product is formed over the integers and rounded once. No comparison
tells the two zeros apart (40_sync_detector.md R204) and no rule reads a NaN's payload, so neither is held (log 10). -/

namespace Sys2Proof

/-- The value of a binary32: NaN, an infinity with its sign, or the finite value `q * 2^-149`. -/
inductive F32 where
  | nan
  | inf (neg : Bool)
  | fin (q : Int)
  deriving DecidableEq, Repr

/-- The fields of R156: sign bit 31, exponent bits 30:23, fraction bits 22:0. -/
def binary32Exp (b : Binary32) : Nat := (b.extractLsb' 23 8).toNat
def binary32Frac (b : Binary32) : Nat := (b.extractLsb' 0 23).toNat
def binary32Sign (b : Binary32) : Bool := b.getLsbD 31

/-- The integer of a sign and a magnitude. -/
def signed (neg : Bool) (mag : Nat) : Int := if neg then -(mag : Int) else (mag : Int)

/-- The value of a bit pattern: every pattern has one (30_encoding.md R156). -/
def F32.ofBits (b : Binary32) : F32 :=
  if binary32Exp b = 255 then
    if binary32Frac b = 0 then .inf (binary32Sign b) else .nan
  else if binary32Exp b = 0 then .fin (signed (binary32Sign b) (binary32Frac b))
  else .fin (signed (binary32Sign b) ((2 ^ 23 + binary32Frac b) * 2 ^ (binary32Exp b - 1)))

/-- A bit pattern is a NaN. -/
def isNaN (b : Binary32) : Bool := binary32Exp b == 255 && binary32Frac b != 0

/-- A bit pattern is a finite value. -/
def isFinite (b : Binary32) : Bool := binary32Exp b != 255

/-- `n / 2^k` rounded to the nearest integer, ties to even. -/
def roundHalfEven (n k : Nat) : Nat :=
  let q := n / 2 ^ k
  let rest := 2 * (n % 2 ^ k)
  if rest > 2 ^ k ∨ (rest = 2 ^ k ∧ q % 2 = 1) then q + 1 else q

/-- The number of bits of `n` (0 for 0). -/
def bitLength (n : Nat) : Nat := if n = 0 then 0 else n.log2 + 1

/-- The magnitude `n * 2^-k`, in units of 2^-149, rounded to binary32: at most 24 significant bits, no bit below one
unit. `drop` is how many low bits of `n` the format cannot hold. -/
def roundMag (n k : Nat) : Nat :=
  let drop := max k (bitLength n - 24)
  roundHalfEven n drop * 2 ^ (drop - k)

/-- The first magnitude past the largest finite one, 2^128, in units of 2^-149. -/
def overflowMag : Nat := 2 ^ 128 * 2 ^ 149

/-- Rounding of an exact result `± n * 2^-k` units; past the range it is an infinity. -/
def roundF32 (neg : Bool) (n k : Nat) : F32 :=
  let m := roundMag n k
  if overflowMag ≤ m then .inf neg else .fin (signed neg m)

/-- `fadd32` (R25). -/
def fadd32 : F32 → F32 → F32
  | .fin a, .fin b => roundF32 (decide (a + b < 0)) (a + b).natAbs 0
  | .nan, _ => .nan
  | _, .nan => .nan
  | .inf s, .inf t => if s = t then .inf s else .nan
  | .inf s, .fin _ => .inf s
  | .fin _, .inf t => .inf t

/-- `fmul32` (R25). -/
def fmul32 : F32 → F32 → F32
  | .fin a, .fin b => roundF32 (decide (a * b < 0)) (a * b).natAbs 149
  | .nan, _ => .nan
  | _, .nan => .nan
  | .inf s, .inf t => .inf (s != t)
  | .inf s, .fin b => if b = 0 then .nan else .inf (s != decide (b < 0))
  | .fin a, .inf t => if a = 0 then .nan else .inf (decide (a < 0) != t)

/-- The IEEE comparison `>`: false when an operand is a NaN (R25). -/
def F32.gt : F32 → F32 → Bool
  | .fin a, .fin b => decide (a > b)
  | .nan, _ => false
  | _, .nan => false
  | .inf s, .inf t => !s && t
  | .inf s, .fin _ => !s
  | .fin _, .inf t => t

/-- The IEEE comparison `==`: false when an operand is a NaN, true on the two zeros (R25). -/
def F32.eq : F32 → F32 → Bool
  | .fin a, .fin b => decide (a = b)
  | .inf s, .inf t => s == t
  | _, _ => false

/-- The IEEE comparison `>=` (40_sync_detector.md R206). -/
def F32.ge (x y : F32) : Bool := x.gt y || x.eq y

end Sys2Proof
end

