-- ==== Sys2Proof/Config.lean ====
section
/-! DEFINITION. What an instance is built over: the numeric parameters (00_scope.md R9), the configuration record
(R10), the free value TRELLIS_TIE, and the configuration the model's `State.reset` is built over. -/

namespace Sys2Proof

/-- A partial function of the configuration, as the list of its entries. The first entry of a key is its value
(DESIGN CHOICE, log 5). -/
abbrev Table (α β : Type) := List (α × β)

/-- What one input unit is (00_scope.md R11). -/
inductive UnitKind where
  | bit | dibit | soft
  deriving DecidableEq, Repr

/-- A sync pattern (R10): its id, its bits, its ideal soft values, and the data-unit type it starts. -/
structure Pattern where
  id : U8
  bits : List Bool
  ideal : List Binary32
  du : U8
  deriving DecidableEq, Repr

/-- The soft-symbol quantizer (R10, 40_sync_detector.md R206): the thresholds `q[0..2]` and the region map `map[0..3]`. -/
structure Quantizer where
  q0 : Binary32
  q1 : Binary32
  q2 : Binary32
  map0 : Dibit
  map1 : Dibit
  map2 : Dibit
  map3 : Dibit
  deriving DecidableEq, Repr

/-- A fixed-position field: frame bits `off .. off+width-1`, first bit most significant (20_memory.md R104). -/
structure Field where
  off : Nat
  width : Nat
  deriving DecidableEq, Repr

/-- A binary linear code by the columns of its parity-check matrix (42_error_correction.md R313). -/
structure LinearCode where
  n : Nat
  r : Nat
  cols : List Nat
  t : Nat
  deriving DecidableEq, Repr

/-- One CRC, block-code, Reed-Solomon or trellis operation over designated frame bits (R10). A CRC's `recv` is the
position list the spec's record calls `crc`. -/
inductive Check where
  | crc (w poly init xorout : Nat) (data recv : List Nat)
  | block (code : LinearCode) (pos : List Nat)
  | rs (m prim n k fcr : Nat) (pos : List Nat)
  | trellis (pos : List Nat) (start : Option Dibit) (failAbove : Option Nat)
  deriving DecidableEq, Repr

/-- How a header's length field gives the frame length (R10, 41_framer.md R258, R259). -/
inductive LenMap where
  | affine (base mult : Nat)
  | select (table : Table U32 U8)
  deriving DecidableEq, Repr

/-- A data-unit type's frame length (R10). -/
inductive FrameLength where
  | fixed (n : Nat)
  | variableLen (hdrBits : Nat) (lenField : Field) (hdrChecks : List Check) (map : LenMap)
  deriving DecidableEq, Repr

/-- A data-unit type's part in multi-block reassembly (R10, 43_dispatch.md R370). -/
inductive Role where
  | single
  | header (cls : U8) (key : List Field) (count : Field)
  | block (cls : U8) (key : List Field) (index : Option Field)
  deriving DecidableEq, Repr

/-- The description of one data-unit type (R10). -/
structure DuCfg where
  length : FrameLength
  checks : List Check
  opcode : Option Field
  vendor : Option Field
  role : Role
  deriving DecidableEq, Repr

/-- The configuration record of one protocol (R10). `trellisLegal` lists the legal dibit transitions. -/
structure Cfg where
  protocolTag : U8
  unitKind : UnitKind
  patterns : List Pattern
  hardThreshold : Nat
  softThreshold : Binary32
  quantizer : Quantizer
  duTable : Table U8 DuCfg
  trellisLegal : List (Dibit × Dibit)
  standardVendor : U32
  primary : Table (U8 × U32) U16
  secondary : Table (U8 × U32 × U32) U16
  deriving DecidableEq, Repr

/-- The numeric parameters of R9: Q, M, T, F and B. -/
structure Params where
  /-- `P_OUTQ_DEPTH` (Q) -/
  outqDepth : Nat
  /-- `P_MAX_PENDING` (M) -/
  maxPending : Nat
  /-- `P_SEQ_TIMEOUT` (T) -/
  seqTimeout : Nat
  /-- `P_MAX_FRAME_BITS` (F) -/
  maxFrameBits : Nat
  /-- `P_MAX_BLOCKS` (B) -/
  maxBlocks : Nat
  deriving DecidableEq, Repr

/-- The parameter `TRELLIS_TIE` (R9, 42_error_correction.md R336), a FREE VALUE (log 4): which of the dibits that
continue a minimum-cost legal sequence is taken at position `i`, for the instance's configuration, the received dibits
and the start dibit. It is read only where there are at least two such dibits, modulo their number. -/
opaque Config.trellisTie (cfg : Cfg) (received : List Dibit) (start : Option Dibit) (i : Nat) : Nat

/-- The base configuration `BASE` of 95_test_vectors.md: a BIT protocol with one pattern `11110000`, threshold 6, one
data-unit type of 10 bits with no checks. That file gives no `soft_threshold`, `quantizer` or `trellis_legal`; 0, zeros
and the empty relation are the model's choice (DESIGN CHOICE, log 1). No rule reads the first two under a BIT
configuration, nor the third without a trellis check. -/
def Config.base : Cfg where
  protocolTag := 1
  unitKind := .bit
  patterns := [{ id := 1, bits := [true, true, true, true, false, false, false, false], ideal := [], du := 1 }]
  hardThreshold := 6
  softThreshold := 0
  quantizer := { q0 := 0, q1 := 0, q2 := 0, map0 := 0, map1 := 0, map2 := 0, map3 := 0 }
  duTable := [(1, { length := .fixed 10, checks := [], opcode := none, vendor := none, role := .single })]
  trellisLegal := []
  standardVendor := 0
  primary := []
  secondary := []

/-- The parameter values 95_test_vectors.md takes: Q = 4, M = 4, T = 1000, F = 4096, B = 16. -/
def Config.baseParams : Params where
  outqDepth := 4
  maxPending := 4
  seqTimeout := 1000
  maxFrameBits := 4096
  maxBlocks := 16

end Sys2Proof
end

