-- ==== Sys2Proof/Machine/Galois.lean ====
section
/-! DEFINITION. The arithmetic under the codes: syndromes of a binary linear code (42_error_correction.md R313), GF(2^m)
(R320), and the sets of error positions a bounded-distance decoder ranges over. -/

namespace Sys2Proof

/-- The sublists of `k` elements of a list, in order: the position sets of size `k`. -/
def choose {α : Type} : Nat → List α → List (List α)
  | 0, _ => [[]]
  | _ + 1, [] => []
  | k + 1, a :: l => (choose k l).map (a :: ·) ++ choose (k + 1) l

/-- The nonempty sublists of at most `t` elements. -/
def chooseUpTo {α : Type} (t : Nat) (l : List α) : List (List α) :=
  (List.range t).flatMap fun k => choose (k + 1) l

/-- Exclusive or of a list of bit strings. -/
def xorAll (l : List Nat) : Nat := l.foldl (· ^^^ ·) 0

/-- `syn(x)`: the exclusive or of the columns where `x` is 1 (R313). -/
def LinearCode.syndrome (c : LinearCode) (x : List Bool) : Nat :=
  xorAll ((c.cols.zip x).map fun cx => if cx.2 then cx.1 else 0)

/-- The syndrome of the error pattern that is 1 exactly at the given positions. -/
def LinearCode.syndromeAt (c : LinearCode) (e : List Nat) : Nat :=
  xorAll (e.map fun i => c.cols.getD i 0)

/-- No nonempty set of at most `budget` of the columns, each added to `acc`, sums to zero. -/
def noZeroSum : List Nat → Nat → Nat → Bool
  | [], _, _ => true
  | c :: cs, acc, budget =>
    noZeroSum cs acc budget &&
      match budget with
      | 0 => true
      | b + 1 => acc ^^^ c != 0 && noZeroSum cs (acc ^^^ c) b

/-- R313: the code is valid. -/
def LinearCode.valid (c : LinearCode) : Bool :=
  decide (1 ≤ c.r) && decide (1 ≤ c.n) && c.cols.length == c.n && c.cols.all (fun v => decide (v < 2 ^ c.r)) &&
    noZeroSum c.cols 0 (2 * c.t)

/-- Multiplication by x modulo `prim` in GF(2^m) (R320): α is the element 2. -/
def gfDouble (m prim a : Nat) : Nat :=
  let d := 2 * a
  if d.testBit m then d ^^^ prim else d

/-- The product of two elements of GF(2^m), by the `k` low bits of `b`, least significant first. -/
def gfMulBits (m prim a b : Nat) : Nat → Nat
  | 0 => 0
  | k + 1 =>
    let low := gfMulBits m prim (gfDouble m prim a) (b / 2) k
    if b % 2 = 1 then a ^^^ low else low

/-- Multiplication in GF(2^m) (R320). -/
def gfMul (m prim a b : Nat) : Nat := gfMulBits m prim a b m

/-- `α^i` (R320). -/
def alphaPow (m prim : Nat) : Nat → Nat
  | 0 => 1
  | i + 1 => gfDouble m prim (alphaPow m prim i)

/-- The least number of doublings, from 1 to `k`, that takes `a` to 1; 0 if none does. -/
def firstReturn (m prim : Nat) (a : Nat) : Nat → Nat
  | 0 => 0
  | k + 1 =>
    let a' := gfDouble m prim a
    if a' = 1 then 1 else
      match firstReturn m prim a' k with
      | 0 => 0
      | r + 1 => r + 2

/-- `prim` is a primitive polynomial of degree `m` over GF(2) (00_scope.md R18): of degree `m`, and the powers of x
first return to 1 at `2^m - 1`, so that every nonzero residue is a power of x. -/
def primitive (m prim : Nat) : Bool :=
  decide (2 ^ m ≤ prim) && decide (prim < 2 ^ (m + 1)) && firstReturn m prim 1 (2 ^ m - 1) == 2 ^ m - 1

/-- `y(x)` at a point, the first symbol being the highest-degree coefficient (R321). -/
def gfEval (m prim : Nat) (y : List Nat) (x : Nat) : Nat :=
  y.foldl (fun acc s => gfMul m prim acc x ^^^ s) 0

/-- R322: the word is a codeword, `y(α^(fcr+i)) = 0` for `i = 0 … n-k-1`. -/
def rsCodeword (m prim n k fcr : Nat) (y : List Nat) : Bool :=
  (List.range (n - k)).all fun i => gfEval m prim y (alphaPow m prim (fcr + i)) == 0

end Sys2Proof
end

