-- ==== Sys2Proof/Machine/Validate.lean ====
section
/-! DEFINITION. Lookups in the configuration record, the lengths of R11 and R12, and the start-up validation
`cfg_valid` with its named checks (00_scope.md R9, R13 to R22). -/

namespace Sys2Proof

/-- The value of a key: the first entry's (log 5). -/
def Table.get? {α β : Type} [BEq α] (t : Table α β) (k : α) : Option β := t.lookup k

/-- The domain of a table. -/
def Table.dom {α β : Type} (t : Table α β) : List α := t.map (·.1)

/-- The range of a table: the value of every key. -/
def Table.range {α β : Type} [BEq α] (t : Table α β) : List β := t.dom.filterMap fun k => Table.get? t k

/-- The description of a data-unit type. -/
def Cfg.du? (cfg : Cfg) (du : U8) : Option DuCfg := Table.get? cfg.duTable du

/-- The descriptions of all data-unit types. -/
def Cfg.dus (cfg : Cfg) : List DuCfg := Table.range cfg.duTable

/-- `bpu(cfg)` (R11): bits per unit. -/
def Cfg.bpu (cfg : Cfg) : Nat := if cfg.unitKind = .bit then 1 else 2

/-- `L(p)` (R12): a pattern's length in units. -/
def patternLength (kind : UnitKind) (p : Pattern) : Nat :=
  match kind with
  | .bit => p.bits.length
  | .dibit => p.bits.length / 2
  | .soft => p.ideal.length

/-- `W(cfg)` (R12): the window length. -/
def Cfg.windowLen (cfg : Cfg) : Nat := (cfg.patterns.map (patternLength cfg.unitKind)).foldl max 0

/-- `trellis_legal(a, b)` (R10). -/
def Cfg.legal (cfg : Cfg) (a b : Dibit) : Bool := cfg.trellisLegal.contains (a, b)

/-- The four dibits (R26). -/
def allDibits : List Dibit := [0, 1, 2, 3]

/-- No element stands twice. -/
def distinct {α : Type} [DecidableEq α] (l : List α) : Bool := decide l.Nodup

/-- The position lists of a check. -/
def Check.posLists : Check → List (List Nat)
  | .crc _ _ _ _ data recv => [data, recv]
  | .block _ pos => [pos]
  | .rs _ _ _ _ _ pos => [pos]
  | .trellis pos _ _ => [pos]

/-- Every position a check names. -/
def Check.positions (c : Check) : List Nat := c.posLists.flatten

def Check.isTrellis : Check → Bool
  | .trellis .. => true
  | _ => false

/-- The checks run on a variable type's header. -/
def DuCfg.hdrChecks (d : DuCfg) : List Check :=
  match d.length with
  | .fixed _ => []
  | .variableLen _ _ hdrChecks _ => hdrChecks

/-- The key fields of a role, with its count or index field. -/
def Role.fields : Role → List Field
  | .single => []
  | .header _ key count => key ++ [count]
  | .block _ key index => key ++ index.toList

/-- The fields read from a completed frame of a type (R17). -/
def DuCfg.fields (d : DuCfg) : List Field := d.opcode.toList ++ d.vendor.toList ++ d.role.fields

/-- The bits that are always present in a frame of a type (R17). -/
def DuCfg.sureBits (d : DuCfg) : Nat :=
  match d.length with
  | .fixed n => n
  | .variableLen hdrBits _ _ _ => hdrBits

/-- Check V_PATTERNS (R14), one pattern. -/
def vPattern (cfg : Cfg) (p : Pattern) : Bool :=
  p.id != 0 && decide (1 ≤ patternLength cfg.unitKind p) && (Table.dom cfg.duTable).contains p.du &&
    match cfg.unitKind with
    | .bit => p.ideal == []
    | .dibit => p.bits.length % 2 == 0 && p.ideal == []
    | .soft => p.bits.length == 2 * p.ideal.length && p.ideal.all isFinite

/-- Check V_PATTERNS (R14). -/
def vPatterns (cfg : Cfg) : Bool :=
  decide (1 ≤ cfg.patterns.length) && decide (cfg.patterns.length ≤ 255) && distinct (cfg.patterns.map (·.id)) &&
    cfg.patterns.all (vPattern cfg)

/-- Check V_THRESHOLDS (R15). -/
def vThresholds (cfg : Cfg) : Bool :=
  match cfg.unitKind with
  | .soft =>
    let q := cfg.quantizer
    isFinite cfg.softThreshold && isFinite q.q0 && isFinite q.q1 && isFinite q.q2 &&
      (F32.ofBits q.q1).gt (F32.ofBits q.q0) && (F32.ofBits q.q2).gt (F32.ofBits q.q1) &&
      distinct [q.map0, q.map1, q.map2, q.map3]
  | _ => true

/-- Check V_LENGTHS (R16), the length map of a variable type. -/
def vLenMap (cfg : Cfg) (hdrBits : Nat) : LenMap → Bool
  | .affine base mult => base % cfg.bpu == 0 && mult % cfg.bpu == 0
  | .select table => (Table.range table).all fun du =>
      match cfg.du? du with
      | some d =>
        match d.length with
        | .fixed n => decide (hdrBits ≤ n)
        | .variableLen .. => false
      | none => false

/-- Check V_LENGTHS (R16), one type. -/
def vLength (cfg : Cfg) (par : Params) (d : DuCfg) : Bool :=
  match d.length with
  | .fixed n => decide (1 ≤ n) && decide (n ≤ par.maxFrameBits) && n % cfg.bpu == 0
  | .variableLen hdrBits lenField hdrChecks map =>
    decide (1 ≤ hdrBits) && decide (hdrBits ≤ par.maxFrameBits) && hdrBits % cfg.bpu == 0 &&
      decide (lenField.off + lenField.width ≤ hdrBits) &&
      hdrChecks.all (fun c => c.positions.all fun p => decide (p < hdrBits)) && vLenMap cfg hdrBits map

/-- Check V_LENGTHS (R16). -/
def vLengths (cfg : Cfg) (par : Params) : Bool := cfg.dus.all (vLength cfg par)

/-- A field's width is 1 to 32 (R17). -/
def vWidth (f : Field) : Bool := decide (1 ≤ f.width) && decide (f.width ≤ 32)

/-- Check V_FIELDS (R17), one type. -/
def vFieldsOf (d : DuCfg) : Bool :=
  d.fields.all (fun f => vWidth f && decide (f.off + f.width ≤ d.sureBits)) &&
    match d.length with
    | .fixed _ => true
    | .variableLen _ lenField _ _ => vWidth lenField

/-- Check V_FIELDS (R17). -/
def vFields (cfg : Cfg) : Bool := cfg.dus.all vFieldsOf

/-- Check V_CHECKS (R18), one check's own conditions. -/
def vCheck (par : Params) (c : Check) : Bool :=
  c.positions.all (fun p => decide (p < par.maxFrameBits)) && c.posLists.all (fun l => distinct l) &&
    match c with
    | .crc w poly init xorout data recv =>
      decide (1 ≤ w) && decide (w ≤ 32) && decide (poly < 2 ^ w) && poly % 2 == 1 && decide (init < 2 ^ w) &&
        decide (xorout < 2 ^ w) && recv.length == w && decide (1 ≤ data.length) && data.all (fun p => !recv.contains p)
    | .block code pos => pos.length == code.n && code.valid
    | .rs m prim n k fcr pos =>
      decide (2 ≤ m) && decide (m ≤ 8) && primitive m prim && decide (1 ≤ k) && decide (k < n) &&
        decide (n ≤ 2 ^ m - 1) && decide (fcr ≤ 2 ^ m - 2) && pos.length == n * m
    | .trellis pos _ _ => pos.length % 2 == 0 && decide (2 ≤ pos.length)

/-- Check V_CHECKS (R18), one type: for a fixed length every position lies inside the frame. -/
def vChecksOf (par : Params) (d : DuCfg) : Bool :=
  (d.checks ++ d.hdrChecks).all (vCheck par) &&
    match d.length with
    | .fixed n => d.checks.all fun c => c.positions.all fun p => decide (p < n)
    | .variableLen .. => true

/-- Check V_CHECKS (R18). -/
def vChecks (cfg : Cfg) (par : Params) : Bool := cfg.dus.all (vChecksOf par)

/-- Check V_TRELLIS (R19): where a trellis check stands, the relation is symmetric and each dibit has two successors. -/
def vTrellis (cfg : Cfg) : Bool :=
  !(cfg.dus.any fun d => (d.checks ++ d.hdrChecks).any Check.isTrellis) ||
    (allDibits.all fun a =>
      (allDibits.all fun b => cfg.legal a b == cfg.legal b a) && (allDibits.filter (cfg.legal a)).length == 2)

/-- A header role's class and key length. -/
def Role.headerKey? : Role → Option (U8 × Nat)
  | .header cls key _ => some (cls, key.length)
  | _ => none

/-- A block role's class and key length. -/
def Role.blockKey? : Role → Option (U8 × Nat)
  | .block cls key _ => some (cls, key.length)
  | _ => none

/-- Check V_ROLES (R20). -/
def vRoles (cfg : Cfg) : Bool :=
  let headers := cfg.dus.filterMap fun d => d.role.headerKey?
  let blocks := cfg.dus.filterMap fun d => d.role.blockKey?
  blocks.all (fun b => headers.contains b) && headers.all fun h => headers.all fun h' => h.1 != h'.1 || h.2 == h'.2

/-- Check V_DISPATCH (R21). -/
def vDispatch (cfg : Cfg) : Bool :=
  (Table.dom cfg.primary).all (fun k => (Table.dom cfg.duTable).contains k.1) &&
    (Table.dom cfg.secondary).all (fun k => (Table.dom cfg.duTable).contains k.1) &&
    (Table.range cfg.primary).all (· != 0xFFFF) && (Table.range cfg.secondary).all (· != 0xFFFF)

/-- The data-unit types a `Select` table can reach. -/
def DuCfg.selectTargets (d : DuCfg) : List U8 :=
  match d.length with
  | .variableLen _ _ _ (.select table) => Table.range table
  | _ => []

/-- Check V_COMPLETE (R22). -/
def vComplete (cfg : Cfg) : Bool :=
  (cfg.patterns.map (·.du) ++ cfg.dus.flatMap DuCfg.selectTargets).all (Table.dom cfg.duTable).contains

/-- The parameter ranges of R9. -/
def paramsValid (par : Params) : Bool :=
  decide (1 ≤ par.outqDepth) && decide (par.outqDepth ≤ 2 ^ 16) &&
    decide (1 ≤ par.maxPending) && decide (par.maxPending ≤ 2 ^ 16) &&
    decide (1 ≤ par.seqTimeout) && decide (par.seqTimeout < 2 ^ 32) &&
    decide (1 ≤ par.maxFrameBits) && decide (par.maxFrameBits ≤ 65535) &&
    decide (1 ≤ par.maxBlocks) && decide (par.maxBlocks ≤ 65534)

/-- `cfg_valid(cfg)` (R13). -/
def cfgValid (cfg : Cfg) (par : Params) : Bool :=
  paramsValid par && vPatterns cfg && vThresholds cfg && vLengths cfg par && vFields cfg && vChecks cfg par &&
    vTrellis cfg && vRoles cfg && vDispatch cfg && vComplete cfg

end Sys2Proof
end

