-- ==== Sys2Proof/Machine/State.lean ====
section
/-! DEFINITION. The state of the core (10_state.md section 2), the response and command streams at its host interface,
the (empty) faults and refusals, and the power-on state (70_reset_and_hazards.md R500, R501). -/

namespace Sys2Proof.Machine

/-- The kind of a check (00_scope.md R27). -/
inductive CheckKind where
  | crc | block | rs | trellis
  deriving DecidableEq, Repr

/-- The verdict of a check (R27); the count of CORRECTED(n) is the record's `n`. -/
inductive Verdict where
  | passed | corrected | failed
  deriving DecidableEq, Repr

/-- A check result (R27): `n` is 0 for PASSED and FAILED, `frame` the index of the frame in a reassembled message. -/
structure CheckResult where
  kind : CheckKind
  verdict : Verdict
  n : Nat
  frame : Nat
  deriving DecidableEq, Repr

/-- The validity of a frame or message (42_error_correction.md R303). -/
inductive Validity where
  | valid | crcFailed | invalid
  deriving DecidableEq, Repr

/-- A unit in the window (10_state.md R55). -/
inductive InputUnit where
  | bit (b : Bool)
  | dib (d : Dibit)
  | soft (v : Binary32) (d : Dibit)
  deriving DecidableEq, Repr

/-- A frame in assembly (R54). -/
structure Frame where
  pat : U8
  du : U8
  ts : U64
  bits : List Bool
  target : Option Nat
  corrected : Nat
  viol : Nat
  results : List CheckResult
  deriving DecidableEq, Repr

/-- The framer's lock state (R53). -/
inductive Lock where
  | searching
  | synchronized (f : Frame)
  deriving DecidableEq, Repr

/-- A reassembly entry (R56). -/
structure SeqEntry where
  key : U8 × List U32
  header : Frame
  blocks : List Frame
  expected : Nat
  last : U64
  deriving DecidableEq, Repr

/-- A message (43_dispatch.md R361). -/
structure Message where
  variant : U16
  protocol : U8
  du : U8
  pattern : U8
  validity : Validity
  opcode : U32
  vendor : U32
  vendorPresent : Bool
  ts : U64
  corrected : Nat
  viol : Nat
  blockCount : U16
  bits : List Bool
  results : List CheckResult
  deriving DecidableEq, Repr

/-- The 22 event counters (R66). -/
structure Counters where
  syncDetect : U32
  syncAmbiguous : U32
  frameResyncDiscard : U32
  frameHdrDiscard : U32
  frameLenDiscard : U32
  frameComplete : U32
  msgEnqueued : U32
  msgDropped : U32
  seqStarted : U32
  seqCompleted : U32
  seqAbandoned : U32
  seqEvicted : U32
  seqTimeout : U32
  seqRejected : U32
  blockOrphan : U32
  blockOutOfOrder : U32
  checkFailed : U32
  bitsCorrected : U32
  trellisViolations : U32
  unknownMsg : U32
  illegalCmd : U32
  nanInput : U32
  deriving DecidableEq, Repr

/-- The names of the counters, in the order of their CSR numbers 0x020 to 0x035 (R66). -/
inductive CounterName where
  | syncDetect | syncAmbiguous | frameResyncDiscard | frameHdrDiscard | frameLenDiscard | frameComplete
  | msgEnqueued | msgDropped | seqStarted | seqCompleted | seqAbandoned | seqEvicted | seqTimeout | seqRejected
  | blockOrphan | blockOutOfOrder | checkFailed | bitsCorrected | trellisViolations | unknownMsg | illegalCmd
  | nanInput
  deriving DecidableEq, Repr

/-- Every counter 0 (R66). -/
def Counters.zero : Counters :=
  ⟨0, 0, 0, 0, 0, 0, 0, 0, 0, 0, 0, 0, 0, 0, 0, 0, 0, 0, 0, 0, 0, 0⟩

/-- The response to a command (30_encoding.md R151). -/
inductive Resp where
  | none
  | csr (v : U32)
  | msg (m : Option Message)
  deriving DecidableEq, Repr

/-- The state of one instance. The first eight fields after the configuration are the spec's record (10_state.md
section 2). `cfg` and `par` are the configuration and parameters, which no step writes (20_memory.md R101; log 1);
`resp` and `cmds` are the model's own host interface (log 2, log 3). -/
structure State where
  /-- The configuration record (00_scope.md R10). -/
  cfg : Cfg
  /-- The parameters Q, M, T, F, B (00_scope.md R9). -/
  par : Params
  /-- The result of start-up validation (R58). -/
  cfgOk : Bool
  /-- The framer's lock state with its frame in assembly (R53, R54). -/
  lock : Lock
  /-- The sync detector's sliding window, oldest unit first (R55). -/
  window : List InputUnit
  /-- The reassembly table, in insertion order (R56). -/
  seqs : List SeqEntry
  /-- The output message queue, oldest first (R57). -/
  outq : List Message
  /-- The number of accepted units since power-on (R59). -/
  unitCount : U64
  /-- The sticky error bits (R62). -/
  err : U32
  /-- The event counters (R66). -/
  ctr : Counters
  /-- The response of the last command (30_encoding.md R151). -/
  resp : Resp
  /-- The command words issued and not yet executed, next first (R51). -/
  cmds : List Word
  deriving DecidableEq, Repr

/-- No condition faults: the core takes no trap, exception or fault (60_exceptions.md R450). The type is empty, so
that no step can answer one. -/
inductive Fault where
  deriving DecidableEq, Repr

/-- What a step may be refused for. No step refuses: every command of every encoding completes (R450). -/
inductive Refusal where
  /-- An instruction without a meaning in the model, raised by an arm of `exec` alone; safe (the step stops). No arm
  raises it: every instruction of the table has its meaning. -/
  | notModelled (mnemonic : String)
  deriving DecidableEq, Repr

/-- Power-on reset (70_reset_and_hazards.md R500, R501): an instance created over a configuration and parameters. -/
def State.powerOn (cfg : Cfg) (par : Params) : State where
  cfg := cfg
  par := par
  cfgOk := cfgValid cfg par
  lock := .searching
  window := []
  seqs := []
  outq := []
  unitCount := 0
  err := if cfgValid cfg par then 0 else 1
  ctr := Counters.zero
  resp := .none
  cmds := []

/-- The machine right after reset: power-on over the configuration `BASE` (DESIGN CHOICE of the configuration, log 1). -/
def State.reset : State := State.powerOn Config.base Config.baseParams

end Sys2Proof.Machine
end

