-- ==== Sys2Proof/Machine/Operands.lean ====
section
/-! DEFINITION. The operands of the core: units and their bits (20_memory.md R103), the quantizer
(40_sync_detector.md R206), fields and position lists of a frame (R104, R105). -/

namespace Sys2Proof.Machine

/-- The bits of a dibit, `b_hi` first (00_scope.md R26, 20_memory.md R103). -/
def dibitBits (d : Dibit) : List Bool := [d.getLsbD 1, d.getLsbD 0]

/-- The dibit `2·hi + lo` (R26). -/
def dibitOf (hi lo : Bool) : Dibit := BitVec.ofBool hi ++ BitVec.ofBool lo

/-- `unit_bits(u)`: the bits a unit appends to a frame, in order (R103). -/
def unitBits : InputUnit → List Bool
  | .bit b => [b]
  | .dib d => dibitBits d
  | .soft _ d => dibitBits d

/-- The kind of a unit (R11). -/
def InputUnit.kind : InputUnit → UnitKind
  | .bit _ => .bit
  | .dib _ => .dibit
  | .soft _ _ => .soft

/-- The region map of a quantizer (R206). -/
def regionMap (q : Quantizer) (r : Nat) : Dibit :=
  match r with
  | 0 => q.map0
  | 1 => q.map1
  | 2 => q.map2
  | _ => q.map3

/-- The region of a soft symbol: how many thresholds it is at or above (R206). -/
def region (q : Quantizer) (v : Binary32) : Nat :=
  let x := F32.ofBits v
  (x.ge (F32.ofBits q.q0)).toNat + (x.ge (F32.ofBits q.q1)).toNat + (x.ge (F32.ofBits q.q2)).toNat

/-- `quantize(v)` (R206). -/
def quantize (q : Quantizer) (v : Binary32) : Dibit := regionMap q (region q v)

/-- Frame bit `i`. A valid configuration reads no bit beyond the frame's end; such a read gives 0 (log 6). -/
def bitAt (bits : List Bool) (i : Nat) : Bool := bits.getD i false

/-- The unsigned value of a bit list, first bit most significant (R104, R105). -/
def msbValue (l : List Bool) : Nat := l.foldl (fun acc b => 2 * acc + b.toNat) 0

/-- The bits at a position list, in list order (R105). -/
def bitsAt (bits : List Bool) (pos : List Nat) : List Bool := pos.map (bitAt bits)

/-- `field(bits, f)` (00_scope.md R23, 20_memory.md R104). -/
def field (bits : List Bool) (f : Field) : Nat := msbValue (bitsAt bits (List.range' f.off f.width))

/-- A field's value as the 32-bit number it is for every width of R17. -/
def field32 (bits : List Bool) (f : Field) : U32 := BitVec.ofNat 32 (field bits f)

/-- Bit j of a working vector is stored at `bits[p_j]` (R105). -/
def writeBits (bits : List Bool) (pos : List Nat) (vals : List Bool) : List Bool :=
  (pos.zip vals).foldl (fun acc pv => acc.set pv.1 pv.2) bits

/-- The bits at the given positions inverted. -/
def flipBits (bits : List Bool) (pos : List Nat) : List Bool :=
  pos.foldl (fun acc p => acc.set p (!bitAt acc p)) bits

/-- The `k` bits of a number, most significant first. -/
def msbBits (k v : Nat) : List Bool := (List.range k).map fun i => v.testBit (k - 1 - i)

/-- Consecutive groups of `k` elements: `count` of them. -/
def groups {α : Type} (k : Nat) : Nat → List α → List (List α)
  | 0, _ => []
  | count + 1, l => l.take k :: groups k count (l.drop k)

/-- The dibits of a bit list, two bits each, high bit first (R334). -/
def dibitsOf : List Bool → List Dibit
  | hi :: lo :: rest => dibitOf hi lo :: dibitsOf rest
  | _ => []

/-- The number of one bits of a dibit. -/
def dibitWeight (d : Dibit) : Nat := (d.getLsbD 1).toNat + (d.getLsbD 0).toNat

end Sys2Proof.Machine
end

