-- ==== Sys2Proof/Machine/Flags.lean ====
section
/-! DEFINITION. The error bits (10_state.md R62), the event counters (R66, R67), STATUS (R61) and the CSR map (R60,
R64) with the value each register reads as. -/

namespace Sys2Proof.Machine

/-- The error conditions; the code of each is its ERR bit number (10_state.md R62, 60_exceptions.md R451). -/
inductive ErrBit where
  | cfgInvalid | illegalOpc | rsvdNonzero | kindMismatch | outqOverflow | badCsr
  deriving DecidableEq, Repr

def ErrBit.code : ErrBit → Nat
  | .cfgInvalid => 0
  | .illegalOpc => 1
  | .rsvdNonzero => 2
  | .kindMismatch => 3
  | .outqOverflow => 4
  | .badCsr => 5

/-- `err.NAME <- 1` (00_scope.md R24). -/
def State.setErr (s : State) (e : ErrBit) : State := { s with err := s.err ||| (1 : U32) <<< e.code }

def Counters.get (c : Counters) : CounterName → U32
  | .syncDetect => c.syncDetect
  | .syncAmbiguous => c.syncAmbiguous
  | .frameResyncDiscard => c.frameResyncDiscard
  | .frameHdrDiscard => c.frameHdrDiscard
  | .frameLenDiscard => c.frameLenDiscard
  | .frameComplete => c.frameComplete
  | .msgEnqueued => c.msgEnqueued
  | .msgDropped => c.msgDropped
  | .seqStarted => c.seqStarted
  | .seqCompleted => c.seqCompleted
  | .seqAbandoned => c.seqAbandoned
  | .seqEvicted => c.seqEvicted
  | .seqTimeout => c.seqTimeout
  | .seqRejected => c.seqRejected
  | .blockOrphan => c.blockOrphan
  | .blockOutOfOrder => c.blockOutOfOrder
  | .checkFailed => c.checkFailed
  | .bitsCorrected => c.bitsCorrected
  | .trellisViolations => c.trellisViolations
  | .unknownMsg => c.unknownMsg
  | .illegalCmd => c.illegalCmd
  | .nanInput => c.nanInput

/-- `ctr.NAME += k`, modulo 2^32 (R67). -/
def Counters.add (c : Counters) (name : CounterName) (k : Nat) : Counters :=
  let v := c.get name + BitVec.ofNat 32 k
  match name with
  | .syncDetect => { c with syncDetect := v }
  | .syncAmbiguous => { c with syncAmbiguous := v }
  | .frameResyncDiscard => { c with frameResyncDiscard := v }
  | .frameHdrDiscard => { c with frameHdrDiscard := v }
  | .frameLenDiscard => { c with frameLenDiscard := v }
  | .frameComplete => { c with frameComplete := v }
  | .msgEnqueued => { c with msgEnqueued := v }
  | .msgDropped => { c with msgDropped := v }
  | .seqStarted => { c with seqStarted := v }
  | .seqCompleted => { c with seqCompleted := v }
  | .seqAbandoned => { c with seqAbandoned := v }
  | .seqEvicted => { c with seqEvicted := v }
  | .seqTimeout => { c with seqTimeout := v }
  | .seqRejected => { c with seqRejected := v }
  | .blockOrphan => { c with blockOrphan := v }
  | .blockOutOfOrder => { c with blockOutOfOrder := v }
  | .checkFailed => { c with checkFailed := v }
  | .bitsCorrected => { c with bitsCorrected := v }
  | .trellisViolations => { c with trellisViolations := v }
  | .unknownMsg => { c with unknownMsg := v }
  | .illegalCmd => { c with illegalCmd := v }
  | .nanInput => { c with nanInput := v }

/-- `ctr.NAME += k` on the state (00_scope.md R24). -/
def State.count (s : State) (name : CounterName) (k : Nat) : State := { s with ctr := s.ctr.add name k }

/-- The level output MSG_AVAIL (60_exceptions.md R456). -/
def State.msgAvail (s : State) : Bool := decide (0 < s.outq.length)

/-- The level output ERR_ANY (R456). -/
def State.errAny (s : State) : Bool := s.err != 0

def Lock.frame? : Lock → Option Frame
  | .searching => none
  | .synchronized f => some f

/-- The bit OUTQ_FULL of STATUS (R61). A queue of capacity 0, which only an invalid instance has, is not full, so that
STATUS at power-on is 0x10 for every core that is not `cfg_ok` (R61, 70_reset_and_hazards.md R501; DESIGN CHOICE between
the spec's two values, log 16). -/
def State.outqFull (s : State) : Bool := decide (0 < s.par.outqDepth) && s.outq.length == s.par.outqDepth

/-- STATUS (R61), most significant field first. -/
def State.status (s : State) : U32 :=
  let f := s.lock.frame?
  let pat : U8 := (f.map (·.pat)).getD 0
  let du : U8 := (f.map (·.du)).getD 0
  (0 : U8) ++ du ++ pat ++ (0 : BitVec 3) ++ BitVec.ofBool s.errAny ++
    BitVec.ofBool s.outqFull ++ BitVec.ofBool s.msgAvail ++
    BitVec.ofBool ((f.bind (·.target)).isSome) ++ BitVec.ofBool f.isSome

/-- The assigned registers of the CSR space (R60). -/
inductive Csr where
  | ctrl | status | err | frameFill | frameTarget | windowFill | outqLevel | pendingSeq | windowLen
  | unitCountLo | unitCountHi
  | counter (name : CounterName)
  deriving DecidableEq, Repr

/-- The counters in the order of their CSR numbers from 0x020 (R66). -/
def counterNames : List CounterName :=
  [.syncDetect, .syncAmbiguous, .frameResyncDiscard, .frameHdrDiscard, .frameLenDiscard, .frameComplete,
   .msgEnqueued, .msgDropped, .seqStarted, .seqCompleted, .seqAbandoned, .seqEvicted, .seqTimeout, .seqRejected,
   .blockOrphan, .blockOutOfOrder, .checkFailed, .bitsCorrected, .trellisViolations, .unknownMsg, .illegalCmd,
   .nanInput]

/-- The CSR map (R60, R66): the register of a number, none for an unassigned one. -/
def csrOfNum (n : CsrNum) : Option Csr :=
  match n.toNat with
  | 0x000 => some .ctrl
  | 0x001 => some .status
  | 0x002 => some .err
  | 0x003 => some .frameFill
  | 0x004 => some .frameTarget
  | 0x005 => some .windowFill
  | 0x006 => some .outqLevel
  | 0x007 => some .pendingSeq
  | 0x008 => some .windowLen
  | 0x010 => some .unitCountLo
  | 0x011 => some .unitCountHi
  | k => if 0x020 ≤ k then (counterNames[k - 0x020]?).map Csr.counter else none

/-- The value a register reads as (R60, R61, R63, R64). R64 says that every view fits 32 bits by the bounds of R9, but
no rule bounds a pattern's length; WINDOW_FILL and WINDOW_LEN are taken modulo 2^32 (DESIGN CHOICE, log 17). -/
def csrValue (s : State) : Csr → U32
  | .ctrl => 0
  | .status => s.status
  | .err => s.err
  | .frameFill => BitVec.ofNat 32 ((s.lock.frame?.map (·.bits.length)).getD 0)
  | .frameTarget => BitVec.ofNat 32 ((s.lock.frame?.bind (·.target)).getD 0)
  | .windowFill => BitVec.ofNat 32 s.window.length
  | .outqLevel => BitVec.ofNat 32 s.outq.length
  | .pendingSeq => BitVec.ofNat 32 s.seqs.length
  | .windowLen => if s.cfgOk then BitVec.ofNat 32 s.cfg.windowLen else 0
  | .unitCountLo => s.unitCount.extractLsb' 0 32
  | .unitCountHi => s.unitCount.extractLsb' 32 32
  | .counter name => s.ctr.get name

end Sys2Proof.Machine
end

