-- ==== Sys2Proof/Machine/Ops.lean ====
section
/-! DEFINITION. The operations the commands share: giving a response, recording an error condition (the core's whole
exception model: it takes no trap, 60_exceptions.md R450, R451, R457, R458), ignoring a command, and emitting a message
(43_dispatch.md R380). -/

namespace Sys2Proof.Machine

/-- The command's response (30_encoding.md R151). -/
def State.respond (s : State) (r : Resp) : State := { s with resp := r }

/-- `S.lock <- l` (00_scope.md R24). -/
def State.setLock (s : State) (l : Lock) : State := { s with lock := l }

/-- `S.window <- w`. -/
def State.setWindow (s : State) (w : List InputUnit) : State := { s with window := w }

/-- `S.seqs <- t`. -/
def State.setSeqs (s : State) (t : List SeqEntry) : State := { s with seqs := t }

/-- `S.outq <- q`. -/
def State.setOutq (s : State) (q : List Message) : State := { s with outq := q }

/-- `S.unit_count <- n`. -/
def State.setUnitCount (s : State) (n : U64) : State := { s with unitCount := n }

/-- The commands still to be executed. -/
def State.setCmds (s : State) (ws : List Word) : State := { s with cmds := ws }

/-- A command-level error condition (60_exceptions.md R451): its ERR bit is set, ILLEGAL_CMD counts, the command has
no other effect and gives the response. This is the one shared operation that stands where a processor takes an
exception: nothing is saved, no mode changes and no vector is taken (R457). -/
def reportError (e : ErrBit) (r : Resp) (s : State) : State := ((s.setErr e).count .illegalCmd 1).respond r

/-- `ignored_resp(opc)` (30_encoding.md R152). -/
def ignoredResp (opc : U8) : Resp :=
  if opc = 0x20 then .csr 0 else if opc = 0x10 then .msg none else .none

/-- A word that is no command: ILLEGAL (R160) or RESERVED (R161). -/
def rejectWord (r : Reject) (s : State) : State :=
  match r with
  | .illegal _ => reportError .illegalOpc .none s
  | .reserved opc => reportError .rsvdNonzero (ignoredResp opc) s

/-- `emit(m)` (43_dispatch.md R380): the message enters the output queue, or is dropped when the queue is full. -/
def emit (m : Message) (s : State) : State :=
  if s.outq.length < s.par.outqDepth then
    (s.setOutq (s.outq ++ [m])).count .msgEnqueued 1
  else
    (s.count .msgDropped 1).setErr .outqOverflow

end Sys2Proof.Machine
end

