-- ==== Sys2Proof/Machine/Control.lean ====
section
/-! DEFINITION. The meanings of the control commands NOP, RESET, POP, RDCSR and WRCSR (44_control.md). -/

namespace Sys2Proof.Machine

/-- NOP (R400). -/
def execNop (s : State) : Host.Outcome State Fault Refusal := .next (s.respond .none)

/-- What RESET clears (R410): lock, window and reassembly table; everything else is kept. -/
def resetPipeline (s : State) : State := ((s.setLock .searching).setWindow []).setSeqs []

/-- RESET (R410); an inert core ignores it silently (60_exceptions.md R455). -/
def execReset (s : State) : Host.Outcome State Fault Refusal :=
  .next ((if s.cfgOk then resetPipeline s else s).respond .none)

/-- POP on the output queue (R420). -/
def popMessage (s : State) : State :=
  match s.outq with
  | [] => s.respond (.msg none)
  | m :: rest => (s.setOutq rest).respond (.msg (some m))

/-- POP (R420); an inert core ignores it silently and answers `MSG(none)` (60_exceptions.md R455). -/
def execPop (s : State) : Host.Outcome State Fault Refusal :=
  .next (if s.cfgOk then popMessage s else s.respond (.msg none))

/-- RDCSR (R430). -/
def execRdcsr (csrn : CsrNum) (s : State) : Host.Outcome State Fault Refusal :=
  .next (match csrOfNum csrn with
    | some r => s.respond (.csr (csrValue s r))
    | none => reportError .badCsr (.csr 0) s)

/-- The strobe CLR_CNT (10_state.md R63): every counter of R66 becomes 0. -/
def clearCounters (s : State) : State := { s with ctr := Counters.zero }

/-- The strobe CLR_ERR (R63): the error bits but CFG_INVALID are cleared. -/
def clearErrors (s : State) : State := { s with err := s.err &&& 0x00000001 }

/-- A write of CTRL (R63, R440): CLR_CNT, then CLR_ERR; the other bits are ignored. -/
def writeCtrl (v : U32) (s : State) : State :=
  let s := if v.getLsbD 0 then clearCounters s else s
  if v.getLsbD 1 then clearErrors s else s

/-- WRCSR (R440). -/
def execWrcsr (csrn : CsrNum) (v : U32) (s : State) : Host.Outcome State Fault Refusal :=
  .next (match csrOfNum csrn with
    | some .ctrl => (writeCtrl v s).respond .none
    | _ => reportError .badCsr .none s)

end Sys2Proof.Machine
end

