-- ==== Sys2Proof/Machine/ErrorCorrection.lean ====
section
/-! DEFINITION. The error-correction layer (42_error_correction.md): the CRC validator, the linear block corrector, the
Reed-Solomon corrector, the trellis decoder, and the running of a type's checks over a frame. -/

namespace Sys2Proof.Machine

/-- What a check answers (R300, R301): its verdict, the bits it corrected, the trellis violations it counted, and the
frame's bits after it. -/
structure CheckOutcome where
  verdict : Verdict
  n : Nat
  viol : Nat
  bits : List Bool
  deriving DecidableEq, Repr

def outcomePassed (viol : Nat) (bits : List Bool) : CheckOutcome := ⟨.passed, 0, viol, bits⟩
def outcomeFailed (viol : Nat) (bits : List Bool) : CheckOutcome := ⟨.failed, 0, viol, bits⟩
def outcomeCorrected (n viol : Nat) (bits : List Bool) : CheckOutcome := ⟨.corrected, n, viol, bits⟩

/-- One bit of the serial CRC (R310): `reg` shifted left within `w` bits, with the polynomial added when the bit that
leaves differs from the data bit. -/
def crcStep (w poly reg : Nat) (b : Bool) : Nat :=
  let shifted := reg * 2 % 2 ^ w
  if (reg.testBit (w - 1) ^^ b) = true then shifted ^^^ poly else shifted

/-- The checksum calculated over data bits in order (R310). -/
def crcCalc (w poly init xorout : Nat) (data : List Bool) : Nat :=
  data.foldl (crcStep w poly) init ^^^ xorout

/-- `crc_check` (R310). -/
def crcCheck (w poly init xorout : Nat) (data recv : List Nat) (bits : List Bool) : CheckOutcome :=
  if crcCalc w poly init xorout (bitsAt bits data) = msbValue (bitsAt bits recv) then outcomePassed 0 bits
  else outcomeFailed 0 bits

/-- `E` of R314, each error pattern as the list of the positions where it is 1. -/
def blockErrors (code : LinearCode) (s : Nat) : List (List Nat) :=
  (chooseUpTo code.t (List.range code.n)).filter fun e => code.syndromeAt e == s

/-- `block_decode` (R314). -/
def blockDecode (code : LinearCode) (pos : List Nat) (bits : List Bool) : CheckOutcome :=
  let s := code.syndrome (bitsAt bits pos)
  if s = 0 then outcomePassed 0 bits
  else
    match blockErrors code s with
    | [e] => outcomeCorrected e.length 0 (flipBits bits (e.map fun i => pos.getD i 0))
    | _ => outcomeFailed 0 bits

/-- The received symbols (R321): `n` groups of `m` bits, most significant bit first. -/
def rsSymbols (m n : Nat) (pos : List Nat) (bits : List Bool) : List Nat :=
  (groups m n pos).map fun g => msbValue (bitsAt bits g)

/-- Every way to give each of the positions a nonzero symbol below `size`: error patterns as (position, value) pairs. -/
def symbolErrors (size : Nat) : List Nat → List (List (Nat × Nat))
  | [] => [[]]
  | j :: js => (List.range' 1 (size - 1)).flatMap fun v => (symbolErrors size js).map ((j, v) :: ·)

/-- `y ⊕ e` of R323. -/
def addErrors (y : List Nat) (e : List (Nat × Nat)) : List Nat :=
  e.foldl (fun acc jv => acc.set jv.1 (acc.getD jv.1 0 ^^^ jv.2)) y

/-- `t` of R322: the correction distance in symbols. -/
def rsDistance (n k : Nat) : Nat := (n - k) / 2

/-- `E` of R323, each error pattern as the list of its nonzero symbols with their positions. -/
def rsErrors (m prim n k fcr : Nat) (y : List Nat) : List (List (Nat × Nat)) :=
  ((chooseUpTo (rsDistance n k) (List.range n)).flatMap (symbolErrors (2 ^ m))).filter fun e =>
    rsCodeword m prim n k fcr (addErrors y e)

/-- `popcount` of an `m`-bit value (R23). -/
def popcount (m v : Nat) : Nat := (List.range m).countP fun i => v.testBit i

/-- `rs_decode` (R323). -/
def rsDecode (m prim n k fcr : Nat) (pos : List Nat) (bits : List Bool) : CheckOutcome :=
  let y := rsSymbols m n pos bits
  if rsCodeword m prim n k fcr y then outcomePassed 0 bits
  else
    match rsErrors m prim n k fcr y with
    | [e] =>
      outcomeCorrected ((e.map fun jv => popcount m jv.2).sum) 0
        (writeBits bits pos ((addErrors y e).flatMap (msbBits m)))
    | _ => outcomeFailed 0 bits

/-- `violations(d)` (R337): the illegal transitions of the received dibits, the first one from the start dibit. -/
def violations (legal : Dibit → Dibit → Bool) : Option Dibit → List Dibit → Nat
  | _, [] => 0
  | prev, d :: ds =>
    (match prev with
      | some p => if legal p d then 0 else 1
      | none => 0) + violations legal (some d) ds

/-- The dibits that may follow `prev`; all four where nothing constrains the first dibit (R332, R333). -/
def successors (legal : Dibit → Dibit → Bool) : Option Dibit → List Dibit
  | none => allDibits
  | some p => allDibits.filter (legal p)

/-- The least element of a list, none for the empty list. -/
def minOf : List Nat → Option Nat
  | [] => none
  | a :: l => some (l.foldl min a)

/-- The minimum costs (R335) of the legal continuations of a received sequence, one per preceding dibit 0 to 3, none
where no legal continuation exists. This is the Viterbi recursion over the four dibit states. -/
def costTable (legal : Dibit → Dibit → Bool) : List Dibit → List (Option Nat)
  | [] => [some 0, some 0, some 0, some 0]
  | d :: ds =>
    let rest := costTable legal ds
    allDibits.map fun p =>
      minOf ((successors legal (some p)).filterMap fun e =>
        (rest.getD e.toNat none).map (dibitWeight (d ^^^ e) + ·))

/-- The cost of taking `e` for the received dibit `d` and continuing best through `ds`. -/
def costVia (legal : Dibit → Dibit → Bool) (d : Dibit) (ds : List Dibit) (e : Dibit) : Option Nat :=
  ((costTable legal ds).getD e.toNat none).map (dibitWeight (d ^^^ e) + ·)

/-- `c*` (R335): the least cost of a legal sequence after `prev`. -/
def minCost (legal : Dibit → Dibit → Bool) (prev : Option Dibit) : List Dibit → Option Nat
  | [] => some 0
  | d :: ds => minOf ((successors legal prev).filterMap (costVia legal d ds))

/-- One of the minimum-cost dibits; where there are several, the one `tie` names modulo their number (R336). -/
def pickTie (tie : Nat) : List Dibit → Option Dibit
  | [] => none
  | [e] => some e
  | es => es[tie % es.length]?

/-- A legal sequence of minimum cost after `prev` (R336). At each position `i` the dibits that keep the cost minimal
are the choice; `tie i` settles it, so that every minimum-cost legal sequence is the result of some `tie`. -/
def bestPath (legal : Dibit → Dibit → Bool) (tie : Nat → Nat) : Option Dibit → Nat → List Dibit → List Dibit
  | _, _, [] => []
  | prev, i, d :: ds =>
    match pickTie (tie i) ((successors legal prev).filter fun e =>
        (costVia legal d ds e).isSome && costVia legal d ds e == minCost legal prev (d :: ds)) with
    | some e => e :: bestPath legal tie (some e) (i + 1) ds
    | none => []

/-- `trellis_decode` (R336). A valid configuration always has a legal sequence (R333); where there is none the check
fails (log 6). -/
def trellisDecode (cfg : Cfg) (pos : List Nat) (start : Option Dibit) (failAbove : Option Nat) (bits : List Bool) :
    CheckOutcome :=
  let d := dibitsOf (bitsAt bits pos)
  let v := violations cfg.legal start d
  match minCost cfg.legal start d with
  | none => outcomeFailed v bits
  | some c =>
    if failAbove.any (fun a => decide (c > a)) then outcomeFailed v bits
    else if c = 0 then outcomePassed v bits
    else
      outcomeCorrected c v
        (writeBits bits pos ((bestPath cfg.legal (Config.trellisTie cfg d start) start 0 d).flatMap dibitBits))

/-- `kind(c)` (R300). -/
def checkKind : Check → CheckKind
  | .crc .. => .crc
  | .block .. => .block
  | .rs .. => .rs
  | .trellis .. => .trellis

/-- `apply(c, f)` (R300). A check that names a position beyond the frame fails and changes nothing (R306). -/
def applyCheck (cfg : Cfg) (c : Check) (bits : List Bool) : CheckOutcome :=
  if c.positions.any (fun p => decide (bits.length ≤ p)) then outcomeFailed 0 bits
  else
    match c with
    | .crc w poly init xorout data recv => crcCheck w poly init xorout data recv bits
    | .block code pos => blockDecode code pos bits
    | .rs m prim n k fcr pos => rsDecode m prim n k fcr pos bits
    | .trellis pos start failAbove => trellisDecode cfg pos start failAbove bits

/-- A check's effect on the frame (R300). -/
def recordCheck (kind : CheckKind) (o : CheckOutcome) (f : Frame) : Frame :=
  { f with
    bits := o.bits
    results := f.results ++ [{ kind := kind, verdict := o.verdict, n := o.n, frame := 0 }]
    corrected := f.corrected + o.n
    viol := f.viol + o.viol }

/-- A check's counters (R305). -/
def countCheck (o : CheckOutcome) (s : State) : State :=
  let s := match o.verdict with
    | .failed => s.count .checkFailed 1
    | .corrected => s.count .bitsCorrected o.n
    | .passed => s
  s.count .trellisViolations o.viol

/-- `run_checks(f, list)` (R300): the frame after the checks, and the state with their counts. -/
def runChecks : List Check → Frame → State → Frame × State
  | [], f, s => (f, s)
  | c :: cs, f, s =>
    let o := applyCheck s.cfg c f.bits
    runChecks cs (recordCheck (checkKind c) o f) (countCheck o s)

/-- `validity(results)` (R303). -/
def validityOf (results : List CheckResult) : Validity :=
  if results.any (fun r => r.kind != .crc && r.verdict == .failed) then .invalid
  else if results.any (fun r => r.kind == .crc && r.verdict == .failed) then .crcFailed
  else .valid

/-- The order of severity (R303): VALID < CRC_FAILED < INVALID. -/
def Validity.severity : Validity → Nat
  | .valid => 0
  | .crcFailed => 1
  | .invalid => 2

/-- The more severe of two validities (R303). -/
def worse (a b : Validity) : Validity := if a.severity < b.severity then b else a

end Sys2Proof.Machine
end

