-- ==== Sys2Proof/Machine/Factory.lean ====
section
/-! DEFINITION. The message factory (43_dispatch.md): discriminators and variant lookup, the message record, the frame
roles, and the multi-block reassembly table with its timeout, eviction and abandonment. -/

namespace Sys2Proof.Machine

/-- The variant of a message no table entry names (R352). -/
def unknownVariant : U16 := 0xFFFF

/-- A discriminator field of a data-unit type, where the type has one (R351). -/
def discriminator (cfg : Cfg) (f : Frame) (pick : DuCfg → Option Field) : Option U32 :=
  ((cfg.du? f.du).bind pick).map (field32 f.bits)

/-- The opcode of a frame: its type's opcode field, or 0 (R351). -/
def opcodeOf (cfg : Cfg) (f : Frame) : U32 := (discriminator cfg f (·.opcode)).getD 0

/-- The vendor of a frame: its type's vendor field, or the standard vendor (R351). -/
def vendorOf (cfg : Cfg) (f : Frame) : U32 := (discriminator cfg f (·.vendor)).getD cfg.standardVendor

/-- Whether the frame's type has a vendor field (R350). -/
def vendorPresent (cfg : Cfg) (f : Frame) : Bool := (discriminator cfg f (·.vendor)).isSome

/-- The table entry of `lookup(du, ven, opc)` (R352). -/
def lookupVariant (cfg : Cfg) (du : U8) (ven opc : U32) : Option U16 :=
  if ven = cfg.standardVendor then Table.get? cfg.primary (du, opc)
  else Table.get? cfg.secondary (du, ven, opc)

/-- The table entry a header frame selects (R351, R352). -/
def variantOf? (cfg : Cfg) (h : Frame) : Option U16 := lookupVariant cfg h.du (vendorOf cfg h) (opcodeOf cfg h)

/-- The results of several frames, each with its frame's index (R350). -/
def indexedResults (frames : List Frame) : List CheckResult :=
  frames.zipIdx.flatMap fun fi => fi.1.results.map fun r => { r with frame := fi.2 }

/-- The message `dispatch` builds from a header frame and its blocks (R350). -/
def buildMessage (cfg : Cfg) (h : Frame) (blocks : List Frame) : Message :=
  let frames := h :: blocks
  { variant := (variantOf? cfg h).getD unknownVariant
    protocol := cfg.protocolTag
    du := h.du
    pattern := h.pat
    validity := (frames.map fun f => validityOf f.results).foldl worse .valid
    opcode := opcodeOf cfg h
    vendor := vendorOf cfg h
    vendorPresent := vendorPresent cfg h
    ts := h.ts
    corrected := (frames.map (·.corrected)).sum
    viol := (frames.map (·.viol)).sum
    blockCount := BitVec.ofNat 16 frames.length
    bits := frames.flatMap (·.bits)
    results := indexedResults frames }

/-- UNKNOWN_MSG counts a message no table entry names (R352). -/
def countUnknown (h : Frame) (s : State) : State :=
  match variantOf? s.cfg h with
  | some _ => s
  | none => s.count .unknownMsg 1

/-- `emit(dispatch(frames))` (R350, R380). -/
def emitFrames (h : Frame) (blocks : List Frame) (s : State) : State :=
  emit (buildMessage s.cfg h blocks) (countUnknown h s)

/-- `seq_key(f, class, kf)` (R372). -/
def seqKey (f : Frame) (cls : U8) (kf : List Field) : U8 × List U32 := (cls, kf.map (field32 f.bits))

/-- An entry has this key. -/
def hasKey (k : U8 × List U32) (e : SeqEntry) : Bool := e.key == k

/-- The entry of a key (R374: at most one). -/
def findSeq (seqs : List SeqEntry) (k : U8 × List U32) : Option SeqEntry := seqs.find? (hasKey k)

/-- The table without the entry of a key (R373, R378). -/
def removeSeq (seqs : List SeqEntry) (k : U8 × List U32) : List SeqEntry := seqs.eraseP (hasKey k)

/-- The table with the entry of a key replaced. -/
def replaceSeq (seqs : List SeqEntry) (k : U8 × List U32) (e' : SeqEntry) : List SeqEntry :=
  match seqs with
  | [] => []
  | e :: es => if hasKey k e then e' :: es else e :: replaceSeq es k e'

/-- The entry with the least `last`, the first of them in insertion order (R373, R375; log 7). `last` is compared as an
unsigned number, as R373 writes it. Once `unit_count` has wrapped past 2^64 that entry need not be the one longest
without activity, which R375 calls it (DESIGN CHOICE, log 15). -/
def oldestSeq : List SeqEntry → Option SeqEntry
  | [] => none
  | e :: es => some (es.foldl (fun best x => if x.last < best.last then x else best) e)

/-- The table without the entry `oldestSeq` names (R373). -/
def evictOldest (seqs : List SeqEntry) : List SeqEntry :=
  match oldestSeq seqs with
  | some e => seqs.erase e
  | none => seqs

/-- R374: the entry of the key a new header opens is abandoned. -/
def abandonSeq (k : U8 × List U32) (s : State) : State :=
  if (findSeq s.seqs k).isSome then (s.setSeqs (removeSeq s.seqs k)).count .seqAbandoned 1 else s

/-- R373, R375: a full table loses the entry with the least `last` (log 15). -/
def makeRoom (s : State) : State :=
  if s.seqs.length = s.par.maxPending then (s.setSeqs (evictOldest s.seqs)).count .seqEvicted 1 else s

/-- `open_sequence(f, k, N, now)` (R373). -/
def openSequence (f : Frame) (k : U8 × List U32) (count : Nat) (now : U64) (s : State) : State :=
  let t := makeRoom (abandonSeq k s)
  (t.setSeqs (t.seqs ++ [{ key := k, header := f, blocks := [], expected := count, last := now }])).count .seqStarted 1

/-- `header_frame(f, class, kf, cf, now)` (R371, R379). -/
def headerFrame (f : Frame) (cls : U8) (kf : List Field) (cf : Field) (now : U64) (s : State) : State :=
  let count := field f.bits cf
  if validityOf f.results ≠ .valid ∨ count > s.par.maxBlocks then emitFrames f [] (s.count .seqRejected 1)
  else if count = 0 then emitFrames f [] s
  else openSequence f (seqKey f cls kf) count now s

/-- The index field of a block frame does not name the next block of the entry (R377). -/
def outOfOrder (f : Frame) (xf : Option Field) (e : SeqEntry) : Bool :=
  match xf with
  | some x => field f.bits x != e.blocks.length
  | none => false

/-- `complete_sequence(e)` (R378). -/
def completeSequence (e : SeqEntry) (s : State) : State :=
  emitFrames e.header e.blocks ((s.setSeqs (removeSeq s.seqs e.key)).count .seqCompleted 1)

/-- `block_frame(f, class, kf, xf, now)` (R377). -/
def blockFrame (f : Frame) (cls : U8) (kf : List Field) (xf : Option Field) (now : U64) (s : State) : State :=
  let k := seqKey f cls kf
  match findSeq s.seqs k with
  | none => s.count .blockOrphan 1
  | some e =>
    if outOfOrder f xf e then s.count .blockOutOfOrder 1
    else
      let e' : SeqEntry := { e with blocks := e.blocks ++ [f], last := now }
      let s' := s.setSeqs (replaceSeq s.seqs k e')
      if e'.blocks.length = e'.expected then completeSequence e' s' else s'

/-- `handle_frame(f, now)` (R370). A valid configuration has an entry for every frame's type (00_scope.md R22); a frame
without one gives no message (log 6). -/
def handleFrame (f : Frame) (now : U64) (s : State) : State :=
  match s.cfg.du? f.du with
  | none => s
  | some d =>
    match d.role with
    | .single => emitFrames f [] s
    | .header cls kf cf => headerFrame f cls kf cf now s
    | .block cls kf xf => blockFrame f cls kf xf now s

/-- The age of an entry in units (R376, 44_control.md R447). -/
def age (now : U64) (e : SeqEntry) : Nat := (now - e.last).toNat

/-- An entry whose inactivity is past the timeout T (R376). -/
def expired (timeout : Nat) (now : U64) (e : SeqEntry) : Bool := decide (age now e > timeout)

/-- `sweep_timeouts(now)` (R376). -/
def sweepTimeouts (now : U64) (s : State) : State :=
  (s.setSeqs (s.seqs.filter fun e => !expired s.par.seqTimeout now e)).count .seqTimeout
    (s.seqs.countP (expired s.par.seqTimeout now))

end Sys2Proof.Machine
end

