-- ==== Sys2Proof/Machine/SyncDetector.lean ====
section
/-! DEFINITION. The sync detector (40_sync_detector.md R209 to R216): the window, the correlation scores and the
detection result. -/

namespace Sys2Proof.Machine

/-- `window_push(u)` on the window (R209): the newest unit enters, the oldest leaves when the window is over-full. -/
def pushWindow (len : Nat) (window : List InputUnit) (u : InputUnit) : List InputUnit :=
  let w := window ++ [u]
  if len < w.length then w.tail else w

/-- `window_push(u)` (R209). -/
def windowPush (u : InputUnit) (s : State) : State := s.setWindow (pushWindow s.cfg.windowLen s.window u)

/-- A pattern is evaluable when the window holds its length (R210). -/
def evaluable (kind : UnitKind) (window : List InputUnit) (p : Pattern) : Bool :=
  decide (patternLength kind p ≤ window.length)

/-- The newest `len` units (R210). -/
def span (window : List InputUnit) (len : Nat) : List InputUnit := window.drop (window.length - len)

/-- `score(p)` of a hard protocol: the number of agreeing bits (R211). -/
def hardScore (units : List InputUnit) (p : Pattern) : Nat :=
  ((units.flatMap unitBits).zip p.bits).countP fun ub => ub.1 == ub.2

/-- The binary32 value of a soft unit. Only soft units stand in the window of a SOFT protocol (log 6). -/
def unitValue : InputUnit → F32
  | .soft v _ => F32.ofBits v
  | _ => .fin 0

/-- `score(p)` of a soft protocol (R212): oldest unit first, each product and each partial sum rounded. -/
def softScore (units : List InputUnit) (p : Pattern) : F32 :=
  (units.zip p.ideal).foldl (fun acc ui => fadd32 acc (fmul32 (unitValue ui.1) (F32.ofBits ui.2))) (.fin 0)

/-- A score or threshold: a natural number for hard protocols, a binary32 for soft ones (R213). -/
inductive Score where
  | hard (n : Nat)
  | soft (x : F32)
  deriving DecidableEq, Repr

/-- `>` of R213: integer comparison of hard scores, IEEE comparison of soft ones. -/
def Score.gt : Score → Score → Bool
  | .hard a, .hard b => decide (a > b)
  | .soft a, .soft b => a.gt b
  | _, _ => false

/-- `==` of R213. -/
def Score.eq : Score → Score → Bool
  | .hard a, .hard b => decide (a = b)
  | .soft a, .soft b => a.eq b
  | _, _ => false

/-- `score(p)` over the pattern's span (R210, R211, R212). -/
def score (kind : UnitKind) (window : List InputUnit) (p : Pattern) : Score :=
  let units := span window (patternLength kind p)
  match kind with
  | .soft => .soft (softScore units p)
  | _ => .hard (hardScore units p)

/-- `thr` of R213. -/
def threshold (cfg : Cfg) : Score :=
  match cfg.unitKind with
  | .soft => .soft (F32.ofBits cfg.softThreshold)
  | _ => .hard cfg.hardThreshold

/-- The detection result of a unit (R213). -/
inductive Detection where
  | none | ambiguous | found (p : Pattern)
  deriving DecidableEq, Repr

/-- `C` of R213: the evaluable patterns whose score exceeds the threshold, with their scores. -/
def candidates (cfg : Cfg) (window : List InputUnit) : List (Pattern × Score) :=
  ((cfg.patterns.filter (evaluable cfg.unitKind window)).map fun p => (p, score cfg.unitKind window p)).filter
    fun ps => ps.2.gt (threshold cfg)

/-- `s*` of R213: the greatest score of a nonempty candidate list. -/
def maxScore (s : Score) (rest : List (Pattern × Score)) : Score :=
  rest.foldl (fun best ps => if ps.2.gt best then ps.2 else best) s

/-- `detect()` (R213), as a function of the window. -/
def detection (cfg : Cfg) (window : List InputUnit) : Detection :=
  match candidates cfg window with
  | [] => .none
  | c :: rest =>
    match (c :: rest).filter fun ps => ps.2.eq (maxScore c.2 rest) with
    | [ps] => .found ps.1
    | _ => .ambiguous

/-- The counter effect of a detection (R213, R214). -/
def countDetection (r : Detection) (s : State) : State :=
  match r with
  | .none => s
  | .ambiguous => s.count .syncAmbiguous 1
  | .found _ => s.count .syncDetect 1

end Sys2Proof.Machine
end

