-- ==== Sys2Proof/Machine/Framer.lean ====
section
/-! DEFINITION. The message framer (41_framer.md): the lock state machine, the frame's length, and its completion; and
`accept_unit`, the stages every accepted PUSH runs (40_sync_detector.md R201). -/

namespace Sys2Proof.Machine

/-- The length a frame has from the start: a Fixed type's, none for a Variable type (R254). -/
def fixedLength (cfg : Cfg) (du : U8) : Option Nat :=
  match (cfg.du? du).map DuCfg.length with
  | some (.fixed n) => some n
  | _ => none

/-- `new_frame(p, now)` (R254). -/
def newFrame (cfg : Cfg) (p : Pattern) (now : U64) : Frame where
  pat := p.id
  du := p.du
  ts := now
  bits := []
  target := fixedLength cfg p.du
  corrected := 0
  viol := 0
  results := []

/-- The frame stays in assembly. -/
def holdFrame (f : Frame) (s : State) : State := s.setLock (.synchronized f)

/-- The frame is discarded and the loss counted (R257, R258, R259). -/
def discardFrame (why : CounterName) (s : State) : State := (s.setLock .searching).count why 1

/-- The length, and the data-unit type, a header's length field gives; none where the frame is discarded (R258, R259).
`v` is the field's value. -/
def headerLength (cfg : Cfg) (par : Params) (du : U8) (hdrBits : Nat) (map : LenMap) (v : Nat) : Option (U8 × Nat) :=
  match map with
  | .affine base mult =>
    let n := base + v * mult
    if n < hdrBits ∨ n > par.maxFrameBits then none else some (du, n)
  | .select table =>
    match Table.get? table (BitVec.ofNat 32 v) with
    | some du' => (fixedLength cfg du').map fun n => (du', n)
    | none => none

/-- Some of the results has verdict FAILED (R256). -/
def anyFailed (results : List CheckResult) : Bool := results.any fun r => r.verdict == .failed

/-- The checks of a data-unit type (R260). -/
def checksOf (cfg : Cfg) (du : U8) : List Check := ((cfg.du? du).map DuCfg.checks).getD []

/-- `complete_frame(f, now)` (R260). -/
def completeFrame (f : Frame) (now : U64) (s : State) : State :=
  let fs := runChecks (checksOf s.cfg f.du) f ((s.setLock .searching).count .frameComplete 1)
  handleFrame fs.1 now fs.2

/-- The completion test of `frame_progress` (R255): a frame of its full length completes, any other stays. -/
def completeIfFull (f : Frame) (now : U64) (s : State) : State :=
  if f.target = some f.bits.length then completeFrame f now s else holdFrame f s

/-- `read_header(f, d)` (R256) and the rest of `frame_progress` after it (R255). -/
def readHeader (f : Frame) (hdrBits : Nat) (lenField : Field) (hdrChecks : List Check) (map : LenMap) (now : U64)
    (s : State) : State :=
  let fs := runChecks hdrChecks f s
  if anyFailed (fs.1.results.drop f.results.length) then discardFrame .frameHdrDiscard fs.2
  else
    match headerLength s.cfg s.par f.du hdrBits map (field fs.1.bits lenField) with
    | none => discardFrame .frameLenDiscard fs.2
    | some dn => completeIfFull { fs.1 with du := dn.1, target := some dn.2 } now fs.2

/-- `frame_progress(f, now)` (R255), for a frame the unit's bits have been appended to. -/
def frameProgress (f : Frame) (now : U64) (s : State) : State :=
  if f.target.isSome then completeIfFull f now s
  else
    match (s.cfg.du? f.du).map DuCfg.length with
    | some (.variableLen hdrBits lenField hdrChecks map) =>
      if f.bits.length < hdrBits then holdFrame f s else readHeader f hdrBits lenField hdrChecks map now s
    | _ => holdFrame f s

/-- `framer_step(r, bits, now)` (R251, R252, R253). -/
def framerStep (r : Detection) (bits : List Bool) (now : U64) (s : State) : State :=
  match s.lock, r with
  | .searching, .found p => holdFrame (newFrame s.cfg p now) s
  | .searching, _ => s
  | .synchronized _, .found p => holdFrame (newFrame s.cfg p now) (s.count .frameResyncDiscard 1)
  | .synchronized f, _ => frameProgress { f with bits := f.bits ++ bits } now s

/-- The first stages of `accept_unit` (40_sync_detector.md R201): the unit count, the timeout sweep, the window. -/
def admitUnit (u : InputUnit) (s : State) : State :=
  windowPush u (sweepTimeouts s.unitCount (s.setUnitCount (s.unitCount + 1)))

/-- `accept_unit(u)` (R201): then the detection and the framer, with the unit's index `now`. -/
def acceptUnit (u : InputUnit) (s : State) : State :=
  let s₁ := admitUnit u s
  let r := detection s₁.cfg s₁.window
  framerStep r (unitBits u) s.unitCount (countDetection r s₁)

end Sys2Proof.Machine
end

