-- ==== Sys2Proof/Machine/Input.lean ====
section
/-! DEFINITION. The meanings of the input commands PUSH_BIT, PUSH_DIBIT and PUSH_SOFT (40_sync_detector.md R200 to
R205). -/

namespace Sys2Proof.Machine

/-- `kind_mismatch()` (R205). -/
def kindMismatch (s : State) : State := reportError .kindMismatch .none s

/-- The checks of every PUSH after decoding (30_encoding.md R152, 40_sync_detector.md R200): an inert core ignores it
silently (60_exceptions.md R455), a unit of the wrong kind is a KIND_MISMATCH, any other runs `accepted`. -/
def pushCommand (kind : UnitKind) (accepted : State → State) (s : State) : State :=
  if !s.cfgOk then s.respond .none
  else if s.cfg.unitKind ≠ kind then kindMismatch s
  else (accepted s).respond .none

/-- NAN_INPUT counts an accepted soft symbol that is a NaN (R204). -/
def countNaN (v : Binary32) (s : State) : State := if isNaN v then s.count .nanInput 1 else s

/-- PUSH_BIT (R202). -/
def execPushBit (b : Bool) (s : State) : Host.Outcome State Fault Refusal :=
  .next (pushCommand .bit (acceptUnit (.bit b)) s)

/-- PUSH_DIBIT (R203). -/
def execPushDibit (d : Dibit) (s : State) : Host.Outcome State Fault Refusal :=
  .next (pushCommand .dibit (acceptUnit (.dib d)) s)

/-- PUSH_SOFT (R204). -/
def execPushSoft (v : Binary32) (s : State) : Host.Outcome State Fault Refusal :=
  .next (pushCommand .soft (fun t => acceptUnit (.soft v (quantize t.cfg.quantizer v)) (countNaN v t)) s)

end Sys2Proof.Machine
end

