-- ==== Sys2Proof/Machine/Dispatch.lean ====
section
/-! DEFINITION. One arm per command of spec/opcode_table.json, each its meaning (30_encoding.md R154). -/

namespace Sys2Proof.Machine

def exec (i : Instr) (s : State) : Host.Outcome State Fault Refusal :=
  match i with
  | .nop => Sys2Proof.Machine.execNop s
  | .pushBit b => Sys2Proof.Machine.execPushBit b s
  | .pushDibit d => Sys2Proof.Machine.execPushDibit d s
  | .pushSoft v => Sys2Proof.Machine.execPushSoft v s
  | .reset => Sys2Proof.Machine.execReset s
  | .pop => Sys2Proof.Machine.execPop s
  | .rdcsr csrn => Sys2Proof.Machine.execRdcsr csrn s
  | .wrcsr csrn v => Sys2Proof.Machine.execWrcsr csrn v s

end Sys2Proof.Machine
end

