-- ==== Sys2Proof/Machine/Fetch.lean ====
section
/-! DEFINITION. Taking the next command of the host's stream and running it (10_state.md R51, 30_encoding.md R152,
R153). The stream is the model's own field `cmds` (log 2). -/

namespace Sys2Proof.Machine

/-- The next command word, and the state without it; none where the host has issued no further command. -/
def fetch (s : State) : Option (Word × State) :=
  match s.cmds with
  | [] => none
  | w :: rest => some (w, s.setCmds rest)

/-- `step(S, c)` of R152: a word that is no command is ignored with its error recorded, a command runs its meaning. -/
def runWord (w : Word) (s : State) : Host.Outcome State Fault Refusal :=
  match decode w with
  | .ok i => exec i s
  | .error r => .next (rejectWord r s)

/-- The host issues a command: it takes its place behind the commands already issued (20_memory.md R113). -/
def issue (w : Word) (s : State) : State := s.setCmds (s.cmds ++ [w])

/-- The word stands where the next command is taken from, in place of the one that stood there. -/
def placeWord (w : Word) (s : State) : State := s.setCmds (w :: s.cmds.tail)

end Sys2Proof.Machine
end

