-- ==== Sys2Proof/Machine/Step.lean ====
section
/-! DEFINITION. One step: the next command of the host's stream runs (30_encoding.md R152). With no command pending the
core does nothing (60_exceptions.md R465; log 2). -/

namespace Sys2Proof.Machine

def step (s : State) : Host.Outcome State Fault Refusal :=
  match fetch s with
  | some (w, s') => runWord w s'
  | none => .next s

/-- `s` with the command word of the low `nbits` bits of `w` as the next command. -/
def State.withFetchWord (s : State) (nbits w : Nat) : State := placeWord (tableWord nbits w) s

end Sys2Proof.Machine
end

