-- ==== Sys2Proof/Safety.lean ====
section
/-! DEFINITION. The terms the claims are stated in: what counts as a safe state of the core, the unit a PUSH carries in,
and the distances and paths of the error-correction layer. -/

namespace Sys2Proof.Machine

/-! ### Invariants of the state -/

/-- 10_state.md R58: `cfg_ok` is the result of start-up validation. -/
def ConfigInv (s : State) : Prop := s.cfgOk = cfgValid s.cfg s.par

/-- R62: ERR bits 31:6 are 0, and bit 0 is CFG_INVALID. -/
def ErrInv (s : State) : Prop := (∀ k, 6 ≤ k → s.err.getLsbD k = false) ∧ s.err.getLsbD 0 = !s.cfgOk

/-- R55, R56, R57: the window, the reassembly table and the output queue are within W, M and Q. -/
def BoundsInv (s : State) : Prop :=
  s.window.length ≤ s.cfg.windowLen ∧ s.seqs.length ≤ s.par.maxPending ∧ s.outq.length ≤ s.par.outqDepth

/-- 00_scope.md R11: every unit of the window is of the configured kind. -/
def WindowKindInv (s : State) : Prop := ∀ u ∈ s.window, u.kind = s.cfg.unitKind

/-- 41_framer.md R263: a frame in assembly is shorter than its target, or than its header while it has no target, and
holds whole units. -/
def FrameOk (cfg : Cfg) (par : Params) (f : Frame) : Prop :=
  f.bits.length % cfg.bpu = 0 ∧
    match f.target with
    | some n => f.bits.length < n ∧ n ≤ par.maxFrameBits ∧ n % cfg.bpu = 0
    | none => ∃ d hdrBits lenField hdrChecks map, cfg.du? f.du = some d ∧
        d.length = .variableLen hdrBits lenField hdrChecks map ∧ f.bits.length < hdrBits

/-- R263 on the state. -/
def FrameInv (s : State) : Prop := ∀ f, s.lock = .synchronized f → FrameOk s.cfg s.par f

/-- 10_state.md R56, 43_dispatch.md R374: one entry per key, each waiting for at least one of at most B blocks. -/
def TableInv (s : State) : Prop :=
  (s.seqs.map (·.key)).Nodup ∧
    ∀ e ∈ s.seqs, 1 ≤ e.expected ∧ e.expected ≤ s.par.maxBlocks ∧ e.blocks.length < e.expected

/-- 43_dispatch.md R375, R376: no two entries have the same `last`, and every entry was extended at most T units before
the unit accepted last. -/
def TimesInv (s : State) : Prop :=
  (s.seqs.map (·.last)).Nodup ∧
    ∀ e ∈ s.seqs, 1 ≤ (s.unitCount - e.last).toNat ∧ (s.unitCount - e.last).toNat ≤ s.par.seqTimeout + 1

/-- 60_exceptions.md R455: an inert core keeps its power-on values but for ERR bits 1 to 5 and ILLEGAL_CMD. -/
def InertInv (s : State) : Prop :=
  s.cfgOk = false →
    s.lock = .searching ∧ s.window = [] ∧ s.seqs = [] ∧ s.outq = [] ∧ s.unitCount = 0 ∧
      s.err.getLsbD 0 = true ∧ (∀ k, 6 ≤ k → s.err.getLsbD k = false) ∧
      ∀ name, name ≠ .illegalCmd → s.ctr.get name = 0

/-! ### The unit of a PUSH -/

/-- The unit a PUSH of the configured kind carries in (40_sync_detector.md R202, R203, R204); none for every other
command and for a PUSH of another kind. -/
def pushedUnit (s : State) : Instr → Option InputUnit
  | .pushBit b => if s.cfg.unitKind = .bit then some (.bit b) else none
  | .pushDibit d => if s.cfg.unitKind = .dibit then some (.dib d) else none
  | .pushSoft v => if s.cfg.unitKind = .soft then some (.soft v (quantize s.cfg.quantizer v)) else none
  | _ => none

/-- The counters once NAN_INPUT has counted a NaN (R204): exponent all ones, fraction nonzero. -/
def nanCounted (s : State) : Instr → Counters
  | .pushSoft v =>
    if v.extractLsb' 23 8 = 0xFF ∧ v.extractLsb' 0 23 ≠ 0 then s.ctr.add .nanInput 1 else s.ctr
  | _ => s.ctr

/-- The entries that outlive the arrival of a unit (43_dispatch.md R376). -/
def surviving (s : State) : List SeqEntry :=
  s.seqs.filter fun e => decide ((s.unitCount - e.last).toNat ≤ s.par.seqTimeout)

/-- The window after a unit has entered (40_sync_detector.md R209). -/
def windowWith (s : State) (u : InputUnit) : List InputUnit := pushWindow s.cfg.windowLen s.window u

/-- The state after the unit count, the timeout sweep and the window push of an accepted unit (R201). -/
def admitted (i : Instr) (u : InputUnit) (s : State) : State :=
  { s with
    unitCount := s.unitCount + 1
    seqs := surviving s
    window := windowWith s u
    ctr := (nanCounted s i).add .seqTimeout (s.seqs.length - (surviving s).length) }

/-! ### Distances and paths -/

/-- The number of places where two bit lists differ. -/
def hamming (a b : List Bool) : Nat := (a.zip b).countP fun ab => ab.1 != ab.2

/-- The number of symbols where two words differ. -/
def symbolDistance (y z : List Nat) : Nat := (y.zip z).countP fun yz => yz.1 != yz.2

/-- 42_error_correction.md R333: a dibit sequence is legal after `prev`. -/
def LegalPath (legal : Dibit → Dibit → Bool) : Option Dibit → List Dibit → Prop
  | _, [] => True
  | prev, e :: es => (∀ p, prev = some p → legal p e = true) ∧ LegalPath legal (some e) es

/-- R335: the number of bits in which a sequence differs from the received dibits. -/
def pathCost (d e : List Dibit) : Nat := ((d.zip e).map fun de => dibitWeight (de.1 ^^^ de.2)).sum

/-- Completed frames handed to the factory one after another, each with the unit index of its completion. -/
def feedFrames (s : State) (l : List (Frame × U64)) : State := l.foldl (fun t fn => handleFrame fn.1 fn.2 t) s

end Sys2Proof.Machine
end

