-- ==== Sys2Proof/Certificates/Slice0/Obligations.lean ====
section
/-! DEFINITION. The statements for the provers. Each docstring names the rule of spec/ it formalises; a statement that
rests on a rule the spec marks as derived, or on a field of the model's own, says so. -/

open Sys2Proof Sys2Proof.Machine

/-! ### Encoding -/

/-- Every instruction decodes from its encoding, with every operand at every value (30_encoding.md section 5; R167 is
the spec's own inference). -/
def Obligations.DecodeOfEncode : Prop := ∀ i : Instr, decode (encode i) = .ok i

/-- The words that decode are exactly those a row of spec/opcode_table.json covers, and each is the encoding of what it
decodes to. -/
def Obligations.DecodableWordsAreTheTablesWords : Prop :=
  ∀ w : Word, (WellFormed w = true ↔ ∃ i, decode w = .ok i) ∧ ∀ i, decode w = .ok i → encode i = w

/-- The command words of R165, and a few of them decoded: words written out from the spec's table. -/
def Obligations.CommandWordsDecode : Prop :=
  decode 0x0000000000000000 = .ok .nop ∧ decode 0x0100000000000001 = .ok (.pushBit true) ∧
    decode 0x0200000000000002 = .ok (.pushDibit 2) ∧ decode 0x0300000040200000 = .ok (.pushSoft 0x40200000) ∧
    decode 0x0800000000000000 = .ok .reset ∧ decode 0x1000000000000000 = .ok .pop ∧
    decode 0x200007FF00000000 = .ok (.rdcsr 0x7FF) ∧ decode 0x2100000000000003 = .ok (.wrcsr 0x000 3) ∧
    decode 0xFF00000000000123 = .error (.illegal 0xFF) ∧ decode 0x0000100000000000 = .error (.reserved 0x00)

/-! ### The step -/

/-- R160: an unassigned opcode sets ILLEGAL_OPC (bit 1), counts ILLEGAL_CMD and answers NONE; nothing else changes. -/
def Obligations.UnassignedOpcodeIsIgnored : Prop :=
  ∀ (w : Word) (s : State),
    w.extractLsb' 56 8 ∉ ([0x00, 0x01, 0x02, 0x03, 0x08, 0x10, 0x20, 0x21] : List U8) →
    runWord w s = .next { s with err := s.err ||| 0x2, ctr := s.ctr.add .illegalCmd 1, resp := .none }

/-- R161, with the used bits of R155: an assigned opcode with a nonzero RSVD field, a nonzero CSR field outside RDCSR
and WRCSR, or a nonzero unused DATA bit is ignored: RSVD_NONZERO (bit 2), ILLEGAL_CMD, and the response CSR(0) for
RDCSR, MSG(none) for POP, NONE otherwise. -/
def Obligations.ReservedBitsAreIgnored : Prop :=
  ∀ (w : Word) (s : State) (opc : U8) (r : Resp), w.extractLsb' 56 8 = opc →
    ((opc ∈ ([0x00, 0x01, 0x02, 0x03, 0x08, 0x21] : List U8) ∧ r = .none) ∨ (opc = 0x10 ∧ r = .msg none) ∨
      (opc = 0x20 ∧ r = .csr 0)) →
    (w.extractLsb' 44 12 ≠ 0 ∨ (opc ≠ 0x20 ∧ opc ≠ 0x21 ∧ w.extractLsb' 32 12 ≠ 0) ∨
      (opc = 0x01 ∧ w.extractLsb' 1 31 ≠ 0) ∨ (opc = 0x02 ∧ w.extractLsb' 2 30 ≠ 0) ∨
      (opc ∈ ([0x00, 0x08, 0x10, 0x20] : List U8) ∧ w.extractLsb' 0 32 ≠ 0)) →
    runWord w s = .next { s with err := s.err ||| 0x4, ctr := s.ctr.add .illegalCmd 1, resp := r }

/-- R152: a word of an assigned opcode whose reserved bits are zero runs the command of its opcode, with the operands of
R156. -/
def Obligations.OpcodeSelectsTheCommand : Prop :=
  ∀ (w : Word) (s : State), w.extractLsb' 44 12 = 0 →
    (w.extractLsb' 56 8 = 0x00 → w.extractLsb' 0 44 = 0 → runWord w s = exec .nop s) ∧
    (w.extractLsb' 56 8 = 0x01 → w.extractLsb' 1 43 = 0 → runWord w s = exec (.pushBit (w.getLsbD 0)) s) ∧
    (w.extractLsb' 56 8 = 0x02 → w.extractLsb' 2 42 = 0 → runWord w s = exec (.pushDibit (w.extractLsb' 0 2)) s) ∧
    (w.extractLsb' 56 8 = 0x03 → w.extractLsb' 32 12 = 0 → runWord w s = exec (.pushSoft (w.extractLsb' 0 32)) s) ∧
    (w.extractLsb' 56 8 = 0x08 → w.extractLsb' 0 44 = 0 → runWord w s = exec .reset s) ∧
    (w.extractLsb' 56 8 = 0x10 → w.extractLsb' 0 44 = 0 → runWord w s = exec .pop s) ∧
    (w.extractLsb' 56 8 = 0x20 → w.extractLsb' 0 32 = 0 → runWord w s = exec (.rdcsr (w.extractLsb' 32 12)) s) ∧
    (w.extractLsb' 56 8 = 0x21 → runWord w s = exec (.wrcsr (w.extractLsb' 32 12) (w.extractLsb' 0 32)) s)

/-- The next word of the command stream leaves it and runs: a step at a state whose next word decodes is `exec` of what
it decodes to, at the state without that word; a word that is no command is ignored by `rejectWord`; with no word
pending the step changes nothing. The stream is the model's own (log 2). -/
def Obligations.StepRunsTheNextCommand : Prop :=
  ∀ (s : State) (w : Word) (rest : List Word),
    (s.cmds = w :: rest → ∀ i, decode w = .ok i → step s = exec i { s with cmds := rest }) ∧
    (s.cmds = w :: rest → ∀ r, decode w = .error r → step s = .next (rejectWord r { s with cmds := rest })) ∧
    (s.cmds = [] → step s = .next s)

/-- R450: every step completes: none faults, none is refused. -/
def Obligations.EveryStepCompletes : Prop :=
  (∀ s : State, ∃ t, step s = .next t) ∧ ∀ (w : Word) (s : State), ∃ t, runWord w s = .next t

/-- The words still pending and the response of the command before have no influence on a command, and no command
touches the words still pending (the two fields are the model's own, log 2 and log 3). -/
def Obligations.PendingCommandsAndOldResponseDoNotMatter : Prop :=
  ∀ (i : Instr) (s t : State) (ws : List Word) (r : Resp), exec i s = .next t →
    t.cmds = s.cmds ∧ exec i { s with cmds := ws, resp := r } = .next { t with cmds := ws }

/-- 20_memory.md R101: the configuration is fixed at power-on and validated there; no command writes it, nor the
parameters, nor the result of the validation. -/
def Obligations.ConfigurationIsNeverWritten : Prop :=
  (∀ s t : State, step s = .next t → t.cfg = s.cfg ∧ t.par = s.par ∧ t.cfgOk = s.cfgOk) ∧
    ∀ (cfg : Cfg) (par : Params), (State.powerOn cfg par).cfg = cfg ∧ (State.powerOn cfg par).cfgOk = cfgValid cfg par

/-- 10_state.md R59: the unit count starts at 0 and advances by one, modulo 2^64, on every accepted PUSH and on nothing
else: no other command and no ignored word. -/
def Obligations.UnitCountAdvancesOnAcceptedPushOnly : Prop :=
  (∀ (i : Instr) (s t : State), exec i s = .next t →
    t.unitCount = if s.cfgOk = true ∧ (pushedUnit s i).isSome = true then s.unitCount + 1 else s.unitCount) ∧
  (∀ (w : Word) (s t : State) (r : Reject), decode w = .error r → runWord w s = .next t → t.unitCount = s.unitCount) ∧
  ∀ (cfg : Cfg) (par : Params), (State.powerOn cfg par).unitCount = 0

/-! ### Control commands -/

/-- 44_control.md R400: NOP leaves every state element unchanged; its only encoding is the word 0. -/
def Obligations.NopChangesNothing : Prop :=
  (∀ s : State, exec .nop s = .next { s with resp := .none }) ∧ encode .nop = 0 ∧
    ∀ (w : Word) (s : State), w.extractLsb' 56 8 = 0 → w ≠ 0 →
      runWord w s = .next { s with err := s.err ||| 0x4, ctr := s.ctr.add .illegalCmd 1, resp := .none }

/-- 44_control.md R410: RESET clears the lock, the window and the reassembly table and keeps everything else; an inert
core ignores it; any other word of its opcode is RSVD_NONZERO. -/
def Obligations.ResetClearsThePipeline : Prop :=
  (∀ s : State, s.cfgOk = true →
      exec .reset s = .next { s with lock := .searching, window := [], seqs := [], resp := .none }) ∧
    (∀ s : State, s.cfgOk = false → exec .reset s = .next { s with resp := .none }) ∧
    encode .reset = 0x0800000000000000 ∧
    ∀ (w : Word) (s : State), w.extractLsb' 56 8 = 0x08 → w ≠ 0x0800000000000000 →
      runWord w s = .next { s with err := s.err ||| 0x4, ctr := s.ctr.add .illegalCmd 1, resp := .none }

/-- 44_control.md R420: POP removes the oldest message and answers it; MSG(none) on an empty queue and from an inert
core; any other word of its opcode is RSVD_NONZERO. -/
def Obligations.PopTakesTheOldestMessage : Prop :=
  (∀ (s : State) (m : Message) (rest : List Message), s.cfgOk = true → s.outq = m :: rest →
      exec .pop s = .next { s with outq := rest, resp := .msg (some m) }) ∧
    (∀ s : State, s.cfgOk = true → s.outq = [] → exec .pop s = .next { s with resp := .msg none }) ∧
    (∀ s : State, s.cfgOk = false → exec .pop s = .next { s with resp := .msg none }) ∧
    encode .pop = 0x1000000000000000 ∧
    ∀ (w : Word) (s : State), w.extractLsb' 56 8 = 0x10 → w ≠ 0x1000000000000000 →
      runWord w s = .next { s with err := s.err ||| 0x4, ctr := s.ctr.add .illegalCmd 1, resp := .msg none }

/-- 44_control.md R430 with the map of 10_state.md R60 and R64: what RDCSR answers for each assigned number other than
STATUS (its value is `StatusFields`) and the counters (`CounterRegisters`); it changes nothing. The views are 32 bits wide;
that WINDOW_FILL and WINDOW_LEN are taken modulo 2^32 is the model's choice (DESIGN CHOICE, log 17). -/
def Obligations.ReadOfAssignedCsr : Prop :=
  ∀ (s : State) (n : CsrNum) (v : U32),
    (n = 0x000 ∧ v = 0) ∨ (n = 0x001 ∧ v = s.status) ∨ (n = 0x002 ∧ v = s.err) ∨
    (n = 0x003 ∧ v = match s.lock with
      | .searching => 0
      | .synchronized f => BitVec.ofNat 32 f.bits.length) ∨
    (n = 0x004 ∧ v = match s.lock with
      | .searching => 0
      | .synchronized f => BitVec.ofNat 32 (f.target.getD 0)) ∨
    (n = 0x005 ∧ v = BitVec.ofNat 32 s.window.length) ∨ (n = 0x006 ∧ v = BitVec.ofNat 32 s.outq.length) ∨
    (n = 0x007 ∧ v = BitVec.ofNat 32 s.seqs.length) ∨
    (n = 0x008 ∧ v = if s.cfgOk then BitVec.ofNat 32 s.cfg.windowLen else 0) ∨
    (n = 0x010 ∧ v = s.unitCount.extractLsb' 0 32) ∨ (n = 0x011 ∧ v = s.unitCount.extractLsb' 32 32) →
    exec (.rdcsr n) s = .next { s with resp := .csr v }

/-- 10_state.md R66, R67: the counters read at 0x020 to 0x035, in the order of the table, each under its name, and a
read clears none; `ctr.NAME += k` stores the named counter plus `k` modulo 2^32 and leaves every other counter and all
else of the state. -/
def Obligations.CounterRegisters : Prop :=
  (∀ (s : State) (k : Nat) (v : U32) (name : CounterName),
    [s.ctr.syncDetect, s.ctr.syncAmbiguous, s.ctr.frameResyncDiscard, s.ctr.frameHdrDiscard, s.ctr.frameLenDiscard,
      s.ctr.frameComplete, s.ctr.msgEnqueued, s.ctr.msgDropped, s.ctr.seqStarted, s.ctr.seqCompleted,
      s.ctr.seqAbandoned, s.ctr.seqEvicted, s.ctr.seqTimeout, s.ctr.seqRejected, s.ctr.blockOrphan,
      s.ctr.blockOutOfOrder, s.ctr.checkFailed, s.ctr.bitsCorrected, s.ctr.trellisViolations, s.ctr.unknownMsg,
      s.ctr.illegalCmd, s.ctr.nanInput][k]? = some v →
    ([.syncDetect, .syncAmbiguous, .frameResyncDiscard, .frameHdrDiscard, .frameLenDiscard, .frameComplete,
      .msgEnqueued, .msgDropped, .seqStarted, .seqCompleted, .seqAbandoned, .seqEvicted, .seqTimeout, .seqRejected,
      .blockOrphan, .blockOutOfOrder, .checkFailed, .bitsCorrected, .trellisViolations, .unknownMsg, .illegalCmd,
      .nanInput] : List CounterName)[k]? = some name →
    exec (.rdcsr (BitVec.ofNat 12 (0x020 + k))) s = .next { s with resp := .csr v } ∧ s.ctr.get name = v) ∧
  (∀ (c : Counters) (name other : CounterName) (k : Nat),
    ((c.add name k).get name).toNat = ((c.get name).toNat + k) % 2 ^ 32 ∧
      (other ≠ name → (c.add name k).get other = c.get other)) ∧
  ∀ (s : State) (name : CounterName) (k : Nat), s.count name k = { s with ctr := s.ctr.add name k }

/-- 44_control.md R430: a read of an assigned CSR answers its value and changes nothing; a read of an unassigned one
answers CSR(0), sets BAD_CSR (bit 5) and counts ILLEGAL_CMD; a word of its opcode with RSVD or DATA nonzero is
RSVD_NONZERO and answers CSR(0). The values are `ReadOfAssignedCsr`, `CounterRegisters` and `StatusFields`. -/
def Obligations.ReadOfCsr : Prop :=
  (∀ (s : State) (n : CsrNum) (c : Csr), csrOfNum n = some c →
    exec (.rdcsr n) s = .next { s with resp := .csr (csrValue s c) }) ∧
  (∀ (s : State) (n : CsrNum), (0x009 ≤ n ∧ n ≤ 0x00F) ∨ (0x012 ≤ n ∧ n ≤ 0x01F) ∨ 0x036 ≤ n →
    exec (.rdcsr n) s = .next { s with err := s.err ||| 0x20, ctr := s.ctr.add .illegalCmd 1, resp := .csr 0 }) ∧
  (∀ n : CsrNum, csrOfNum n = none ↔ (0x009 ≤ n ∧ n ≤ 0x00F) ∨ (0x012 ≤ n ∧ n ≤ 0x01F) ∨ 0x036 ≤ n) ∧
  ∀ (w : Word) (s : State), w.extractLsb' 56 8 = 0x20 → w.extractLsb' 44 12 ≠ 0 ∨ w.extractLsb' 0 32 ≠ 0 →
    runWord w s = .next { s with err := s.err ||| 0x4, ctr := s.ctr.add .illegalCmd 1, resp := .csr 0 }

/-- 10_state.md R61: the fields of STATUS, and its power-on value, for every capacity Q of the output queue. OUTQ_FULL
is stated for Q in the range of 00_scope.md R9: for Q = 0 the rule's table and its power-on value disagree (log 16). -/
def Obligations.StatusFields : Prop :=
  (∀ s : State,
    s.status.getLsbD 0 = (s.lock != .searching) ∧
    (s.status.getLsbD 1 = true ↔ ∃ f n, s.lock = .synchronized f ∧ f.target = some n) ∧
    (s.status.getLsbD 2 = true ↔ 0 < s.outq.length) ∧
    (1 ≤ s.par.outqDepth → (s.status.getLsbD 3 = true ↔ s.outq.length = s.par.outqDepth)) ∧
    (s.status.getLsbD 4 = true ↔ s.err ≠ 0) ∧
    s.status.extractLsb' 5 3 = 0 ∧ s.status.extractLsb' 24 8 = 0 ∧
    (s.lock = .searching → s.status.extractLsb' 8 8 = 0 ∧ s.status.extractLsb' 16 8 = 0) ∧
    (∀ f, s.lock = .synchronized f → s.status.extractLsb' 8 8 = f.pat ∧ s.status.extractLsb' 16 8 = f.du)) ∧
  ∀ (cfg : Cfg) (par : Params),
    (cfgValid cfg par = true → (State.powerOn cfg par).status = 0) ∧
      (cfgValid cfg par = false → (State.powerOn cfg par).status = 0x10)

/-- 44_control.md R440, 10_state.md R63: a write of CTRL clears every counter with bit 0 and ERR bits 1 to 5 with bit 1,
and nothing else, and CTRL reads 0. A write of any other CSR, read-only or unassigned, writes nothing, sets BAD_CSR and
counts ILLEGAL_CMD. A word of its opcode with RSVD nonzero is RSVD_NONZERO. -/
def Obligations.WriteOfCsr : Prop :=
  (∀ (s : State) (v : U32),
    exec (.wrcsr 0x000 v) s = .next { s with
      ctr := if v.getLsbD 0 then Counters.zero else s.ctr
      err := if v.getLsbD 1 then s.err &&& 0x1 else s.err
      resp := .none }) ∧
  (∀ name, Counters.zero.get name = 0) ∧ (∀ s : State, exec (.rdcsr 0x000) s = .next { s with resp := .csr 0 }) ∧
  (∀ (s : State) (n : CsrNum) (v : U32), n ≠ 0x000 →
    exec (.wrcsr n v) s = .next { s with err := s.err ||| 0x20, ctr := s.ctr.add .illegalCmd 1, resp := .none }) ∧
  ∀ (w : Word) (s : State), w.extractLsb' 56 8 = 0x21 → w.extractLsb' 44 12 ≠ 0 →
    runWord w s = .next { s with err := s.err ||| 0x4, ctr := s.ctr.add .illegalCmd 1, resp := .none }

/-- 10_state.md R62: no command clears an error bit but WRCSR of CTRL with CLR_ERR, which keeps CFG_INVALID. -/
def Obligations.ErrorBitsAreSticky : Prop :=
  ∀ (i : Instr) (s t : State) (k : Nat), exec i s = .next t → s.err.getLsbD k = true →
    t.err.getLsbD k = true ∨ ∃ v : U32, i = .wrcsr 0x000 v ∧ v.getLsbD 1 = true ∧ k ≠ 0

/-! ### Reset and the inert core -/

/-- 70_reset_and_hazards.md R501: the power-on value of every state element and every view. That
WINDOW_LEN is W(cfg) modulo 2^32 is the model's choice (DESIGN CHOICE, log 17). -/
def Obligations.PowerOnValues : Prop :=
  ∀ (cfg : Cfg) (par : Params) (s : State), s = State.powerOn cfg par →
    s.cfg = cfg ∧ s.par = par ∧ s.cfgOk = cfgValid cfg par ∧ s.lock = .searching ∧ s.window = [] ∧ s.seqs = [] ∧
      s.outq = [] ∧ s.unitCount = 0 ∧ (s.err = if cfgValid cfg par then 0 else 1) ∧ (∀ name, s.ctr.get name = 0) ∧
      (csrValue s .status = if cfgValid cfg par then 0 else 0x10) ∧
      (csrValue s .windowLen = if cfgValid cfg par then BitVec.ofNat 32 cfg.windowLen else 0) ∧
      ∀ c, c ≠ .status → c ≠ .err → c ≠ .windowLen → csrValue s c = 0

/-- The invariants hold of every instance at power-on, whatever its configuration; so of `State.reset`. -/
def Obligations.PowerOnMeetsTheInvariants : Prop :=
  ∀ (cfg : Cfg) (par : Params) (s : State), s = State.powerOn cfg par →
    ConfigInv s ∧ ErrInv s ∧ BoundsInv s ∧ WindowKindInv s ∧ FrameInv s ∧ TableInv s ∧ TimesInv s ∧ InertInv s

/-- 60_exceptions.md R455: an inert core ignores PUSH, RESET and POP silently, answering NONE, and MSG(none) to POP;
NOP, RDCSR and WRCSR still work; and its state stays at the power-on values but for ERR bits 1 to 5 and ILLEGAL_CMD. -/
def Obligations.InertCoreIgnoresCommands : Prop :=
  (∀ s : State, s.cfgOk = false →
    (∀ b, exec (.pushBit b) s = .next { s with resp := .none }) ∧
    (∀ d, exec (.pushDibit d) s = .next { s with resp := .none }) ∧
    (∀ v, exec (.pushSoft v) s = .next { s with resp := .none }) ∧
    exec .reset s = .next { s with resp := .none } ∧ exec .pop s = .next { s with resp := .msg none } ∧
    exec .nop s = .next { s with resp := .none } ∧ exec (.rdcsr 0x002) s = .next { s with resp := .csr s.err } ∧
    exec (.wrcsr 0x000 3) s = .next { s with ctr := Counters.zero, err := s.err &&& 0x1, resp := .none }) ∧
  ∀ s t : State, InertInv s → step s = .next t → InertInv t

/-! ### PUSH and the sync detector -/

/-- 40_sync_detector.md R200: a PUSH of another kind than the configured one is ignored: KIND_MISMATCH (bit 3) and
ILLEGAL_CMD, and nothing else changes. -/
def Obligations.PushOfTheWrongKind : Prop :=
  ∀ s : State, s.cfgOk = true →
    (s.cfg.unitKind ≠ .bit → ∀ b, exec (.pushBit b) s =
      .next { s with err := s.err ||| 0x8, ctr := s.ctr.add .illegalCmd 1, resp := .none }) ∧
    (s.cfg.unitKind ≠ .dibit → ∀ d, exec (.pushDibit d) s =
      .next { s with err := s.err ||| 0x8, ctr := s.ctr.add .illegalCmd 1, resp := .none }) ∧
    (s.cfg.unitKind ≠ .soft → ∀ v, exec (.pushSoft v) s =
      .next { s with err := s.err ||| 0x8, ctr := s.ctr.add .illegalCmd 1, resp := .none })

/-- 40_sync_detector.md R201 to R204: each PUSH of the configured kind completes: NAN_INPUT, the unit count, the timeout
sweep and the window push (`admitted`), then the detection over the new window, then the framer. -/
def Obligations.AcceptedPushRunsTheStages : Prop :=
  ∀ s : State, s.cfgOk = true →
    (s.cfg.unitKind = .bit → ∀ (b : Bool) (r : Detection), r = detection s.cfg (windowWith s (.bit b)) →
      exec (.pushBit b) s = .next
        ((framerStep r [b] s.unitCount (countDetection r (admitted (.pushBit b) (.bit b) s))).respond .none)) ∧
    (s.cfg.unitKind = .dibit → ∀ (d : Dibit) (r : Detection), r = detection s.cfg (windowWith s (.dib d)) →
      exec (.pushDibit d) s = .next
        ((framerStep r [d.getLsbD 1, d.getLsbD 0] s.unitCount
          (countDetection r (admitted (.pushDibit d) (.dib d) s))).respond .none)) ∧
    (s.cfg.unitKind = .soft → ∀ (v : Binary32) (d : Dibit) (r : Detection), d = quantize s.cfg.quantizer v →
      r = detection s.cfg (windowWith s (.soft v d)) →
      exec (.pushSoft v) s = .next
        ((framerStep r [d.getLsbD 1, d.getLsbD 0] s.unitCount
          (countDetection r (admitted (.pushSoft v) (.soft v d) s))).respond .none))

/-- 40_sync_detector.md R209: the newest unit is the window's last, the window holds at most W units, and it is the
newest W units of the old window with the new one. -/
def Obligations.WindowKeepsTheNewestUnits : Prop :=
  ∀ (s : State) (u : InputUnit), s.window.length ≤ s.cfg.windowLen → 1 ≤ s.cfg.windowLen →
    windowWith s u = (s.window ++ [u]).drop (s.window.length + 1 - s.cfg.windowLen) ∧
      (windowWith s u).length = min (s.window.length + 1) s.cfg.windowLen ∧ (windowWith s u).getLast? = some u

/-- 40_sync_detector.md R206: the quantizer's region counts the thresholds at or below the symbol, each by an IEEE
comparison that a NaN fails, and the map gives the region's dibit; a NaN gives map[0] (R207, which the spec marks as its
own inference). -/
def Obligations.QuantizerCountsThresholds : Prop :=
  ∀ (q : Quantizer) (v : Binary32) (x y z : Bool),
    x = (F32.ofBits v).ge (F32.ofBits q.q0) → y = (F32.ofBits v).ge (F32.ofBits q.q1) →
    z = (F32.ofBits v).ge (F32.ofBits q.q2) →
    (x.toNat + y.toNat + z.toNat = 0 → quantize q v = q.map0) ∧
    (x.toNat + y.toNat + z.toNat = 1 → quantize q v = q.map1) ∧
    (x.toNat + y.toNat + z.toNat = 2 → quantize q v = q.map2) ∧
    (x.toNat + y.toNat + z.toNat = 3 → quantize q v = q.map3) ∧
    (v.extractLsb' 23 8 = 0xFF → v.extractLsb' 0 23 ≠ 0 → quantize q v = q.map0)

/-- 00_scope.md R25: binary32 arithmetic. A finite value is `q * 2^-149` for an integer `q` (the model's own form, log
10). Rounding of an exact magnitude `n * 2^-k` is to a nearest value of at most 24 significant bits (`q` units of
`2^drop`), ties to even; `drop` is the number of low bits the format cannot hold. `fadd32` and `fmul32` round the exact
sum and the exact product once, with its sign, to an infinity from 2^128 (`2^128 * 2^149` units) on; infinities and NaN
follow IEEE 754. `>` and `==` are the IEEE comparisons, false of a NaN, and the two zeros are equal; `≥`
(40_sync_detector.md R206) is the one or the other. -/
def Obligations.RoundingIsToNearestEven : Prop :=
  (∀ n k : Nat, ∃ q drop : Nat, drop = max k (bitLength n - 24) ∧ roundMag n k = q * 2 ^ (drop - k) ∧ q ≤ 2 ^ 24 ∧
    2 * (q * 2 ^ drop - n) ≤ 2 ^ drop ∧ 2 * (n - q * 2 ^ drop) ≤ 2 ^ drop ∧
    (2 * (q * 2 ^ drop - n) = 2 ^ drop ∨ 2 * (n - q * 2 ^ drop) = 2 ^ drop → q % 2 = 0)) ∧
  (∀ (a b : Int) (m : Nat), m = roundMag (a + b).natAbs 0 →
    (2 ^ 128 * 2 ^ 149 ≤ m → fadd32 (.fin a) (.fin b) = .inf (decide (a + b < 0))) ∧
    (m < 2 ^ 128 * 2 ^ 149 → fadd32 (.fin a) (.fin b) = .fin (if a + b < 0 then -(m : Int) else m))) ∧
  (∀ (a b : Int) (m : Nat), m = roundMag (a * b).natAbs 149 →
    (2 ^ 128 * 2 ^ 149 ≤ m → fmul32 (.fin a) (.fin b) = .inf (decide (a * b < 0))) ∧
    (m < 2 ^ 128 * 2 ^ 149 → fmul32 (.fin a) (.fin b) = .fin (if a * b < 0 then -(m : Int) else m))) ∧
  (∀ (x : F32) (s t : Bool) (a : Int),
    fadd32 .nan x = .nan ∧ fadd32 x .nan = .nan ∧ fmul32 .nan x = .nan ∧ fmul32 x .nan = .nan ∧
    fadd32 (.inf s) (.fin a) = .inf s ∧ fadd32 (.fin a) (.inf s) = .inf s ∧
    fadd32 (.inf s) (.inf t) = (if s = t then .inf s else .nan) ∧ fmul32 (.inf s) (.inf t) = .inf (s ^^ t) ∧
    (a = 0 → fmul32 (.inf s) (.fin a) = .nan ∧ fmul32 (.fin a) (.inf s) = .nan) ∧
    (a ≠ 0 → fmul32 (.inf s) (.fin a) = .inf (s ^^ decide (a < 0)) ∧
      fmul32 (.fin a) (.inf s) = .inf (s ^^ decide (a < 0)))) ∧
  (∀ x y : F32,
    (x.gt y = true ↔ (∃ a b, x = .fin a ∧ y = .fin b ∧ b < a) ∨ (x = .inf false ∧ y ≠ .inf false ∧ y ≠ .nan) ∨
      (y = .inf true ∧ x ≠ .inf true ∧ x ≠ .nan)) ∧
    (x.eq y = true ↔ x = y ∧ x ≠ .nan) ∧ (x.ge y = true ↔ x.gt y = true ∨ x.eq y = true)) ∧
  ∀ (v : Binary32) (e f : Nat), e = (v.extractLsb' 23 8).toNat → f = (v.extractLsb' 0 23).toNat →
    (e = 255 → f = 0 → F32.ofBits v = .inf (v.getLsbD 31)) ∧ (e = 255 → f ≠ 0 → F32.ofBits v = .nan) ∧
    (e ≠ 255 → ∃ q : Int, F32.ofBits v = .fin q ∧ q.natAbs = (if e = 0 then f else (2 ^ 23 + f) * 2 ^ (e - 1)) ∧
      (v.getLsbD 31 = true → q ≤ 0) ∧ (v.getLsbD 31 = false → 0 ≤ q))

/-- 40_sync_detector.md R210 to R213, for hard and for soft protocols. Hard: a pattern of the configuration, all
different, is detected exactly when it is evaluable, agrees with the bits of its span in more places than the threshold,
and every other evaluable pattern agrees in fewer; the result is NONE exactly when no evaluable pattern agrees in more
places than the threshold. Soft: the score is the running sum `acc` over the span, oldest unit first, each product and
each partial sum a binary32 operation; a pattern is detected exactly when it is evaluable, its score exceeds the
threshold, and it exceeds the score of every other evaluable pattern above the threshold; NONE exactly when no evaluable
pattern's score exceeds the threshold, which a NaN never does. -/
def Obligations.HardDetectionIsTheUniqueBestPattern : Prop :=
  (∀ (cfg : Cfg) (window : List InputUnit) (agree : Pattern → Nat), cfg.unitKind ≠ .soft → cfg.patterns.Nodup →
    (∀ p, agree p = (List.range p.bits.length).countP fun k => decide
      (((window.drop (window.length - patternLength cfg.unitKind p)).flatMap unitBits)[k]? = p.bits[k]?)) →
    (∀ p, detection cfg window = .found p ↔
      p ∈ cfg.patterns ∧ patternLength cfg.unitKind p ≤ window.length ∧ cfg.hardThreshold < agree p ∧
        ∀ q ∈ cfg.patterns, q ≠ p → patternLength cfg.unitKind q ≤ window.length → agree q < agree p) ∧
    (detection cfg window = .none ↔
      ∀ q ∈ cfg.patterns, patternLength cfg.unitKind q ≤ window.length → agree q ≤ cfg.hardThreshold)) ∧
  ∀ (cfg : Cfg) (window : List InputUnit) (acc : Pattern → Nat → F32) (score : Pattern → F32) (thr : F32),
    cfg.unitKind = .soft → cfg.patterns.Nodup → (∀ u ∈ window, u.kind = .soft) → thr = F32.ofBits cfg.softThreshold →
    (∀ p, acc p 0 = .fin 0) →
    (∀ p j v d x, window[window.length - p.ideal.length + j]? = some (.soft v d) → p.ideal[j]? = some x →
      acc p (j + 1) = fadd32 (acc p j) (fmul32 (F32.ofBits v) (F32.ofBits x))) →
    (∀ p, score p = acc p p.ideal.length) →
    (∀ p, detection cfg window = .found p ↔
      p ∈ cfg.patterns ∧ p.ideal.length ≤ window.length ∧ (score p).gt thr = true ∧
        ∀ q ∈ cfg.patterns, q ≠ p → q.ideal.length ≤ window.length → (score q).gt thr = true →
          (score p).gt (score q) = true) ∧
    (detection cfg window = .none ↔
      ∀ q ∈ cfg.patterns, q.ideal.length ≤ window.length → (score q).gt thr = false) ∧
    ∀ p, score p = .nan → (score p).gt thr = false

/-- 40_sync_detector.md section 5 (R219 is the spec's own inference): when the newest units carry exactly a hard
pattern's bits, the threshold is below its length and every other pattern is shorter, the pattern is detected. -/
def Obligations.ExactPatternIsDetected : Prop :=
  ∀ (cfg : Cfg) (window older newest : List InputUnit) (p : Pattern), cfg.unitKind ≠ .soft → cfg.patterns.Nodup →
    p ∈ cfg.patterns → window = older ++ newest → newest.length = patternLength cfg.unitKind p →
    newest.flatMap unitBits = p.bits → cfg.hardThreshold < p.bits.length →
    (∀ q ∈ cfg.patterns, q ≠ p → q.bits.length < p.bits.length) →
    detection cfg window = .found p

/-! ### The framer -/

/-- 41_framer.md R250: a unit that gives no match while SEARCHING enters no frame and makes no message; an AMBIGUOUS
result counts SYNC_AMBIGUOUS. -/
def Obligations.UnmatchedUnitWhileSearching : Prop :=
  ∀ (i : Instr) (u : InputUnit) (s : State), s.cfgOk = true → pushedUnit s i = some u → s.lock = .searching →
    (detection s.cfg (windowWith s u) = .none → exec i s = .next { admitted i u s with resp := .none }) ∧
    (detection s.cfg (windowWith s u) = .ambiguous →
      exec i s = .next { admitted i u s with ctr := (admitted i u s).ctr.add .syncAmbiguous 1, resp := .none })

/-- 41_framer.md R254: a match while SEARCHING starts a frame with the pattern's id and type, the unit's index as its
timestamp, no bits, and the target a Fixed type gives. -/
def Obligations.MatchStartsAFrame : Prop :=
  ∀ (i : Instr) (u : InputUnit) (s : State) (p : Pattern) (target : Option Nat), s.cfgOk = true →
    pushedUnit s i = some u → s.lock = .searching → detection s.cfg (windowWith s u) = .found p →
    ((∃ d n, s.cfg.du? p.du = some d ∧ d.length = .fixed n ∧ target = some n) ∨
      (∃ d h l c m, s.cfg.du? p.du = some d ∧ d.length = .variableLen h l c m ∧ target = none)) →
    exec i s = .next { admitted i u s with
      lock := .synchronized { pat := p.id, du := p.du, ts := s.unitCount, bits := [], target := target,
                              corrected := 0, viol := 0, results := [] }
      ctr := (admitted i u s).ctr.add .syncDetect 1
      resp := .none }

/-- 41_framer.md R253: a match while SYNCHRONIZED discards the frame in assembly, whatever its progress, and starts a
new one; nothing of the old frame is emitted and the matching unit joins neither. -/
def Obligations.RedetectionDiscardsTheFrame : Prop :=
  ∀ (i : Instr) (u : InputUnit) (s : State) (f : Frame) (p : Pattern) (target : Option Nat), s.cfgOk = true →
    pushedUnit s i = some u → s.lock = .synchronized f → detection s.cfg (windowWith s u) = .found p →
    ((∃ d n, s.cfg.du? p.du = some d ∧ d.length = .fixed n ∧ target = some n) ∨
      (∃ d h l c m, s.cfg.du? p.du = some d ∧ d.length = .variableLen h l c m ∧ target = none)) →
    exec i s = .next { admitted i u s with
      lock := .synchronized { pat := p.id, du := p.du, ts := s.unitCount, bits := [], target := target,
                              corrected := 0, viol := 0, results := [] }
      ctr := ((admitted i u s).ctr.add .syncDetect 1).add .frameResyncDiscard 1
      resp := .none }

/-- 41_framer.md R251, R252, R255: an unmatched unit while SYNCHRONIZED appends its bits; the frame stays in assembly
while its target, or its unread header, is not reached. AMBIGUOUS appends too. -/
def Obligations.UnitExtendsTheFrame : Prop :=
  ∀ (i : Instr) (u : InputUnit) (s : State) (f : Frame), s.cfgOk = true → pushedUnit s i = some u →
    s.lock = .synchronized f → (∀ p, detection s.cfg (windowWith s u) ≠ .found p) →
    ((∃ n, f.target = some n ∧ f.bits.length + (unitBits u).length ≠ n) ∨
      (f.target = none ∧ ∃ d h l c m, s.cfg.du? f.du = some d ∧ d.length = .variableLen h l c m ∧
        f.bits.length + (unitBits u).length < h)) →
    exec i s = .next { admitted i u s with
      lock := .synchronized { f with bits := f.bits ++ unitBits u }
      ctr := if detection s.cfg (windowWith s u) = .ambiguous then (admitted i u s).ctr.add .syncAmbiguous 1
             else (admitted i u s).ctr
      resp := .none }

/-- 41_framer.md R260: the unit that brings a frame to its target completes it: the lock is SEARCHING, FRAME_COMPLETE
counts, the type's checks run and the frame is handed to the factory. -/
def Obligations.FullFrameCompletes : Prop :=
  ∀ (i : Instr) (u : InputUnit) (s : State) (f : Frame) (d : DuCfg) (r : Detection), s.cfgOk = true →
    pushedUnit s i = some u → s.lock = .synchronized f → r = detection s.cfg (windowWith s u) →
    (∀ p, r ≠ .found p) → f.target = some (f.bits.length + (unitBits u).length) → s.cfg.du? f.du = some d →
    ∃ a fs, a = countDetection r (admitted i u s) ∧
      fs = runChecks d.checks { f with bits := f.bits ++ unitBits u }
        { a with lock := .searching, ctr := a.ctr.add .frameComplete 1 } ∧
      exec i s = .next ((handleFrame fs.1 s.unitCount fs.2).respond .none)

/-- 41_framer.md R256: the unit that brings a variable-length frame to its header runs `readHeader` in that step, which
runs the header checks and then, by R257, R258 and R259: a FAILED header check discards the frame (FRAME_HDR_DISCARD);
a length below the header or above F, or a value without a Select entry, discards it (FRAME_LEN_DISCARD); otherwise the
frame has its target, and its new type for Select. -/
def Obligations.HeaderDecidesTheLength : Prop :=
  (∀ (i : Instr) (u : InputUnit) (s : State) (f : Frame) (d : DuCfg) (hdrBits : Nat) (lenField : Field)
    (hdrChecks : List Check) (map : LenMap) (r : Detection), s.cfgOk = true → pushedUnit s i = some u →
    s.lock = .synchronized f → f.target = none → s.cfg.du? f.du = some d →
    d.length = .variableLen hdrBits lenField hdrChecks map → hdrBits ≤ f.bits.length + (unitBits u).length →
    r = detection s.cfg (windowWith s u) → (∀ p, r ≠ .found p) →
    exec i s = .next ((readHeader { f with bits := f.bits ++ unitBits u } hdrBits lenField hdrChecks map s.unitCount
      (countDetection r (admitted i u s))).respond .none)) ∧
  ∀ (s : State) (f : Frame) (hdrBits : Nat) (lenField : Field) (hdrChecks : List Check) (map : LenMap) (now : U64)
    (g : Frame) (t : State), f.results = [] → runChecks hdrChecks f s = (g, t) →
    ((∃ r ∈ g.results, r.verdict = .failed) →
      readHeader f hdrBits lenField hdrChecks map now s =
        { t with lock := .searching, ctr := t.ctr.add .frameHdrDiscard 1 }) ∧
    ((∀ r ∈ g.results, r.verdict ≠ .failed) →
      (∀ base mult n, map = .affine base mult → n = base + field g.bits lenField * mult →
        (n < hdrBits ∨ s.par.maxFrameBits < n → readHeader f hdrBits lenField hdrChecks map now s =
          { t with lock := .searching, ctr := t.ctr.add .frameLenDiscard 1 }) ∧
        (hdrBits ≤ n → n ≤ s.par.maxFrameBits → readHeader f hdrBits lenField hdrChecks map now s =
          completeIfFull { g with target := some n } now t)) ∧
      (∀ table, map = .select table →
        (table.lookup (BitVec.ofNat 32 (field g.bits lenField)) = none →
          readHeader f hdrBits lenField hdrChecks map now s =
            { t with lock := .searching, ctr := t.ctr.add .frameLenDiscard 1 }) ∧
        (∀ du d n, table.lookup (BitVec.ofNat 32 (field g.bits lenField)) = some du → s.cfg.du? du = some d →
          d.length = .fixed n → readHeader f hdrBits lenField hdrChecks map now s =
            completeIfFull { g with du := du, target := some n } now t)))

/-- What a PUSH may change: the configuration, the validation result, the pending commands and, but for OUTQ_OVERFLOW,
the error bits stay; at most one message enters the output queue, behind those already there; the response is NONE
(41_framer.md section 3, R262 is the spec's own inference; 43_dispatch.md R380). -/
def Obligations.PushFrame : Prop :=
  ∀ (i : Instr) (u : InputUnit) (s t : State), s.cfgOk = true → pushedUnit s i = some u → exec i s = .next t →
    t.cfg = s.cfg ∧ t.par = s.par ∧ t.cfgOk = s.cfgOk ∧ t.cmds = s.cmds ∧ t.resp = .none ∧
      t.unitCount = s.unitCount + 1 ∧ t.window = windowWith s u ∧
      ((t.outq = s.outq ∧ t.err = s.err) ∨ (∃ m, t.outq = s.outq ++ [m] ∧ t.err = s.err) ∨
        (t.outq = s.outq ∧ t.err = s.err ||| 0x10 ∧ s.par.outqDepth ≤ s.outq.length)) ∧
      t.ctr.illegalCmd = s.ctr.illegalCmd

/-! ### Error correction -/

/-- 42_error_correction.md R310, R311: a valid CRC check passes exactly when the register `reg`, run over the data
positions in list order, most significant bit first, and finished with `xorout`, equals the checksum positions' value,
the first of them most significant; it fails otherwise, never corrects and changes nothing. One that passed fails after
any single bit among its data or checksum positions is flipped. -/
def Obligations.CrcDetectsEverySingleFlip : Prop :=
  ∀ (cfg : Cfg) (par : Params) (w poly init xorout : Nat) (data recv : List Nat) (bits : List Bool) (c : Check),
    c = .crc w poly init xorout data recv → vCheck par c = true → (∀ q ∈ c.positions, q < bits.length) →
    (∀ (reg : Nat → Nat) (chk sum : Nat), reg 0 = init →
      (∀ j p, data[j]? = some p → reg (j + 1) =
        if ((reg j).testBit (w - 1) ^^ bits.getD p false) = true then (reg j * 2 % 2 ^ w) ^^^ poly
        else reg j * 2 % 2 ^ w) →
      chk = reg data.length ^^^ xorout →
      sum = ((List.range w).map fun j => (bits.getD (recv.getD j 0) false).toNat * 2 ^ (w - 1 - j)).sum →
      (chk = sum → applyCheck cfg c bits = ⟨.passed, 0, 0, bits⟩) ∧
      (chk ≠ sum → applyCheck cfg c bits = ⟨.failed, 0, 0, bits⟩)) ∧
    (applyCheck cfg c bits).verdict ≠ .corrected ∧
    ∀ p ∈ c.positions, (applyCheck cfg c bits).verdict = .passed →
      (applyCheck cfg c (bits.set p (!bitAt bits p))).verdict = .failed

/-- 42_error_correction.md R314 over a valid code (R313): bounded-distance decoding. A codeword passes; a word with a
codeword within t is corrected to it, the only one, in exactly the bits that differ; any other word fails unchanged. -/
def Obligations.BlockDecodingIsBoundedDistance : Prop :=
  ∀ (code : LinearCode) (pos : List Nat) (bits x : List Bool) (o : CheckOutcome), code.valid = true →
    pos.length = code.n → pos.Nodup → (∀ p ∈ pos, p < bits.length) → x = bitsAt bits pos →
    o = blockDecode code pos bits →
    (code.syndrome x = 0 → o = ⟨.passed, 0, 0, bits⟩) ∧
    (code.syndrome x ≠ 0 → ∀ y, y.length = code.n → code.syndrome y = 0 → hamming x y ≤ code.t →
      o.verdict = .corrected ∧ o.n = hamming x y ∧ o.viol = 0 ∧ bitsAt o.bits pos = y ∧
        o.bits.length = bits.length ∧ ∀ q, q ∉ pos → bitAt o.bits q = bitAt bits q) ∧
    (code.syndrome x ≠ 0 → (∀ y, y.length = code.n → code.syndrome y = 0 → code.t < hamming x y) →
      o = ⟨.failed, 0, 0, bits⟩)

/-- 42_error_correction.md R323: a Reed-Solomon codeword passes; any other word is corrected exactly when one and only
one codeword lies within t symbols of it, and then to that codeword, the count being the bits that change; otherwise it
fails unchanged. -/
def Obligations.RsDecodingIsBoundedDistance : Prop :=
  ∀ (par : Params) (m prim n k fcr : Nat) (pos : List Nat) (bits : List Bool) (y : List Nat) (o : CheckOutcome),
    vCheck par (.rs m prim n k fcr pos) = true → (∀ p ∈ pos, p < bits.length) → y = rsSymbols m n pos bits →
    o = rsDecode m prim n k fcr pos bits →
    (rsCodeword m prim n k fcr y = true → o = ⟨.passed, 0, 0, bits⟩) ∧
    (rsCodeword m prim n k fcr y = false →
      (∀ z, z = rsSymbols m n pos o.bits → o.verdict = .corrected →
        rsCodeword m prim n k fcr z = true ∧ symbolDistance y z ≤ (n - k) / 2 ∧ 1 ≤ symbolDistance y z ∧
          o.n = hamming bits o.bits ∧ o.viol = 0 ∧
          ∀ z', z'.length = n → (∀ v ∈ z', v < 2 ^ m) → rsCodeword m prim n k fcr z' = true →
            symbolDistance y z' ≤ (n - k) / 2 → z' = z) ∧
      (o.verdict ≠ .corrected → o = ⟨.failed, 0, 0, bits⟩ ∧
        ¬ ∃ z, (z.length = n ∧ (∀ v ∈ z, v < 2 ^ m) ∧ rsCodeword m prim n k fcr z = true ∧
            symbolDistance y z ≤ (n - k) / 2) ∧
          ∀ z', z'.length = n → (∀ v ∈ z', v < 2 ^ m) → rsCodeword m prim n k fcr z' = true →
            symbolDistance y z' ≤ (n - k) / 2 → z' = z))

/-- 42_error_correction.md R335: `minCost` is the least cost of a legal sequence, for every relation and every received
sequence. -/
def Obligations.ViterbiCostIsTheMinimum : Prop :=
  ∀ (legal : Dibit → Dibit → Bool) (start : Option Dibit) (d : List Dibit),
    (∀ c, minCost legal start d = some c →
      (∃ e, e.length = d.length ∧ LegalPath legal start e ∧ pathCost d e = c) ∧
        ∀ e, e.length = d.length → LegalPath legal start e → c ≤ pathCost d e) ∧
    (minCost legal start d = none → ∀ e, e.length = d.length → ¬ LegalPath legal start e)

/-- 42_error_correction.md R336: the trellis check fails above `fail_above`, passes at cost 0, and otherwise writes back a
legal sequence of minimum cost. Whatever the tie choices, the sequence the decoder takes is legal and of minimum cost,
and every such sequence is the result of some tie choices, so that no value of TRELLIS_TIE is shut out. That the choice
is made position by position is the model's (DESIGN CHOICE, log 4). -/
def Obligations.TrellisPathsAreTheMinimumCostPaths : Prop :=
  (∀ (legal : Dibit → Dibit → Bool) (start : Option Dibit) (d e : List Dibit) (c : Nat),
    minCost legal start d = some c →
    ((∃ tie, bestPath legal tie start 0 d = e) ↔
      e.length = d.length ∧ LegalPath legal start e ∧ pathCost d e = c)) ∧
  ∀ (cfg : Cfg) (pos : List Nat) (start : Option Dibit) (failAbove : Option Nat) (bits : List Bool) (d : List Dibit)
    (c : Nat) (o : CheckOutcome), d = dibitsOf (bitsAt bits pos) → minCost cfg.legal start d = some c →
    o = trellisDecode cfg pos start failAbove bits →
    (∀ a, failAbove = some a → a < c → o = ⟨.failed, 0, violations cfg.legal start d, bits⟩) ∧
    ((∀ a, failAbove = some a → c ≤ a) → c = 0 → o = ⟨.passed, 0, violations cfg.legal start d, bits⟩) ∧
    ((∀ a, failAbove = some a → c ≤ a) → c ≠ 0 → ∃ e, e.length = d.length ∧ LegalPath cfg.legal start e ∧
      pathCost d e = c ∧
      o = ⟨.corrected, c, violations cfg.legal start d, writeBits bits pos (e.flatMap dibitBits)⟩)

/-- 42_error_correction.md section 5 (R337's last sentence, R338 and R333 are the spec's own inferences): the violation
count is 0 exactly when the received dibits are legal, exactly when the minimum cost is 0; and over a valid relation a
legal sequence always exists, so that without `fail_above` a trellis check never fails. -/
def Obligations.TrellisViolationsAndVerdicts : Prop :=
  ∀ (cfg : Cfg) (start : Option Dibit) (d : List Dibit),
    (violations cfg.legal start d = 0 ↔ LegalPath cfg.legal start d) ∧
    (violations cfg.legal start d = 0 ↔ minCost cfg.legal start d = some 0) ∧
    ((∀ a, ∃ b, cfg.legal a b = true) → ∃ c, minCost cfg.legal start d = some c) ∧
    ((∀ a, ∃ b, cfg.legal a b = true) → ∀ pos bits, (trellisDecode cfg pos start none bits).verdict ≠ .failed)

/-- 42_error_correction.md R301: PASSED and FAILED change no bit; CORRECTED(n) changes exactly n bits, at least one, all
at the check's positions, and adds n to the frame's count. -/
def Obligations.VerdictsChangeExactlyTheCorrectedBits : Prop :=
  ∀ (cfg : Cfg) (par : Params) (c : Check) (bits : List Bool) (o : CheckOutcome), vCheck par c = true →
    o = applyCheck cfg c bits →
    o.bits.length = bits.length ∧ (o.verdict ≠ .corrected → o.bits = bits ∧ o.n = 0) ∧
      (o.verdict = .corrected → hamming bits o.bits = o.n ∧ 1 ≤ o.n ∧
        ∀ q, q ∉ c.positions → bitAt o.bits q = bitAt bits q) ∧
      ∀ (f : Frame) (s : State), f.bits = bits → s.cfg = cfg →
        (runChecks [c] f s).1.bits = o.bits ∧ (runChecks [c] f s).1.corrected = f.corrected + o.n

/-- 42_error_correction.md R306: a check that names a position beyond the frame fails, with no correction and no
violation, and changes no bit. -/
def Obligations.ShortFrameFailsTheCheck : Prop :=
  ∀ (cfg : Cfg) (c : Check) (bits : List Bool) (p : Nat), p ∈ c.positions → bits.length ≤ p →
    applyCheck cfg c bits = ⟨.failed, 0, 0, bits⟩

/-- 42_error_correction.md R300, R305: running one more check, at the end of a list, sees the bits the earlier ones left,
records its result and counts, and touches nothing else. A check whose positions all lie inside the frame is the decoder
of its kind, and its result carries that kind. -/
def Obligations.ChecksRunInListOrder : Prop :=
  (∀ (cfg : Cfg) (bits : List Bool),
    (∀ w poly init xorout data recv, checkKind (.crc w poly init xorout data recv) = .crc ∧
      ((∀ p ∈ data ++ recv, p < bits.length) →
        applyCheck cfg (.crc w poly init xorout data recv) bits = crcCheck w poly init xorout data recv bits)) ∧
    (∀ code pos, checkKind (.block code pos) = .block ∧ ((∀ p ∈ pos, p < bits.length) →
      applyCheck cfg (.block code pos) bits = blockDecode code pos bits)) ∧
    (∀ m prim n k fcr pos, checkKind (.rs m prim n k fcr pos) = .rs ∧ ((∀ p ∈ pos, p < bits.length) →
      applyCheck cfg (.rs m prim n k fcr pos) bits = rsDecode m prim n k fcr pos bits)) ∧
    (∀ pos start failAbove, checkKind (.trellis pos start failAbove) = .trellis ∧ ((∀ p ∈ pos, p < bits.length) →
      applyCheck cfg (.trellis pos start failAbove) bits = trellisDecode cfg pos start failAbove bits))) ∧
  ∀ (cs : List Check) (c : Check) (f : Frame) (s : State) (g : Frame) (t : State) (o : CheckOutcome),
    runChecks cs f s = (g, t) → o = applyCheck s.cfg c g.bits →
    runChecks [] f s = (f, s) ∧
    runChecks (cs ++ [c]) f s =
      ({ g with
          bits := o.bits
          corrected := g.corrected + o.n
          viol := g.viol + o.viol
          results := g.results ++ [⟨checkKind c, o.verdict, o.n, 0⟩] },
        { t with
          ctr := ((t.ctr.add .checkFailed (if o.verdict = .failed then 1 else 0)).add .bitsCorrected
            (if o.verdict = .corrected then o.n else 0)).add .trellisViolations o.viol })

/-- 42_error_correction.md R303: the validity of a result list, and the order of severity. -/
def Obligations.ValidityOfResults : Prop :=
  (Validity.valid.severity < Validity.crcFailed.severity ∧ Validity.crcFailed.severity < Validity.invalid.severity) ∧
  (∀ a b : Validity, (worse a b = a ∨ worse a b = b) ∧ a.severity ≤ (worse a b).severity ∧
    b.severity ≤ (worse a b).severity) ∧
  ∀ l : List CheckResult,
    (validityOf l = .invalid ↔ ∃ r ∈ l, r.kind ≠ .crc ∧ r.verdict = .failed) ∧
    (validityOf l = .crcFailed ↔ (∃ r ∈ l, r.kind = .crc ∧ r.verdict = .failed) ∧
      ∀ r ∈ l, r.kind ≠ .crc → r.verdict ≠ .failed) ∧
    (validityOf l = .valid ↔ ∀ r ∈ l, r.verdict ≠ .failed)

/-! ### The message factory -/

/-- 43_dispatch.md R350, R351: the fields of the message built from a header frame and its blocks. 20_memory.md R104: a
field inside the frame is the unsigned number of its bits, the first of them most significant. -/
def Obligations.MessageFields : Prop :=
  (∀ (bits : List Bool) (x : Field), x.off + x.width ≤ bits.length → field bits x < 2 ^ x.width ∧
    field bits x =
      ((List.range x.width).map fun i => (bits.getD (x.off + i) false).toNat * 2 ^ (x.width - 1 - i)).sum) ∧
  ∀ (cfg : Cfg) (h : Frame) (blocks : List Frame) (d : DuCfg) (m : Message), cfg.du? h.du = some d →
    m = buildMessage cfg h blocks →
    m.protocol = cfg.protocolTag ∧ m.du = h.du ∧ m.pattern = h.pat ∧ m.ts = h.ts ∧
    (∀ x, d.opcode = some x → m.opcode = BitVec.ofNat 32 (field h.bits x)) ∧ (d.opcode = none → m.opcode = 0) ∧
    (∀ x, d.vendor = some x → m.vendor = BitVec.ofNat 32 (field h.bits x) ∧ m.vendorPresent = true) ∧
    (d.vendor = none → m.vendor = cfg.standardVendor ∧ m.vendorPresent = false) ∧
    m.corrected = h.corrected + (blocks.map (·.corrected)).sum ∧ m.viol = h.viol + (blocks.map (·.viol)).sum ∧
    m.blockCount = BitVec.ofNat 16 (blocks.length + 1) ∧ m.bits = h.bits ++ (blocks.map (·.bits)).flatten ∧
    m.results = (((h :: blocks).zipIdx.map fun fi => fi.1.results.map fun r => { r with frame := fi.2 })).flatten ∧
    (∀ f ∈ h :: blocks, (validityOf f.results).severity ≤ m.validity.severity) ∧
    (∃ f ∈ h :: blocks, m.validity = validityOf f.results)

/-- 43_dispatch.md R352, R353: the standard vendor's opcodes are looked up in `primary`, any other vendor's in
`secondary`; an opcode without an entry makes a message of variant 0xFFFF, counted by UNKNOWN_MSG, and is emitted like
any other. -/
def Obligations.VariantLookup : Prop :=
  ∀ (s : State) (h : Frame) (blocks : List Frame) (m : Message) (entry : Option U16),
    m = buildMessage s.cfg h blocks →
    (entry = if m.vendor = s.cfg.standardVendor then s.cfg.primary.lookup (m.du, m.opcode)
             else s.cfg.secondary.lookup (m.du, m.vendor, m.opcode)) →
    (∀ v, entry = some v → m.variant = v ∧ emitFrames h blocks s = emit m s) ∧
    (entry = none → m.variant = 0xFFFF ∧
      emitFrames h blocks s = emit m { s with ctr := s.ctr.add .unknownMsg 1 })

/-- 43_dispatch.md R380: a message enters the queue behind those there, or is lost when the queue is full. -/
def Obligations.FullQueueDropsTheNewest : Prop :=
  ∀ (m : Message) (s : State),
    (s.outq.length < s.par.outqDepth →
      emit m s = { s with outq := s.outq ++ [m], ctr := s.ctr.add .msgEnqueued 1 }) ∧
    (s.par.outqDepth ≤ s.outq.length →
      emit m s = { s with err := s.err ||| 0x10, ctr := s.ctr.add .msgDropped 1 })

/-! ### Reassembly -/

/-- 43_dispatch.md R370, R371, R379: a Single frame, a header whose checks did not all pass or whose count is above B
(SEQ_REJECTED), and a header of no blocks are dispatched alone and open no sequence. -/
def Obligations.FramesDispatchedAlone : Prop :=
  ∀ (f : Frame) (now : U64) (s : State) (d : DuCfg), s.cfg.du? f.du = some d →
    (d.role = .single → handleFrame f now s = emitFrames f [] s) ∧
    ∀ cls kf cf, d.role = .header cls kf cf →
      (validityOf f.results ≠ .valid ∨ s.par.maxBlocks < field f.bits cf →
        handleFrame f now s = emitFrames f [] { s with ctr := s.ctr.add .seqRejected 1 }) ∧
      (validityOf f.results = .valid → field f.bits cf = 0 →
        handleFrame f now s = emitFrames f [] s ∧ (buildMessage s.cfg f []).blockCount = 1)

/-- 43_dispatch.md R373, R374, R375: a valid header of 1 to B blocks opens a sequence without a message; an entry of its
key is abandoned first, and otherwise a full table loses an entry with the least `last`, compared as a number as R373
writes it (log 15). -/
def Obligations.HeaderOpensASequence : Prop :=
  ∀ (f : Frame) (now : U64) (s : State) (d : DuCfg) (cls : U8) (kf : List Field) (cf : Field) (k : U8 × List U32)
    (new : SeqEntry),
    s.cfg.du? f.du = some d → d.role = .header cls kf cf → validityOf f.results = .valid →
    1 ≤ field f.bits cf → field f.bits cf ≤ s.par.maxBlocks →
    k = (cls, kf.map fun x => BitVec.ofNat 32 (field f.bits x)) →
    new = { key := k, header := f, blocks := [], expected := field f.bits cf, last := now } →
    ((∀ e ∈ s.seqs, e.key ≠ k) → s.seqs.length ≠ s.par.maxPending →
      handleFrame f now s = { s with seqs := s.seqs ++ [new], ctr := s.ctr.add .seqStarted 1 }) ∧
    (∀ pre old post, s.seqs = pre ++ old :: post → old.key = k → (∀ e ∈ pre, e.key ≠ k) →
      s.seqs.length ≤ s.par.maxPending →
      handleFrame f now s = { s with
        seqs := pre ++ post ++ [new], ctr := (s.ctr.add .seqAbandoned 1).add .seqStarted 1 }) ∧
    (∀ pre old post, s.seqs = pre ++ old :: post → (∀ e ∈ s.seqs, e.key ≠ k) →
      s.seqs.length = s.par.maxPending → (∀ e ∈ pre ++ post, old.last < e.last) →
      handleFrame f now s = { s with
        seqs := pre ++ post ++ [new], ctr := (s.ctr.add .seqEvicted 1).add .seqStarted 1 })

/-- 43_dispatch.md R377, R378: a block without an entry of its key is an orphan; one whose index is not the entry's next
is out of order; any other joins the entry, and the last one expected completes it into one message. No other entry
changes. -/
def Obligations.BlockJoinsItsSequence : Prop :=
  ∀ (f : Frame) (now : U64) (s : State) (d : DuCfg) (cls : U8) (kf : List Field) (xf : Option Field)
    (k : U8 × List U32),
    s.cfg.du? f.du = some d → d.role = .block cls kf xf →
    k = (cls, kf.map fun x => BitVec.ofNat 32 (field f.bits x)) →
    ((∀ e ∈ s.seqs, e.key ≠ k) → handleFrame f now s = { s with ctr := s.ctr.add .blockOrphan 1 }) ∧
    ∀ pre e post, s.seqs = pre ++ e :: post → e.key = k → (∀ e' ∈ pre, e'.key ≠ k) →
      (∀ x, xf = some x → field f.bits x ≠ e.blocks.length →
        handleFrame f now s = { s with ctr := s.ctr.add .blockOutOfOrder 1 }) ∧
      ((∀ x, xf = some x → field f.bits x = e.blocks.length) →
        (e.blocks.length + 1 ≠ e.expected → handleFrame f now s =
          { s with seqs := pre ++ { e with blocks := e.blocks ++ [f], last := now } :: post }) ∧
        (e.blocks.length + 1 = e.expected → handleFrame f now s =
          emitFrames e.header (e.blocks ++ [f])
            { s with seqs := pre ++ post, ctr := s.ctr.add .seqCompleted 1 }))

/-- 43_dispatch.md R376: the sweep removes exactly the entries whose age exceeds T, counts them, and changes nothing
else; every accepted unit meets the table it leaves. -/
def Obligations.TimeoutSweepRemovesStaleEntries : Prop :=
  ∀ (now : U64) (s : State),
    (sweepTimeouts now s).seqs.Sublist s.seqs ∧
    (∀ e, e ∈ (sweepTimeouts now s).seqs ↔ e ∈ s.seqs ∧ (now - e.last).toNat ≤ s.par.seqTimeout) ∧
    sweepTimeouts now s = { s with
      seqs := (sweepTimeouts now s).seqs
      ctr := s.ctr.add .seqTimeout (s.seqs.length - (sweepTimeouts now s).seqs.length) } ∧
    ∀ (i : Instr) (u : InputUnit), (admitted i u s).seqs = (sweepTimeouts s.unitCount s).seqs

/-- 43_dispatch.md section 3 (R381 is the spec's own inference): a valid header of N blocks followed by N blocks of its
key, in order, with room in the table, yields no message before the N-th block and then exactly the one message of all
its frames; the table is as before the header. -/
def Obligations.SequenceYieldsExactlyOneMessage : Prop :=
  ∀ (s : State) (h : Frame) (now : U64) (l : List (Frame × U64)) (d : DuCfg) (cls : U8) (kf : List Field) (cf : Field)
    (k : U8 × List U32),
    s.cfg.du? h.du = some d → d.role = .header cls kf cf → validityOf h.results = .valid →
    k = seqKey h cls kf → field h.bits cf = l.length → 1 ≤ l.length → l.length ≤ s.par.maxBlocks →
    (∀ e ∈ s.seqs, e.key ≠ k) → s.seqs.length < s.par.maxPending →
    (∀ j fn, l[j]? = some fn → ∃ b kf' xf, s.cfg.du? fn.1.du = some b ∧ b.role = .block cls kf' xf ∧
      seqKey fn.1 cls kf' = k ∧ ∀ x, xf = some x → field fn.1.bits x = j) →
    (∀ j, j < l.length → (feedFrames (handleFrame h now s) (l.take j)).outq = s.outq) ∧
    (feedFrames (handleFrame h now s) l).seqs = s.seqs ∧
    (feedFrames (handleFrame h now s) l).outq =
      if s.outq.length < s.par.outqDepth then s.outq ++ [buildMessage s.cfg h (l.map (·.1))] else s.outq

/-! ### Invariants every step keeps -/

/-- 10_state.md R55, R56, R57: the window, the table and the queue stay within W, M and Q, at every state whose
`cfg_ok` is the result of validation. -/
def Obligations.StepKeepsTheBounds : Prop :=
  ∀ s t : State, ConfigInv s → BoundsInv s → step s = .next t → ConfigInv t ∧ BoundsInv t

/-- 41_framer.md section 3 (R263 is the spec's own inference): a frame in assembly stays below its target and below F,
and its header below the header length. -/
def Obligations.StepKeepsFramesBelowTheirTarget : Prop :=
  ∀ s t : State, ConfigInv s → WindowKindInv s → FrameInv s → step s = .next t →
    ConfigInv t ∧ WindowKindInv t ∧ FrameInv t

/-- 43_dispatch.md R374: the table never holds two entries with one key, and every entry waits for at least one of at
most B blocks. -/
def Obligations.StepKeepsOneEntryPerKey : Prop :=
  ∀ s t : State, TableInv s → step s = .next t → TableInv t

/-- 43_dispatch.md R375: no two entries have the same `last`, so the least is unique; every entry was extended within
the timeout. -/
def Obligations.StepKeepsLastTimesDistinct : Prop :=
  ∀ s t : State, ConfigInv s → TimesInv s → step s = .next t → ConfigInv t ∧ TimesInv t

/-- 10_state.md R62: ERR bits 31:6 stay 0 and bit 0 stays CFG_INVALID. -/
def Obligations.StepKeepsErrWellFormed : Prop :=
  ∀ s t : State, ErrInv s → step s = .next t → ErrInv t
end

