-- ==== Sys2Proof/Laws/Decode.lean ====
section
/-! SUPPORT. The bits and fields of a command word, so that no proof about decoding or encoding unfolds `cmdWord`. -/

namespace Sys2Proof

/-- The bits of a command word by its four fields (30_encoding.md R150). -/
theorem cmdWord_getLsbD (opc : U8) (csrn : CsrNum) (data : U32) (i : Nat) :
    (cmdWord opc csrn data).getLsbD i =
      if i < 32 then data.getLsbD i
      else if i < 44 then csrn.getLsbD (i - 32)
      else if i < 56 then false
      else opc.getLsbD (i - 56) := by
  have h₁ := BitVec.getLsbD_append (x := opc ++ (0 : BitVec 12) ++ csrn) (y := data) (i := i)
  have h₂ := BitVec.getLsbD_append (x := opc ++ (0 : BitVec 12)) (y := csrn) (i := i - 32)
  have h₃ := BitVec.getLsbD_append (x := opc) (y := (0 : BitVec 12)) (i := i - 32 - 12)
  refine h₁.trans ?_
  rw [h₂, h₃]
  by_cases a : i < 32
  · rw [if_pos a, if_pos a]
  · rw [if_neg a, if_neg a]
    by_cases b : i < 44
    · rw [if_pos b, if_pos (by omega)]
    · rw [if_neg b, if_neg (by omega)]
      by_cases c : i < 56
      · rw [if_pos c, if_pos (by omega)]
        simp
      · rw [if_neg c, if_neg (by omega), show i - 32 - 12 - 12 = i - 56 by omega]

@[simp] theorem opcOf_cmdWord (opc : U8) (csrn : CsrNum) (data : U32) : opcOf (cmdWord opc csrn data) = opc := by
  refine BitVec.eq_of_getLsbD_eq fun i hi => ?_
  rw [opcOf, BitVec.getLsbD_extractLsb', cmdWord_getLsbD]
  simp [hi, show ¬ 56 + i < 32 by omega, show ¬ 56 + i < 44 by omega]

@[simp] theorem rsvdOf_cmdWord (opc : U8) (csrn : CsrNum) (data : U32) : rsvdOf (cmdWord opc csrn data) = 0 := by
  refine BitVec.eq_of_getLsbD_eq fun i hi => ?_
  rw [rsvdOf, BitVec.getLsbD_extractLsb', cmdWord_getLsbD]
  simp [hi, show ¬ 44 + i < 32 by omega, show 44 + i < 56 by omega]

@[simp] theorem csrOf_cmdWord (opc : U8) (csrn : CsrNum) (data : U32) : csrOf (cmdWord opc csrn data) = csrn := by
  refine BitVec.eq_of_getLsbD_eq fun i hi => ?_
  rw [csrOf, BitVec.getLsbD_extractLsb', cmdWord_getLsbD]
  simp [hi, show 32 + i < 44 by omega]

@[simp] theorem dataOf_cmdWord (opc : U8) (csrn : CsrNum) (data : U32) : dataOf (cmdWord opc csrn data) = data := by
  refine BitVec.eq_of_getLsbD_eq fun i hi => ?_
  rw [dataOf, BitVec.getLsbD_extractLsb', cmdWord_getLsbD]
  simp [hi]

/-- A word is the command word of its fields when its RSVD field is zero. -/
theorem cmdWord_of_fields (w : Word) (h : rsvdOf w = 0) : cmdWord (opcOf w) (csrOf w) (dataOf w) = w := by
  refine BitVec.eq_of_getLsbD_eq fun i hi => ?_
  rw [cmdWord_getLsbD]
  split
  · simp [dataOf, *]
  · split
    · simp only [csrOf, BitVec.getLsbD_extractLsb']
      rw [show 32 + (i - 32) = i by omega]
      simp [show i - 32 < 12 by omega]
    · split
      · have h' := congrArg (fun v => v.getLsbD (i - 44)) h
        simp only [rsvdOf, BitVec.getLsbD_extractLsb', show 44 + (i - 44) = i by omega] at h'
        simpa [show i - 44 < 12 by omega] using h'.symm
      · simp only [opcOf, BitVec.getLsbD_extractLsb']
        rw [show 56 + (i - 56) = i by omega]
        simp [show i - 56 < 8 by omega]

end Sys2Proof
end

