-- ==== Sys2Proof/Laws/State.lean ====
section
/-! SUPPORT. One lemma per field per update of the state, each true by `rfl`, so that no proof unfolds an update; and the
counters read after an addition. -/

namespace Sys2Proof.Machine

@[simp] theorem State.setErr_cfg (s : State) (e : ErrBit) : (s.setErr e).cfg = s.cfg := rfl
@[simp] theorem State.setErr_par (s : State) (e : ErrBit) : (s.setErr e).par = s.par := rfl
@[simp] theorem State.setErr_cfgOk (s : State) (e : ErrBit) : (s.setErr e).cfgOk = s.cfgOk := rfl
@[simp] theorem State.setErr_lock (s : State) (e : ErrBit) : (s.setErr e).lock = s.lock := rfl
@[simp] theorem State.setErr_window (s : State) (e : ErrBit) : (s.setErr e).window = s.window := rfl
@[simp] theorem State.setErr_seqs (s : State) (e : ErrBit) : (s.setErr e).seqs = s.seqs := rfl
@[simp] theorem State.setErr_outq (s : State) (e : ErrBit) : (s.setErr e).outq = s.outq := rfl
@[simp] theorem State.setErr_unitCount (s : State) (e : ErrBit) : (s.setErr e).unitCount = s.unitCount := rfl
@[simp] theorem State.setErr_err (s : State) (e : ErrBit) : (s.setErr e).err = s.err ||| (1 : U32) <<< e.code := rfl
@[simp] theorem State.setErr_ctr (s : State) (e : ErrBit) : (s.setErr e).ctr = s.ctr := rfl
@[simp] theorem State.setErr_resp (s : State) (e : ErrBit) : (s.setErr e).resp = s.resp := rfl
@[simp] theorem State.setErr_cmds (s : State) (e : ErrBit) : (s.setErr e).cmds = s.cmds := rfl

@[simp] theorem State.count_cfg (s : State) (name : CounterName) (k : Nat) : (s.count name k).cfg = s.cfg := rfl
@[simp] theorem State.count_par (s : State) (name : CounterName) (k : Nat) : (s.count name k).par = s.par := rfl
@[simp] theorem State.count_cfgOk (s : State) (name : CounterName) (k : Nat) : (s.count name k).cfgOk = s.cfgOk := rfl
@[simp] theorem State.count_lock (s : State) (name : CounterName) (k : Nat) : (s.count name k).lock = s.lock := rfl
@[simp] theorem State.count_window (s : State) (name : CounterName) (k : Nat) : (s.count name k).window = s.window := rfl
@[simp] theorem State.count_seqs (s : State) (name : CounterName) (k : Nat) : (s.count name k).seqs = s.seqs := rfl
@[simp] theorem State.count_outq (s : State) (name : CounterName) (k : Nat) : (s.count name k).outq = s.outq := rfl
@[simp] theorem State.count_unitCount (s : State) (name : CounterName) (k : Nat) : (s.count name k).unitCount = s.unitCount := rfl
@[simp] theorem State.count_err (s : State) (name : CounterName) (k : Nat) : (s.count name k).err = s.err := rfl
@[simp] theorem State.count_ctr (s : State) (name : CounterName) (k : Nat) : (s.count name k).ctr = s.ctr.add name k := rfl
@[simp] theorem State.count_resp (s : State) (name : CounterName) (k : Nat) : (s.count name k).resp = s.resp := rfl
@[simp] theorem State.count_cmds (s : State) (name : CounterName) (k : Nat) : (s.count name k).cmds = s.cmds := rfl

@[simp] theorem State.respond_cfg (s : State) (r : Resp) : (s.respond r).cfg = s.cfg := rfl
@[simp] theorem State.respond_par (s : State) (r : Resp) : (s.respond r).par = s.par := rfl
@[simp] theorem State.respond_cfgOk (s : State) (r : Resp) : (s.respond r).cfgOk = s.cfgOk := rfl
@[simp] theorem State.respond_lock (s : State) (r : Resp) : (s.respond r).lock = s.lock := rfl
@[simp] theorem State.respond_window (s : State) (r : Resp) : (s.respond r).window = s.window := rfl
@[simp] theorem State.respond_seqs (s : State) (r : Resp) : (s.respond r).seqs = s.seqs := rfl
@[simp] theorem State.respond_outq (s : State) (r : Resp) : (s.respond r).outq = s.outq := rfl
@[simp] theorem State.respond_unitCount (s : State) (r : Resp) : (s.respond r).unitCount = s.unitCount := rfl
@[simp] theorem State.respond_err (s : State) (r : Resp) : (s.respond r).err = s.err := rfl
@[simp] theorem State.respond_ctr (s : State) (r : Resp) : (s.respond r).ctr = s.ctr := rfl
@[simp] theorem State.respond_resp (s : State) (r : Resp) : (s.respond r).resp = r := rfl
@[simp] theorem State.respond_cmds (s : State) (r : Resp) : (s.respond r).cmds = s.cmds := rfl

@[simp] theorem State.setLock_cfg (s : State) (l : Lock) : (s.setLock l).cfg = s.cfg := rfl
@[simp] theorem State.setLock_par (s : State) (l : Lock) : (s.setLock l).par = s.par := rfl
@[simp] theorem State.setLock_cfgOk (s : State) (l : Lock) : (s.setLock l).cfgOk = s.cfgOk := rfl
@[simp] theorem State.setLock_lock (s : State) (l : Lock) : (s.setLock l).lock = l := rfl
@[simp] theorem State.setLock_window (s : State) (l : Lock) : (s.setLock l).window = s.window := rfl
@[simp] theorem State.setLock_seqs (s : State) (l : Lock) : (s.setLock l).seqs = s.seqs := rfl
@[simp] theorem State.setLock_outq (s : State) (l : Lock) : (s.setLock l).outq = s.outq := rfl
@[simp] theorem State.setLock_unitCount (s : State) (l : Lock) : (s.setLock l).unitCount = s.unitCount := rfl
@[simp] theorem State.setLock_err (s : State) (l : Lock) : (s.setLock l).err = s.err := rfl
@[simp] theorem State.setLock_ctr (s : State) (l : Lock) : (s.setLock l).ctr = s.ctr := rfl
@[simp] theorem State.setLock_resp (s : State) (l : Lock) : (s.setLock l).resp = s.resp := rfl
@[simp] theorem State.setLock_cmds (s : State) (l : Lock) : (s.setLock l).cmds = s.cmds := rfl

@[simp] theorem State.setWindow_cfg (s : State) (w : List InputUnit) : (s.setWindow w).cfg = s.cfg := rfl
@[simp] theorem State.setWindow_par (s : State) (w : List InputUnit) : (s.setWindow w).par = s.par := rfl
@[simp] theorem State.setWindow_cfgOk (s : State) (w : List InputUnit) : (s.setWindow w).cfgOk = s.cfgOk := rfl
@[simp] theorem State.setWindow_lock (s : State) (w : List InputUnit) : (s.setWindow w).lock = s.lock := rfl
@[simp] theorem State.setWindow_window (s : State) (w : List InputUnit) : (s.setWindow w).window = w := rfl
@[simp] theorem State.setWindow_seqs (s : State) (w : List InputUnit) : (s.setWindow w).seqs = s.seqs := rfl
@[simp] theorem State.setWindow_outq (s : State) (w : List InputUnit) : (s.setWindow w).outq = s.outq := rfl
@[simp] theorem State.setWindow_unitCount (s : State) (w : List InputUnit) : (s.setWindow w).unitCount = s.unitCount := rfl
@[simp] theorem State.setWindow_err (s : State) (w : List InputUnit) : (s.setWindow w).err = s.err := rfl
@[simp] theorem State.setWindow_ctr (s : State) (w : List InputUnit) : (s.setWindow w).ctr = s.ctr := rfl
@[simp] theorem State.setWindow_resp (s : State) (w : List InputUnit) : (s.setWindow w).resp = s.resp := rfl
@[simp] theorem State.setWindow_cmds (s : State) (w : List InputUnit) : (s.setWindow w).cmds = s.cmds := rfl

@[simp] theorem State.setSeqs_cfg (s : State) (t : List SeqEntry) : (s.setSeqs t).cfg = s.cfg := rfl
@[simp] theorem State.setSeqs_par (s : State) (t : List SeqEntry) : (s.setSeqs t).par = s.par := rfl
@[simp] theorem State.setSeqs_cfgOk (s : State) (t : List SeqEntry) : (s.setSeqs t).cfgOk = s.cfgOk := rfl
@[simp] theorem State.setSeqs_lock (s : State) (t : List SeqEntry) : (s.setSeqs t).lock = s.lock := rfl
@[simp] theorem State.setSeqs_window (s : State) (t : List SeqEntry) : (s.setSeqs t).window = s.window := rfl
@[simp] theorem State.setSeqs_seqs (s : State) (t : List SeqEntry) : (s.setSeqs t).seqs = t := rfl
@[simp] theorem State.setSeqs_outq (s : State) (t : List SeqEntry) : (s.setSeqs t).outq = s.outq := rfl
@[simp] theorem State.setSeqs_unitCount (s : State) (t : List SeqEntry) : (s.setSeqs t).unitCount = s.unitCount := rfl
@[simp] theorem State.setSeqs_err (s : State) (t : List SeqEntry) : (s.setSeqs t).err = s.err := rfl
@[simp] theorem State.setSeqs_ctr (s : State) (t : List SeqEntry) : (s.setSeqs t).ctr = s.ctr := rfl
@[simp] theorem State.setSeqs_resp (s : State) (t : List SeqEntry) : (s.setSeqs t).resp = s.resp := rfl
@[simp] theorem State.setSeqs_cmds (s : State) (t : List SeqEntry) : (s.setSeqs t).cmds = s.cmds := rfl

@[simp] theorem State.setOutq_cfg (s : State) (q : List Message) : (s.setOutq q).cfg = s.cfg := rfl
@[simp] theorem State.setOutq_par (s : State) (q : List Message) : (s.setOutq q).par = s.par := rfl
@[simp] theorem State.setOutq_cfgOk (s : State) (q : List Message) : (s.setOutq q).cfgOk = s.cfgOk := rfl
@[simp] theorem State.setOutq_lock (s : State) (q : List Message) : (s.setOutq q).lock = s.lock := rfl
@[simp] theorem State.setOutq_window (s : State) (q : List Message) : (s.setOutq q).window = s.window := rfl
@[simp] theorem State.setOutq_seqs (s : State) (q : List Message) : (s.setOutq q).seqs = s.seqs := rfl
@[simp] theorem State.setOutq_outq (s : State) (q : List Message) : (s.setOutq q).outq = q := rfl
@[simp] theorem State.setOutq_unitCount (s : State) (q : List Message) : (s.setOutq q).unitCount = s.unitCount := rfl
@[simp] theorem State.setOutq_err (s : State) (q : List Message) : (s.setOutq q).err = s.err := rfl
@[simp] theorem State.setOutq_ctr (s : State) (q : List Message) : (s.setOutq q).ctr = s.ctr := rfl
@[simp] theorem State.setOutq_resp (s : State) (q : List Message) : (s.setOutq q).resp = s.resp := rfl
@[simp] theorem State.setOutq_cmds (s : State) (q : List Message) : (s.setOutq q).cmds = s.cmds := rfl

@[simp] theorem State.setUnitCount_cfg (s : State) (n : U64) : (s.setUnitCount n).cfg = s.cfg := rfl
@[simp] theorem State.setUnitCount_par (s : State) (n : U64) : (s.setUnitCount n).par = s.par := rfl
@[simp] theorem State.setUnitCount_cfgOk (s : State) (n : U64) : (s.setUnitCount n).cfgOk = s.cfgOk := rfl
@[simp] theorem State.setUnitCount_lock (s : State) (n : U64) : (s.setUnitCount n).lock = s.lock := rfl
@[simp] theorem State.setUnitCount_window (s : State) (n : U64) : (s.setUnitCount n).window = s.window := rfl
@[simp] theorem State.setUnitCount_seqs (s : State) (n : U64) : (s.setUnitCount n).seqs = s.seqs := rfl
@[simp] theorem State.setUnitCount_outq (s : State) (n : U64) : (s.setUnitCount n).outq = s.outq := rfl
@[simp] theorem State.setUnitCount_unitCount (s : State) (n : U64) : (s.setUnitCount n).unitCount = n := rfl
@[simp] theorem State.setUnitCount_err (s : State) (n : U64) : (s.setUnitCount n).err = s.err := rfl
@[simp] theorem State.setUnitCount_ctr (s : State) (n : U64) : (s.setUnitCount n).ctr = s.ctr := rfl
@[simp] theorem State.setUnitCount_resp (s : State) (n : U64) : (s.setUnitCount n).resp = s.resp := rfl
@[simp] theorem State.setUnitCount_cmds (s : State) (n : U64) : (s.setUnitCount n).cmds = s.cmds := rfl

@[simp] theorem State.setCmds_cfg (s : State) (ws : List Word) : (s.setCmds ws).cfg = s.cfg := rfl
@[simp] theorem State.setCmds_par (s : State) (ws : List Word) : (s.setCmds ws).par = s.par := rfl
@[simp] theorem State.setCmds_cfgOk (s : State) (ws : List Word) : (s.setCmds ws).cfgOk = s.cfgOk := rfl
@[simp] theorem State.setCmds_lock (s : State) (ws : List Word) : (s.setCmds ws).lock = s.lock := rfl
@[simp] theorem State.setCmds_window (s : State) (ws : List Word) : (s.setCmds ws).window = s.window := rfl
@[simp] theorem State.setCmds_seqs (s : State) (ws : List Word) : (s.setCmds ws).seqs = s.seqs := rfl
@[simp] theorem State.setCmds_outq (s : State) (ws : List Word) : (s.setCmds ws).outq = s.outq := rfl
@[simp] theorem State.setCmds_unitCount (s : State) (ws : List Word) : (s.setCmds ws).unitCount = s.unitCount := rfl
@[simp] theorem State.setCmds_err (s : State) (ws : List Word) : (s.setCmds ws).err = s.err := rfl
@[simp] theorem State.setCmds_ctr (s : State) (ws : List Word) : (s.setCmds ws).ctr = s.ctr := rfl
@[simp] theorem State.setCmds_resp (s : State) (ws : List Word) : (s.setCmds ws).resp = s.resp := rfl
@[simp] theorem State.setCmds_cmds (s : State) (ws : List Word) : (s.setCmds ws).cmds = ws := rfl

@[simp] theorem clearCounters_cfg (s : State) : (clearCounters s).cfg = s.cfg := rfl
@[simp] theorem clearCounters_par (s : State) : (clearCounters s).par = s.par := rfl
@[simp] theorem clearCounters_cfgOk (s : State) : (clearCounters s).cfgOk = s.cfgOk := rfl
@[simp] theorem clearCounters_lock (s : State) : (clearCounters s).lock = s.lock := rfl
@[simp] theorem clearCounters_window (s : State) : (clearCounters s).window = s.window := rfl
@[simp] theorem clearCounters_seqs (s : State) : (clearCounters s).seqs = s.seqs := rfl
@[simp] theorem clearCounters_outq (s : State) : (clearCounters s).outq = s.outq := rfl
@[simp] theorem clearCounters_unitCount (s : State) : (clearCounters s).unitCount = s.unitCount := rfl
@[simp] theorem clearCounters_err (s : State) : (clearCounters s).err = s.err := rfl
@[simp] theorem clearCounters_ctr (s : State) : (clearCounters s).ctr = Counters.zero := rfl
@[simp] theorem clearCounters_resp (s : State) : (clearCounters s).resp = s.resp := rfl
@[simp] theorem clearCounters_cmds (s : State) : (clearCounters s).cmds = s.cmds := rfl

@[simp] theorem clearErrors_cfg (s : State) : (clearErrors s).cfg = s.cfg := rfl
@[simp] theorem clearErrors_par (s : State) : (clearErrors s).par = s.par := rfl
@[simp] theorem clearErrors_cfgOk (s : State) : (clearErrors s).cfgOk = s.cfgOk := rfl
@[simp] theorem clearErrors_lock (s : State) : (clearErrors s).lock = s.lock := rfl
@[simp] theorem clearErrors_window (s : State) : (clearErrors s).window = s.window := rfl
@[simp] theorem clearErrors_seqs (s : State) : (clearErrors s).seqs = s.seqs := rfl
@[simp] theorem clearErrors_outq (s : State) : (clearErrors s).outq = s.outq := rfl
@[simp] theorem clearErrors_unitCount (s : State) : (clearErrors s).unitCount = s.unitCount := rfl
@[simp] theorem clearErrors_err (s : State) : (clearErrors s).err = s.err &&& 0x00000001 := rfl
@[simp] theorem clearErrors_ctr (s : State) : (clearErrors s).ctr = s.ctr := rfl
@[simp] theorem clearErrors_resp (s : State) : (clearErrors s).resp = s.resp := rfl
@[simp] theorem clearErrors_cmds (s : State) : (clearErrors s).cmds = s.cmds := rfl

/-- OUTQ_FULL for every capacity in the range of 00_scope.md R9. -/
theorem State.outqFull_iff {s : State} (h : 1 ≤ s.par.outqDepth) :
    s.outqFull = true ↔ s.outq.length = s.par.outqDepth := by
  simp [State.outqFull, Nat.lt_of_lt_of_le Nat.zero_lt_one h]

/-- A queue of capacity 0 is never full (log 16). -/
theorem State.outqFull_eq_false {s : State} (h : s.par.outqDepth = 0) : s.outqFull = false := by
  simp [State.outqFull, h]

/-- A counter read after `ctr.NAME += k` (10_state.md R67): the named one has grown modulo 2^32, every other is as
before. -/
theorem Counters.get_add (c : Counters) (name other : CounterName) (k : Nat) :
    (c.add name k).get other = if other = name then c.get name + BitVec.ofNat 32 k else c.get other := by
  cases name <;> cases other <;> rfl

@[simp] theorem Counters.get_add_self (c : Counters) (name : CounterName) (k : Nat) :
    (c.add name k).get name = c.get name + BitVec.ofNat 32 k := by
  cases name <;> rfl

@[simp] theorem Counters.get_add_ne (c : Counters) {name other : CounterName} (h : other ≠ name) (k : Nat) :
    (c.add name k).get other = c.get other := by
  rw [Counters.get_add, if_neg h]

/-- Two counter records that read alike are equal. -/
theorem Counters.ext_get {c d : Counters} (h : ∀ name, c.get name = d.get name) : c = d := by
  cases c; cases d
  simp only [Counters.mk.injEq]
  exact ⟨h .syncDetect, h .syncAmbiguous, h .frameResyncDiscard, h .frameHdrDiscard, h .frameLenDiscard,
    h .frameComplete, h .msgEnqueued, h .msgDropped, h .seqStarted, h .seqCompleted, h .seqAbandoned, h .seqEvicted,
    h .seqTimeout, h .seqRejected, h .blockOrphan, h .blockOutOfOrder, h .checkFailed, h .bitsCorrected,
    h .trellisViolations, h .unknownMsg, h .illegalCmd, h .nanInput⟩

/-- Adding 0 changes no counter. -/
@[simp] theorem Counters.add_zero (c : Counters) (name : CounterName) : c.add name 0 = c := by
  refine Counters.ext_get fun other => ?_
  rw [Counters.get_add]
  split <;> simp_all

@[simp] theorem State.count_zero (s : State) (name : CounterName) : s.count name 0 = s := by
  simp [State.count]

@[simp] theorem Counters.get_zero (name : CounterName) : Counters.zero.get name = 0 := by
  cases name <;> rfl

end Sys2Proof.Machine
end

