-- ==== Sys2Proof/Laws/Ops.lean ====
section
/-! SUPPORT. What each shared operation can do, said once: what it never touches (`SameBase`), what it does to the output
queue (`Quiet`, `Output`), and its cases. -/

namespace Sys2Proof.Machine

/-- What no stage behind the window push touches: the configuration, the window, the unit count, the host interface
and ILLEGAL_CMD. -/
structure SameBase (s t : State) : Prop where
  cfg : t.cfg = s.cfg
  par : t.par = s.par
  cfgOk : t.cfgOk = s.cfgOk
  window : t.window = s.window
  unitCount : t.unitCount = s.unitCount
  resp : t.resp = s.resp
  cmds : t.cmds = s.cmds
  illegalCmd : t.ctr.get .illegalCmd = s.ctr.get .illegalCmd

theorem SameBase.refl (s : State) : SameBase s s := ⟨rfl, rfl, rfl, rfl, rfl, rfl, rfl, rfl⟩

theorem SameBase.trans {s t u : State} (h : SameBase s t) (h' : SameBase t u) : SameBase s u :=
  ⟨h'.cfg.trans h.cfg, h'.par.trans h.par, h'.cfgOk.trans h.cfgOk, h'.window.trans h.window,
    h'.unitCount.trans h.unitCount, h'.resp.trans h.resp, h'.cmds.trans h.cmds, h'.illegalCmd.trans h.illegalCmd⟩

theorem sameBase_count (s : State) {name : CounterName} (h : name ≠ .illegalCmd) (k : Nat) :
    SameBase s (s.count name k) :=
  ⟨rfl, rfl, rfl, rfl, rfl, rfl, rfl, Counters.get_add_ne _ h.symm k⟩

theorem sameBase_setErr (s : State) (e : ErrBit) : SameBase s (s.setErr e) := ⟨rfl, rfl, rfl, rfl, rfl, rfl, rfl, rfl⟩
theorem sameBase_setLock (s : State) (l : Lock) : SameBase s (s.setLock l) := ⟨rfl, rfl, rfl, rfl, rfl, rfl, rfl, rfl⟩
theorem sameBase_setSeqs (s : State) (t : List SeqEntry) : SameBase s (s.setSeqs t) :=
  ⟨rfl, rfl, rfl, rfl, rfl, rfl, rfl, rfl⟩
theorem sameBase_setOutq (s : State) (q : List Message) : SameBase s (s.setOutq q) :=
  ⟨rfl, rfl, rfl, rfl, rfl, rfl, rfl, rfl⟩

/-- An operation that leaves the output queue and the error bits alone. -/
def Quiet (s t : State) : Prop := t.outq = s.outq ∧ t.err = s.err

theorem Quiet.refl (s : State) : Quiet s s := ⟨rfl, rfl⟩
theorem Quiet.trans {s t u : State} (h : Quiet s t) (h' : Quiet t u) : Quiet s u :=
  ⟨h'.1.trans h.1, h'.2.trans h.2⟩

/-- What one PUSH can do to the output queue and the error bits: nothing, one message behind the others, or one
message lost with OUTQ_OVERFLOW (43_dispatch.md R380). -/
def Output (s t : State) : Prop :=
  Quiet s t ∨ (∃ m, s.outq.length < s.par.outqDepth ∧ t.outq = s.outq ++ [m] ∧ t.err = s.err) ∨
    (s.par.outqDepth ≤ s.outq.length ∧ t.outq = s.outq ∧ t.err = s.err ||| 0x10)

theorem Quiet.output {s t : State} (h : Quiet s t) : Output s t := .inl h

theorem Output.of_quiet_left {s t u : State} (h : Quiet s t) (hp : t.par = s.par) (h' : Output t u) : Output s u := by
  obtain ⟨hq, he⟩ := h
  simpa only [Output, Quiet, hq, he, hp] using h'

/-! ### emit and the message factory -/

/-- `emit` (43_dispatch.md R380) either appends the message or drops it. -/
theorem emit_cases (m : Message) (s : State) :
    (s.outq.length < s.par.outqDepth ∧ emit m s = (s.setOutq (s.outq ++ [m])).count .msgEnqueued 1) ∨
      (s.par.outqDepth ≤ s.outq.length ∧ emit m s = (s.count .msgDropped 1).setErr .outqOverflow) := by
  unfold emit
  split
  · exact .inl ⟨‹_›, rfl⟩
  · exact .inr ⟨by omega, rfl⟩

theorem emit_base (m : Message) (s : State) : SameBase s (emit m s) := by
  obtain ⟨-, h⟩ | ⟨-, h⟩ := emit_cases m s <;> rw [h]
  · exact (sameBase_setOutq _ _).trans (sameBase_count _ (by decide) _)
  · exact (sameBase_count _ (by decide) _).trans (sameBase_setErr _ _)

theorem emit_output (m : Message) (s : State) : Output s (emit m s) := by
  obtain ⟨hl, h⟩ | ⟨hl, h⟩ := emit_cases m s <;> rw [h]
  · exact .inr (.inl ⟨m, hl, rfl, rfl⟩)
  · exact .inr (.inr ⟨hl, rfl, rfl⟩)

@[simp] theorem emit_seqs (m : Message) (s : State) : (emit m s).seqs = s.seqs := by
  obtain ⟨-, h⟩ | ⟨-, h⟩ := emit_cases m s <;> (rw [h]; rfl)

@[simp] theorem emit_lock (m : Message) (s : State) : (emit m s).lock = s.lock := by
  obtain ⟨-, h⟩ | ⟨-, h⟩ := emit_cases m s <;> (rw [h]; rfl)

theorem emit_outq (m : Message) (s : State) :
    (emit m s).outq = if s.outq.length < s.par.outqDepth then s.outq ++ [m] else s.outq := by
  unfold emit
  split <;> rfl

/-- `countUnknown` is the state, or the state with UNKNOWN_MSG counted. -/
theorem countUnknown_cases (h : Frame) (s : State) :
    countUnknown h s = s ∨ countUnknown h s = s.count .unknownMsg 1 := by
  unfold countUnknown
  split
  · exact .inl rfl
  · exact .inr rfl

theorem countUnknown_base (h : Frame) (s : State) : SameBase s (countUnknown h s) := by
  obtain e | e := countUnknown_cases h s <;> rw [e]
  · exact .refl s
  · exact sameBase_count _ (by decide) _

theorem countUnknown_quiet (h : Frame) (s : State) : Quiet s (countUnknown h s) := by
  obtain e | e := countUnknown_cases h s <;> rw [e] <;> exact ⟨rfl, rfl⟩

@[simp] theorem countUnknown_seqs (h : Frame) (s : State) : (countUnknown h s).seqs = s.seqs := by
  obtain e | e := countUnknown_cases h s <;> simp [e]

@[simp] theorem countUnknown_lock (h : Frame) (s : State) : (countUnknown h s).lock = s.lock := by
  obtain e | e := countUnknown_cases h s <;> simp [e]

theorem emitFrames_base (h : Frame) (blocks : List Frame) (s : State) : SameBase s (emitFrames h blocks s) :=
  (countUnknown_base h s).trans (emit_base _ _)

theorem emitFrames_output (h : Frame) (blocks : List Frame) (s : State) : Output s (emitFrames h blocks s) :=
  .of_quiet_left (countUnknown_quiet h s) (countUnknown_base h s).par (emit_output _ _)

@[simp] theorem emitFrames_seqs (h : Frame) (blocks : List Frame) (s : State) :
    (emitFrames h blocks s).seqs = s.seqs := by
  simp [emitFrames]

@[simp] theorem emitFrames_lock (h : Frame) (blocks : List Frame) (s : State) :
    (emitFrames h blocks s).lock = s.lock := by
  simp [emitFrames]

theorem emitFrames_outq (h : Frame) (blocks : List Frame) (s : State) :
    (emitFrames h blocks s).outq =
      if s.outq.length < s.par.outqDepth then s.outq ++ [buildMessage s.cfg h blocks] else s.outq := by
  rw [emitFrames, emit_outq, (countUnknown_quiet h s).1, (countUnknown_base h s).par]

/-! ### The reassembly table -/

/-- `abandonSeq` (43_dispatch.md R374): the state, or the state without the first entry of the key. -/
theorem abandonSeq_cases (k : U8 × List U32) (s : State) :
    ((∀ e ∈ s.seqs, e.key ≠ k) ∧ abandonSeq k s = s) ∨
      ((∃ e ∈ s.seqs, e.key = k) ∧ abandonSeq k s = (s.setSeqs (removeSeq s.seqs k)).count .seqAbandoned 1) := by
  unfold abandonSeq findSeq
  split
  · rename_i h
    rw [List.find?_isSome] at h
    exact .inr ⟨by simpa [hasKey] using h, rfl⟩
  · rename_i h
    rw [List.find?_isSome] at h
    exact .inl ⟨by simpa [hasKey] using h, rfl⟩

/-- `makeRoom` (R375): the state, or the state without the entry `oldestSeq` names. -/
theorem makeRoom_cases (s : State) :
    (s.seqs.length ≠ s.par.maxPending ∧ makeRoom s = s) ∨
      (s.seqs.length = s.par.maxPending ∧ makeRoom s = (s.setSeqs (evictOldest s.seqs)).count .seqEvicted 1) := by
  unfold makeRoom
  split
  · exact .inr ⟨‹_›, rfl⟩
  · exact .inl ⟨‹_›, rfl⟩

theorem abandonSeq_base (k : U8 × List U32) (s : State) : SameBase s (abandonSeq k s) := by
  obtain ⟨-, h⟩ | ⟨-, h⟩ := abandonSeq_cases k s <;> rw [h]
  · exact .refl s
  · exact (sameBase_setSeqs _ _).trans (sameBase_count _ (by decide) _)

theorem abandonSeq_quiet (k : U8 × List U32) (s : State) : Quiet s (abandonSeq k s) := by
  obtain ⟨-, h⟩ | ⟨-, h⟩ := abandonSeq_cases k s <;> rw [h] <;> exact ⟨rfl, rfl⟩

@[simp] theorem abandonSeq_lock (k : U8 × List U32) (s : State) : (abandonSeq k s).lock = s.lock := by
  obtain ⟨-, h⟩ | ⟨-, h⟩ := abandonSeq_cases k s <;> simp [h]

theorem makeRoom_base (s : State) : SameBase s (makeRoom s) := by
  obtain ⟨-, h⟩ | ⟨-, h⟩ := makeRoom_cases s <;> rw [h]
  · exact .refl s
  · exact (sameBase_setSeqs _ _).trans (sameBase_count _ (by decide) _)

theorem makeRoom_quiet (s : State) : Quiet s (makeRoom s) := by
  obtain ⟨-, h⟩ | ⟨-, h⟩ := makeRoom_cases s <;> rw [h] <;> exact ⟨rfl, rfl⟩

@[simp] theorem makeRoom_lock (s : State) : (makeRoom s).lock = s.lock := by
  obtain ⟨-, h⟩ | ⟨-, h⟩ := makeRoom_cases s <;> simp [h]

theorem openSequence_base (f : Frame) (k : U8 × List U32) (count : Nat) (now : U64) (s : State) :
    SameBase s (openSequence f k count now s) :=
  (abandonSeq_base k s).trans ((makeRoom_base _).trans ((sameBase_setSeqs _ _).trans (sameBase_count _ (by decide) _)))

theorem openSequence_quiet (f : Frame) (k : U8 × List U32) (count : Nat) (now : U64) (s : State) :
    Quiet s (openSequence f k count now s) :=
  (abandonSeq_quiet k s).trans ((makeRoom_quiet _).trans ⟨rfl, rfl⟩)

@[simp] theorem openSequence_lock (f : Frame) (k : U8 × List U32) (count : Nat) (now : U64) (s : State) :
    (openSequence f k count now s).lock = s.lock := by
  simp [openSequence]

/-- `headerFrame` (R371, R379): rejected, empty, or opening a sequence. -/
theorem headerFrame_cases (f : Frame) (cls : U8) (kf : List Field) (cf : Field) (now : U64) (s : State) :
    ((validityOf f.results ≠ .valid ∨ s.par.maxBlocks < field f.bits cf) ∧
        headerFrame f cls kf cf now s = emitFrames f [] (s.count .seqRejected 1)) ∨
      (validityOf f.results = .valid ∧ field f.bits cf = 0 ∧ headerFrame f cls kf cf now s = emitFrames f [] s) ∨
      (validityOf f.results = .valid ∧ 1 ≤ field f.bits cf ∧ field f.bits cf ≤ s.par.maxBlocks ∧
        headerFrame f cls kf cf now s = openSequence f (seqKey f cls kf) (field f.bits cf) now s) := by
  unfold headerFrame
  dsimp only
  split
  · exact .inl ⟨‹_›, rfl⟩
  · rename_i h
    rw [not_or, not_not] at h
    split
    · exact .inr (.inl ⟨h.1, ‹_›, rfl⟩)
    · exact .inr (.inr ⟨h.1, by omega, by omega, rfl⟩)

theorem headerFrame_base (f : Frame) (cls : U8) (kf : List Field) (cf : Field) (now : U64) (s : State) :
    SameBase s (headerFrame f cls kf cf now s) := by
  obtain ⟨-, h⟩ | ⟨-, -, h⟩ | ⟨-, -, -, h⟩ := headerFrame_cases f cls kf cf now s <;> rw [h]
  · exact (sameBase_count _ (by decide) _).trans (emitFrames_base _ _ _)
  · exact emitFrames_base _ _ _
  · exact openSequence_base _ _ _ _ _

theorem headerFrame_output (f : Frame) (cls : U8) (kf : List Field) (cf : Field) (now : U64) (s : State) :
    Output s (headerFrame f cls kf cf now s) := by
  obtain ⟨-, h⟩ | ⟨-, -, h⟩ | ⟨-, -, -, h⟩ := headerFrame_cases f cls kf cf now s <;> rw [h]
  · exact .of_quiet_left ⟨rfl, rfl⟩ rfl (emitFrames_output _ _ (s.count .seqRejected 1))
  · exact emitFrames_output _ _ _
  · exact (openSequence_quiet _ _ _ _ _).output

@[simp] theorem headerFrame_lock (f : Frame) (cls : U8) (kf : List Field) (cf : Field) (now : U64) (s : State) :
    (headerFrame f cls kf cf now s).lock = s.lock := by
  obtain ⟨-, h⟩ | ⟨-, -, h⟩ | ⟨-, -, -, h⟩ := headerFrame_cases f cls kf cf now s <;> simp [h]

/-- The entry a block frame extends. -/
def extended (e : SeqEntry) (f : Frame) (now : U64) : SeqEntry := { e with blocks := e.blocks ++ [f], last := now }

/-- `blockFrame` (R377, R378): an orphan, out of order, joining its entry, or completing it. -/
theorem blockFrame_cases (f : Frame) (cls : U8) (kf : List Field) (xf : Option Field) (now : U64) (s : State) :
    (findSeq s.seqs (seqKey f cls kf) = none ∧ blockFrame f cls kf xf now s = s.count .blockOrphan 1) ∨
      ∃ e, findSeq s.seqs (seqKey f cls kf) = some e ∧
        ((outOfOrder f xf e = true ∧ blockFrame f cls kf xf now s = s.count .blockOutOfOrder 1) ∨
          (outOfOrder f xf e = false ∧ e.blocks.length + 1 ≠ e.expected ∧ blockFrame f cls kf xf now s =
            s.setSeqs (replaceSeq s.seqs (seqKey f cls kf) (extended e f now))) ∨
          (outOfOrder f xf e = false ∧ e.blocks.length + 1 = e.expected ∧ blockFrame f cls kf xf now s =
            completeSequence (extended e f now)
              (s.setSeqs (replaceSeq s.seqs (seqKey f cls kf) (extended e f now))))) := by
  unfold blockFrame
  dsimp only
  rcases hf : findSeq s.seqs (seqKey f cls kf) with _ | e
  · exact .inl ⟨rfl, rfl⟩
  · refine .inr ⟨e, rfl, ?_⟩
    dsimp only
    cases ho : outOfOrder f xf e with
    | true => exact .inl ⟨rfl, rfl⟩
    | false =>
      simp only [List.length_append, List.length_cons, List.length_nil, Nat.zero_add, Bool.false_eq_true, if_false]
      split
      · exact .inr (.inr ⟨trivial, ‹_›, rfl⟩)
      · exact .inr (.inl ⟨trivial, ‹_›, rfl⟩)

theorem completeSequence_base (e : SeqEntry) (s : State) : SameBase s (completeSequence e s) :=
  (sameBase_setSeqs _ _).trans ((sameBase_count _ (by decide) _).trans (emitFrames_base _ _ _))

theorem completeSequence_output (e : SeqEntry) (s : State) : Output s (completeSequence e s) :=
  .of_quiet_left ⟨rfl, rfl⟩ rfl (emitFrames_output _ _ ((s.setSeqs (removeSeq s.seqs e.key)).count .seqCompleted 1))

@[simp] theorem completeSequence_seqs (e : SeqEntry) (s : State) :
    (completeSequence e s).seqs = removeSeq s.seqs e.key := by
  simp [completeSequence]

@[simp] theorem completeSequence_lock (e : SeqEntry) (s : State) : (completeSequence e s).lock = s.lock := by
  simp [completeSequence]

theorem blockFrame_base (f : Frame) (cls : U8) (kf : List Field) (xf : Option Field) (now : U64) (s : State) :
    SameBase s (blockFrame f cls kf xf now s) := by
  obtain ⟨-, h⟩ | ⟨e, -, ⟨-, h⟩ | ⟨-, -, h⟩ | ⟨-, -, h⟩⟩ := blockFrame_cases f cls kf xf now s <;> rw [h]
  · exact sameBase_count _ (by decide) _
  · exact sameBase_count _ (by decide) _
  · exact sameBase_setSeqs _ _
  · exact (sameBase_setSeqs _ _).trans (completeSequence_base _ _)

theorem blockFrame_output (f : Frame) (cls : U8) (kf : List Field) (xf : Option Field) (now : U64) (s : State) :
    Output s (blockFrame f cls kf xf now s) := by
  obtain ⟨-, h⟩ | ⟨e, -, ⟨-, h⟩ | ⟨-, -, h⟩ | ⟨-, -, h⟩⟩ := blockFrame_cases f cls kf xf now s <;> rw [h]
  · exact .inl ⟨rfl, rfl⟩
  · exact .inl ⟨rfl, rfl⟩
  · exact .inl ⟨rfl, rfl⟩
  · exact .of_quiet_left ⟨rfl, rfl⟩ rfl
      (completeSequence_output _ (s.setSeqs (replaceSeq s.seqs (seqKey f cls kf) (extended e f now))))

@[simp] theorem blockFrame_lock (f : Frame) (cls : U8) (kf : List Field) (xf : Option Field) (now : U64) (s : State) :
    (blockFrame f cls kf xf now s).lock = s.lock := by
  obtain ⟨-, h⟩ | ⟨e, -, ⟨-, h⟩ | ⟨-, -, h⟩ | ⟨-, -, h⟩⟩ := blockFrame_cases f cls kf xf now s <;> simp [h]

/-- `handleFrame` (R370) by the role of the frame's type. -/
theorem handleFrame_cases (f : Frame) (now : U64) (s : State) :
    handleFrame f now s = s ∨ handleFrame f now s = emitFrames f [] s ∨
      (∃ cls kf cf, handleFrame f now s = headerFrame f cls kf cf now s) ∨
      ∃ cls kf xf, handleFrame f now s = blockFrame f cls kf xf now s := by
  unfold handleFrame
  split
  · exact .inl rfl
  · split
    · exact .inr (.inl rfl)
    · exact .inr (.inr (.inl ⟨_, _, _, rfl⟩))
    · exact .inr (.inr (.inr ⟨_, _, _, rfl⟩))

theorem handleFrame_base (f : Frame) (now : U64) (s : State) : SameBase s (handleFrame f now s) := by
  obtain h | h | ⟨cls, kf, cf, h⟩ | ⟨cls, kf, xf, h⟩ := handleFrame_cases f now s <;> rw [h]
  · exact .refl s
  · exact emitFrames_base _ _ _
  · exact headerFrame_base _ _ _ _ _ _
  · exact blockFrame_base _ _ _ _ _ _

theorem handleFrame_output (f : Frame) (now : U64) (s : State) : Output s (handleFrame f now s) := by
  obtain h | h | ⟨cls, kf, cf, h⟩ | ⟨cls, kf, xf, h⟩ := handleFrame_cases f now s <;> rw [h]
  · exact (Quiet.refl s).output
  · exact emitFrames_output _ _ _
  · exact headerFrame_output _ _ _ _ _ _
  · exact blockFrame_output _ _ _ _ _ _

@[simp] theorem handleFrame_lock (f : Frame) (now : U64) (s : State) : (handleFrame f now s).lock = s.lock := by
  obtain h | h | ⟨cls, kf, cf, h⟩ | ⟨cls, kf, xf, h⟩ := handleFrame_cases f now s <;> simp [h]

/-! ### Running checks -/

/-- `countCheck` (42_error_correction.md R305) as three additions, those that do not apply adding 0. -/
theorem countCheck_eq (o : CheckOutcome) (s : State) :
    countCheck o s = ((s.count .checkFailed (if o.verdict = .failed then 1 else 0)).count .bitsCorrected
      (if o.verdict = .corrected then o.n else 0)).count .trellisViolations o.viol := by
  unfold countCheck
  cases o.verdict <;> simp

theorem countCheck_base (o : CheckOutcome) (s : State) : SameBase s (countCheck o s) := by
  rw [countCheck_eq]
  exact ((sameBase_count _ (by decide) _).trans (sameBase_count _ (by decide) _)).trans (sameBase_count _ (by decide) _)

/-- Running checks changes nothing of the state but counters. -/
theorem runChecks_state (cs : List Check) (f : Frame) (s : State) :
    ∃ c, (runChecks cs f s).2 = { s with ctr := c } ∧ c.get .illegalCmd = s.ctr.get .illegalCmd := by
  induction cs generalizing f s with
  | nil => exact ⟨s.ctr, rfl, rfl⟩
  | cons c cs ih =>
    obtain ⟨c', h, hi⟩ := ih (recordCheck (checkKind c) (applyCheck s.cfg c f.bits) f)
      (countCheck (applyCheck s.cfg c f.bits) s)
    refine ⟨c', ?_, hi.trans (countCheck_base _ _).illegalCmd⟩
    simpa [runChecks, countCheck_eq] using h

theorem runChecks_base (cs : List Check) (f : Frame) (s : State) : SameBase s (runChecks cs f s).2 := by
  obtain ⟨c, h, hi⟩ := runChecks_state cs f s
  rw [h]
  exact ⟨rfl, rfl, rfl, rfl, rfl, rfl, rfl, hi⟩

theorem runChecks_quiet (cs : List Check) (f : Frame) (s : State) : Quiet s (runChecks cs f s).2 := by
  obtain ⟨c, h, -⟩ := runChecks_state cs f s
  rw [h]
  exact ⟨rfl, rfl⟩

@[simp] theorem runChecks_lock (cs : List Check) (f : Frame) (s : State) : (runChecks cs f s).2.lock = s.lock := by
  obtain ⟨c, h, -⟩ := runChecks_state cs f s
  rw [h]

@[simp] theorem runChecks_seqs (cs : List Check) (f : Frame) (s : State) : (runChecks cs f s).2.seqs = s.seqs := by
  obtain ⟨c, h, -⟩ := runChecks_state cs f s
  rw [h]

/-- Running checks leaves a frame's identity alone. -/
theorem runChecks_frame (cs : List Check) (f : Frame) (s : State) :
    (runChecks cs f s).1.pat = f.pat ∧ (runChecks cs f s).1.du = f.du ∧ (runChecks cs f s).1.ts = f.ts ∧
      (runChecks cs f s).1.target = f.target := by
  induction cs generalizing f s with
  | nil => exact ⟨rfl, rfl, rfl, rfl⟩
  | cons c cs ih => exact ih (recordCheck (checkKind c) (applyCheck s.cfg c f.bits) f) _

/-- A list of checks run in two parts. -/
theorem runChecks_append (cs ds : List Check) (f : Frame) (s : State) :
    runChecks (cs ++ ds) f s = runChecks ds (runChecks cs f s).1 (runChecks cs f s).2 := by
  induction cs generalizing f s with
  | nil => rfl
  | cons c cs ih => exact ih _ _

/-! ### The framer -/

theorem holdFrame_base (f : Frame) (s : State) : SameBase s (holdFrame f s) := sameBase_setLock _ _

theorem discardFrame_base {why : CounterName} (h : why ≠ .illegalCmd) (s : State) :
    SameBase s (discardFrame why s) :=
  (sameBase_setLock _ _).trans (sameBase_count _ h _)

theorem completeFrame_base (f : Frame) (now : U64) (s : State) : SameBase s (completeFrame f now s) := by
  have h₁ : SameBase s ((s.setLock .searching).count .frameComplete 1) :=
    (sameBase_setLock s .searching).trans (sameBase_count _ (by decide) _)
  have h₂ := runChecks_base (checksOf s.cfg f.du) f ((s.setLock .searching).count .frameComplete 1)
  have h₃ := handleFrame_base
    (runChecks (checksOf s.cfg f.du) f ((s.setLock .searching).count .frameComplete 1)).1 now
    (runChecks (checksOf s.cfg f.du) f ((s.setLock .searching).count .frameComplete 1)).2
  exact h₁.trans (h₂.trans h₃)

theorem completeFrame_output (f : Frame) (now : U64) (s : State) : Output s (completeFrame f now s) := by
  have hq := runChecks_quiet (checksOf s.cfg f.du) f ((s.setLock .searching).count .frameComplete 1)
  have hb := runChecks_base (checksOf s.cfg f.du) f ((s.setLock .searching).count .frameComplete 1)
  exact .of_quiet_left (show Quiet s _ from hq) (show _ = s.par from hb.par) (handleFrame_output _ _ _)

@[simp] theorem completeFrame_lock (f : Frame) (now : U64) (s : State) : (completeFrame f now s).lock = .searching := by
  simp [completeFrame]

/-- `completeIfFull` (41_framer.md R255): the frame completes at its target and stays otherwise. -/
theorem completeIfFull_cases (f : Frame) (now : U64) (s : State) :
    (f.target = some f.bits.length ∧ completeIfFull f now s = completeFrame f now s) ∨
      (f.target ≠ some f.bits.length ∧ completeIfFull f now s = holdFrame f s) := by
  unfold completeIfFull
  split
  · exact .inl ⟨‹_›, rfl⟩
  · exact .inr ⟨‹_›, rfl⟩

theorem completeIfFull_base (f : Frame) (now : U64) (s : State) : SameBase s (completeIfFull f now s) := by
  obtain ⟨-, h⟩ | ⟨-, h⟩ := completeIfFull_cases f now s <;> rw [h]
  · exact completeFrame_base _ _ _
  · exact holdFrame_base _ _

theorem completeIfFull_output (f : Frame) (now : U64) (s : State) : Output s (completeIfFull f now s) := by
  obtain ⟨-, h⟩ | ⟨-, h⟩ := completeIfFull_cases f now s <;> rw [h]
  · exact completeFrame_output _ _ _
  · exact .inl ⟨rfl, rfl⟩

/-- `readHeader` (R256): the frame and state after the header checks, and one of four outcomes. -/
theorem readHeader_cases (f : Frame) (hdrBits : Nat) (lenField : Field) (hdrChecks : List Check) (map : LenMap)
    (now : U64) (s : State) (g : Frame) (t : State) (h : runChecks hdrChecks f s = (g, t)) :
    (anyFailed (g.results.drop f.results.length) = true ∧
        readHeader f hdrBits lenField hdrChecks map now s = discardFrame .frameHdrDiscard t) ∨
      (anyFailed (g.results.drop f.results.length) = false ∧
        ((headerLength s.cfg s.par f.du hdrBits map (field g.bits lenField) = none ∧
            readHeader f hdrBits lenField hdrChecks map now s = discardFrame .frameLenDiscard t) ∨
          ∃ du n, headerLength s.cfg s.par f.du hdrBits map (field g.bits lenField) = some (du, n) ∧
            readHeader f hdrBits lenField hdrChecks map now s =
              completeIfFull { g with du := du, target := some n } now t)) := by
  unfold readHeader
  simp only [h]
  cases ha : anyFailed (g.results.drop f.results.length) with
  | true => exact .inl ⟨rfl, rfl⟩
  | false =>
    refine .inr ⟨rfl, ?_⟩
    simp only [Bool.false_eq_true, if_false]
    cases hl : headerLength s.cfg s.par f.du hdrBits map (field g.bits lenField) with
    | none => exact .inl ⟨rfl, rfl⟩
    | some dn => exact .inr ⟨dn.1, dn.2, rfl, rfl⟩

theorem readHeader_base (f : Frame) (hdrBits : Nat) (lenField : Field) (hdrChecks : List Check) (map : LenMap)
    (now : U64) (s : State) : SameBase s (readHeader f hdrBits lenField hdrChecks map now s) := by
  have hb := runChecks_base hdrChecks f s
  obtain ⟨-, h⟩ | ⟨-, ⟨-, h⟩ | ⟨du, n, -, h⟩⟩ :=
    readHeader_cases f hdrBits lenField hdrChecks map now s _ _ rfl <;> rw [h] <;> refine hb.trans ?_
  · exact discardFrame_base (by decide) _
  · exact discardFrame_base (by decide) _
  · exact completeIfFull_base _ _ _

theorem readHeader_output (f : Frame) (hdrBits : Nat) (lenField : Field) (hdrChecks : List Check) (map : LenMap)
    (now : U64) (s : State) : Output s (readHeader f hdrBits lenField hdrChecks map now s) := by
  have hq := runChecks_quiet hdrChecks f s
  have hp := (runChecks_base hdrChecks f s).par
  obtain ⟨-, h⟩ | ⟨-, ⟨-, h⟩ | ⟨du, n, -, h⟩⟩ :=
    readHeader_cases f hdrBits lenField hdrChecks map now s _ _ rfl <;> rw [h] <;> refine .of_quiet_left hq hp ?_
  · exact .inl ⟨rfl, rfl⟩
  · exact .inl ⟨rfl, rfl⟩
  · exact completeIfFull_output _ _ _

/-- `frameProgress` (R255): the completion test, the header, or waiting. -/
theorem frameProgress_cases (f : Frame) (now : U64) (s : State) :
    (f.target.isSome = true ∧ frameProgress f now s = completeIfFull f now s) ∨
      (f.target = none ∧ ∃ d h l c m, s.cfg.du? f.du = some d ∧ d.length = .variableLen h l c m ∧ h ≤ f.bits.length ∧
        frameProgress f now s = readHeader f h l c m now s) ∨
      (f.target = none ∧ frameProgress f now s = holdFrame f s ∧
        ∀ d h l c m, s.cfg.du? f.du = some d → d.length = .variableLen h l c m → f.bits.length < h) := by
  unfold frameProgress
  cases ht : f.target with
  | some n => exact .inl ⟨rfl, rfl⟩
  | none =>
    refine .inr ?_
    simp only [Option.isSome_none, Bool.false_eq_true, if_false]
    cases hd : s.cfg.du? f.du with
    | none => exact .inr ⟨trivial, rfl, fun d _ _ _ _ h => by simp at h⟩
    | some d =>
      cases hl : d.length with
      | fixed n =>
        refine .inr ⟨trivial, by simp [hl], fun d' _ _ _ _ h h' => ?_⟩
        cases h; rw [hl] at h'; cases h'
      | variableLen h l c m =>
        simp only [Option.map_some, hl]
        split
        · refine .inr ⟨trivial, rfl, fun d' _ _ _ _ e e' => ?_⟩
          cases e; rw [hl] at e'; cases e'; assumption
        · exact .inl ⟨trivial, d, h, l, c, m, rfl, hl, by omega, rfl⟩

theorem frameProgress_base (f : Frame) (now : U64) (s : State) : SameBase s (frameProgress f now s) := by
  obtain ⟨-, h⟩ | ⟨-, d, hb, l, c, m, -, -, -, h⟩ | ⟨-, h, -⟩ := frameProgress_cases f now s <;> rw [h]
  · exact completeIfFull_base _ _ _
  · exact readHeader_base _ _ _ _ _ _ _
  · exact holdFrame_base _ _

theorem frameProgress_output (f : Frame) (now : U64) (s : State) : Output s (frameProgress f now s) := by
  obtain ⟨-, h⟩ | ⟨-, d, hb, l, c, m, -, -, -, h⟩ | ⟨-, h, -⟩ := frameProgress_cases f now s <;> rw [h]
  · exact completeIfFull_output _ _ _
  · exact readHeader_output _ _ _ _ _ _ _
  · exact .inl ⟨rfl, rfl⟩

/-- `framerStep` (R251): a new frame, nothing, or progress of the frame in assembly. -/
theorem framerStep_cases (r : Detection) (bits : List Bool) (now : U64) (s : State) :
    (∃ p, r = .found p ∧ s.lock = .searching ∧ framerStep r bits now s = holdFrame (newFrame s.cfg p now) s) ∨
      ((∀ p, r ≠ .found p) ∧ s.lock = .searching ∧ framerStep r bits now s = s) ∨
      (∃ p f, r = .found p ∧ s.lock = .synchronized f ∧
        framerStep r bits now s = holdFrame (newFrame s.cfg p now) (s.count .frameResyncDiscard 1)) ∨
      (∃ f, (∀ p, r ≠ .found p) ∧ s.lock = .synchronized f ∧
        framerStep r bits now s = frameProgress { f with bits := f.bits ++ bits } now s) := by
  unfold framerStep
  cases hl : s.lock <;> cases r <;> simp

theorem framerStep_base (r : Detection) (bits : List Bool) (now : U64) (s : State) :
    SameBase s (framerStep r bits now s) := by
  obtain ⟨p, -, -, h⟩ | ⟨-, -, h⟩ | ⟨p, f, -, -, h⟩ | ⟨f, -, -, h⟩ := framerStep_cases r bits now s <;> rw [h]
  · exact holdFrame_base _ _
  · exact .refl s
  · exact (sameBase_count _ (by decide) _).trans (holdFrame_base _ _)
  · exact frameProgress_base _ _ _

theorem framerStep_output (r : Detection) (bits : List Bool) (now : U64) (s : State) :
    Output s (framerStep r bits now s) := by
  obtain ⟨p, -, -, h⟩ | ⟨-, -, h⟩ | ⟨p, f, -, -, h⟩ | ⟨f, -, -, h⟩ := framerStep_cases r bits now s <;> rw [h]
  · exact .inl ⟨rfl, rfl⟩
  · exact .inl ⟨rfl, rfl⟩
  · exact .inl ⟨rfl, rfl⟩
  · exact frameProgress_output _ _ _

/-- `countDetection` (40_sync_detector.md R214) changes counters only. -/
theorem countDetection_cases (r : Detection) (s : State) :
    (r = .none ∧ countDetection r s = s) ∨ (r = .ambiguous ∧ countDetection r s = s.count .syncAmbiguous 1) ∨
      ∃ p, r = .found p ∧ countDetection r s = s.count .syncDetect 1 := by
  cases r with
  | none => exact .inl ⟨rfl, rfl⟩
  | ambiguous => exact .inr (.inl ⟨rfl, rfl⟩)
  | found p => exact .inr (.inr ⟨p, rfl, rfl⟩)

theorem countDetection_base (r : Detection) (s : State) : SameBase s (countDetection r s) := by
  obtain ⟨-, h⟩ | ⟨-, h⟩ | ⟨p, -, h⟩ := countDetection_cases r s <;> rw [h]
  · exact .refl s
  · exact sameBase_count _ (by decide) _
  · exact sameBase_count _ (by decide) _

theorem countDetection_quiet (r : Detection) (s : State) : Quiet s (countDetection r s) := by
  obtain ⟨-, h⟩ | ⟨-, h⟩ | ⟨p, -, h⟩ := countDetection_cases r s <;> rw [h] <;> exact ⟨rfl, rfl⟩

@[simp] theorem countDetection_lock (r : Detection) (s : State) : (countDetection r s).lock = s.lock := by
  obtain ⟨-, h⟩ | ⟨-, h⟩ | ⟨p, -, h⟩ := countDetection_cases r s <;> rw [h] <;> rfl

@[simp] theorem countDetection_seqs (r : Detection) (s : State) : (countDetection r s).seqs = s.seqs := by
  obtain ⟨-, h⟩ | ⟨-, h⟩ | ⟨p, -, h⟩ := countDetection_cases r s <;> rw [h] <;> rfl

/-! ### Accepting a unit -/

/-- `sweepTimeouts` (43_dispatch.md R376): the entries within the timeout stay, the others are counted. -/
theorem sweepTimeouts_eq (now : U64) (s : State) :
    sweepTimeouts now s =
      (s.setSeqs (s.seqs.filter fun e => decide (age now e ≤ s.par.seqTimeout))).count .seqTimeout
        (s.seqs.length - (s.seqs.filter fun e => decide (age now e ≤ s.par.seqTimeout)).length) := by
  have h : (s.seqs.filter fun e => !expired s.par.seqTimeout now e)
      = s.seqs.filter fun e => decide (age now e ≤ s.par.seqTimeout) := by
    congr 1
    funext e
    rw [expired, ← decide_not]
    exact decide_eq_decide.2 Nat.not_lt
  have hc : s.seqs.countP (expired s.par.seqTimeout now)
      = s.seqs.length - (s.seqs.filter fun e => decide (age now e ≤ s.par.seqTimeout)).length := by
    rw [← h, ← List.countP_eq_length_filter]
    have := List.length_eq_countP_add_countP (expired s.par.seqTimeout now) (l := s.seqs)
    simp only [Bool.not_eq_true, Bool.decide_eq_false] at this
    omega
  rw [sweepTimeouts, h, hc]

/-- `admitUnit` (40_sync_detector.md R201) in one record update. -/
theorem admitUnit_eq (u : InputUnit) (s : State) : admitUnit u s = { s with
    unitCount := s.unitCount + 1
    seqs := surviving s
    window := windowWith s u
    ctr := s.ctr.add .seqTimeout (s.seqs.length - (surviving s).length) } := by
  rw [admitUnit, sweepTimeouts_eq]
  rfl

/-- `pushCommand` (R200, R205): ignored by an inert core, a mismatch, or accepted. -/
theorem pushCommand_cases (kind : UnitKind) (accepted : State → State) (s : State) :
    (s.cfgOk = false ∧ pushCommand kind accepted s = s.respond .none) ∨
      (s.cfgOk = true ∧ s.cfg.unitKind ≠ kind ∧ pushCommand kind accepted s = kindMismatch s) ∨
      (s.cfgOk = true ∧ s.cfg.unitKind = kind ∧ pushCommand kind accepted s = (accepted s).respond .none) := by
  unfold pushCommand
  cases hc : s.cfgOk with
  | false => exact .inl ⟨rfl, rfl⟩
  | true =>
    by_cases hk : s.cfg.unitKind = kind
    · exact .inr (.inr ⟨rfl, hk, by simp [hk]⟩)
    · exact .inr (.inl ⟨rfl, hk, by simp [hk]⟩)

end Sys2Proof.Machine
end

