-- ==== Sys2Proof/Laws/PerInstr.lean ====
section
/-! SUPPORT. Statements about every instruction as syntax, one lemma per constructor: the word an instruction encodes to
is one its row of spec/opcode_table.json covers. -/

namespace Sys2Proof.Laws.EncodesInItsRow

/-- The instruction's row stands in the opcode table, and its encoding agrees with the row on every fixed bit. -/
def Statement (i : Instr) : Prop := i.row ∈ opcodeTable ∧ i.row.covers (encode i) = true

/-- A command word agrees with a row when it does bit by bit. -/
theorem covers_cmdWord (r : OpcodeRow) (opc : U8) (csrn : CsrNum) (data : U32)
    (h : ∀ i, i < 64 → ((if i < 32 then data.getLsbD i else if i < 44 then csrn.getLsbD (i - 32)
      else if i < 56 then false else opc.getLsbD (i - 56)) && r.mask.getLsbD i) = r.pattern.getLsbD i) :
    r.covers (cmdWord opc csrn data) = true := by
  rw [OpcodeRow.covers, beq_iff_eq]
  refine BitVec.eq_of_getLsbD_eq fun i hi => ?_
  rw [BitVec.getLsbD_and, cmdWord_getLsbD]
  exact h i hi

theorem nop : Statement .nop := ⟨by decide, by decide⟩

theorem pushBit (b : Bool) : Statement (.pushBit b) := ⟨by simp [Instr.row, opcodeTable], by cases b <;> decide⟩

theorem pushDibit (d : Dibit) : Statement (.pushDibit d) :=
  ⟨by simp [Instr.row, opcodeTable], by revert d; decide⟩

theorem pushSoft (v : Binary32) : Statement (.pushSoft v) := by
  refine ⟨by simp [Instr.row, opcodeTable], covers_cmdWord _ _ _ _ fun i hi => ?_⟩
  interval_cases i <;> simp [Instr.row, rowPushSoft]

theorem reset : Statement .reset := ⟨by decide, by decide⟩

theorem pop : Statement .pop := ⟨by decide, by decide⟩

theorem rdcsr (csrn : CsrNum) : Statement (.rdcsr csrn) := by
  refine ⟨by simp [Instr.row, opcodeTable], covers_cmdWord _ _ _ _ fun i hi => ?_⟩
  interval_cases i <;> simp [Instr.row, rowRdcsr]

theorem wrcsr (csrn : CsrNum) (v : U32) : Statement (.wrcsr csrn v) := by
  refine ⟨by simp [Instr.row, opcodeTable], covers_cmdWord _ _ _ _ fun i hi => ?_⟩
  interval_cases i <;> simp [Instr.row, rowWrcsr]

end Sys2Proof.Laws.EncodesInItsRow
end

