-- ==== Sys2Proof/Machine/Assembler.lean ====
section
/-! DEFINITION. The assembly syntax and its pseudo-instructions (30_encoding.md R165, R166): a line of text to the
commands it stands for. The core executes command words only; this file is how a host writes them. -/

namespace Sys2Proof.Machine

/-- `push.bits` (R166): one PUSH_BIT per character. -/
def pseudoPushBits (bits : List Bool) : List Instr := bits.map .pushBit

/-- `push.dibits` (R166): one PUSH_DIBIT per character. -/
def pseudoPushDibits (dibits : List Dibit) : List Instr := dibits.map .pushDibit

/-- `push.softs` (R166). -/
def pseudoPushSofts (vs : List Binary32) : List Instr := vs.map .pushSoft

/-- `clrcnt` (R166): `wrcsr CTRL, 1`. -/
def pseudoClrcnt : List Instr := [.wrcsr 0x000 1]

/-- `clrerr` (R166): `wrcsr CTRL, 2`. -/
def pseudoClrerr : List Instr := [.wrcsr 0x000 2]

/-- The CSR names of R60 and R66 with their numbers. -/
def csrNames : List (String × Nat) :=
  [("CTRL", 0x000), ("STATUS", 0x001), ("ERR", 0x002), ("FRAME_FILL", 0x003), ("FRAME_TARGET", 0x004),
   ("WINDOW_FILL", 0x005), ("OUTQ_LEVEL", 0x006), ("PENDING_SEQ", 0x007), ("WINDOW_LEN", 0x008),
   ("UNIT_COUNT_LO", 0x010), ("UNIT_COUNT_HI", 0x011)]

/-- The counter names of R66 with their CSR numbers. -/
def counterCsrNames : List (String × Nat) :=
  [("SYNC_DETECT", 0x020), ("SYNC_AMBIGUOUS", 0x021), ("FRAME_RESYNC_DISCARD", 0x022),
   ("FRAME_HDR_DISCARD", 0x023), ("FRAME_LEN_DISCARD", 0x024), ("FRAME_COMPLETE", 0x025),
   ("MSG_ENQUEUED", 0x026), ("MSG_DROPPED", 0x027), ("SEQ_STARTED", 0x028), ("SEQ_COMPLETED", 0x029),
   ("SEQ_ABANDONED", 0x02A), ("SEQ_EVICTED", 0x02B), ("SEQ_TIMEOUT", 0x02C), ("SEQ_REJECTED", 0x02D),
   ("BLOCK_ORPHAN", 0x02E), ("BLOCK_OUT_OF_ORDER", 0x02F), ("CHECK_FAILED", 0x030), ("BITS_CORRECTED", 0x031),
   ("TRELLIS_VIOLATIONS", 0x032), ("UNKNOWN_MSG", 0x033), ("ILLEGAL_CMD", 0x034), ("NAN_INPUT", 0x035)]

/-- A digit of a base up to 16. -/
def digit? (base : Nat) (c : Char) : Option Nat :=
  let n := c.toNat
  let d :=
    if 48 ≤ n ∧ n ≤ 57 then n - 48
    else if 65 ≤ n ∧ n ≤ 70 then n - 55
    else if 97 ≤ n ∧ n ≤ 102 then n - 87
    else 99
  if d < base then some d else none

/-- A nonempty run of digits of a base, after the value `acc`. -/
def digits? (base acc : Nat) : List Char → Option Nat
  | [] => some acc
  | c :: cs => (digit? base c).bind fun d => digits? base (base * acc + d) cs

/-- An unsigned number: `0x` hexadecimal, `0b` binary or decimal. -/
def number? : List Char → Option Nat
  | [] => none
  | '0' :: 'x' :: c :: cs => digits? 16 0 (c :: cs)
  | '0' :: 'b' :: c :: cs => digits? 2 0 (c :: cs)
  | cs => digits? 10 0 cs

/-- The bits of a sign and a rounded magnitude in units of 2^-149 (R156). -/
def encodeMag (neg : Bool) (mag : Nat) : Binary32 :=
  let body :=
    if overflowMag ≤ mag then 0x7F800000
    else if mag < 2 ^ 23 then mag
    else
      let e := bitLength mag - 23
      e * 2 ^ 23 + (mag / 2 ^ (e - 1) - 2 ^ 23)
  BitVec.ofNat 32 ((if neg then 2 ^ 31 else 0) + body)

/-- The decimal `n / 10^k` rounded to binary32, nearest even (R165): the quotient is taken to three bits below the
least unit, the last of them standing for everything discarded. -/
def decimalMag (n k : Nat) : Nat :=
  let scaled := n * 2 ^ 151
  let rest := if scaled % 10 ^ k = 0 then 0 else 1
  roundMag (2 * (scaled / 10 ^ k) + rest) 3

/-- An unsigned decimal literal with an optional fraction. The spec gives no grammar of literals; that the part before
the point needs a digit (`.5` is refused) and the part after it does not (`5.` is read) is the model's choice (DESIGN
CHOICE, log 13). -/
def decimal? (cs : List Char) : Option Nat :=
  let whole := cs.takeWhile (· != '.')
  let frac := (cs.dropWhile (· != '.')).tail
  if whole = [] then none else (digits? 10 0 (whole ++ frac)).map fun n => decimalMag n frac.length

/-- The operand of `push.soft` (R165): raw bits `0xHHHHHHHH`, or a decimal literal. The spec does not say which signs
a literal may carry; the model reads a leading `-` and refuses a leading `+` (DESIGN CHOICE, log 13). -/
def soft? (cs : List Char) : Option Binary32 :=
  match cs with
  | '0' :: 'x' :: hex =>
    if hex.length = 8 then (digits? 16 0 hex).map (BitVec.ofNat 32) else none
  | '-' :: rest => (decimal? rest).map (encodeMag true)
  | _ => (decimal? cs).map (encodeMag false)

/-- The elements of a list, all present or none. -/
def allSome {α : Type} : List (Option α) → Option (List α)
  | [] => some []
  | some a :: l => (allSome l).map (a :: ·)
  | none :: _ => none

/-- The bound of an operand (R165). -/
def below? (bound : Nat) (n : Option Nat) : Option Nat := n.bind fun v => if v < bound then some v else none

/-- The operand of `rdcsr` and `wrcsr`: a CSR name or a number 0 to 0xFFF (R165). -/
def csrOperand? (cs : List Char) : Option CsrNum :=
  match (csrNames ++ counterCsrNames).lookup (String.ofList cs) with
  | some n => some (BitVec.ofNat 12 n)
  | none => (below? 0x1000 (number? cs)).map (BitVec.ofNat 12)

/-- The characters between the quotes of a string operand (R166). -/
def quoted? : List Char → Option (List Char)
  | '"' :: rest => if rest.getLast? = some '"' then some rest.dropLast else none
  | _ => none

def lowerChar (c : Char) : Char :=
  if 65 ≤ c.toNat ∧ c.toNat ≤ 90 then Char.ofNat (c.toNat + 32) else c

/-- The words of a line, split at spaces, tabs and commas; `cur` is the word being read, reversed. -/
def splitWords : List Char → List Char → List (List Char)
  | [], cur => if cur = [] then [] else [cur.reverse]
  | c :: cs, cur =>
    if c = ' ' ∨ c = '\t' ∨ c = ',' then
      (if cur = [] then [] else [cur.reverse]) ++ splitWords cs []
    else splitWords cs (c :: cur)

/-- The commands of a mnemonic with its operand words (R165, R166). -/
def asmCommand (mnemonic : String) (args : List (List Char)) : Option (List Instr) :=
  match args with
  | [] =>
    if mnemonic = "nop" then some [.nop]
    else if mnemonic = "reset" then some [.reset]
    else if mnemonic = "pop" then some [.pop]
    else if mnemonic = "clrcnt" then some pseudoClrcnt
    else if mnemonic = "clrerr" then some pseudoClrerr
    else none
  | a :: rest =>
    if mnemonic = "push.softs" then (allSome ((a :: rest).map soft?)).map pseudoPushSofts
    else
      match rest with
      | [] =>
        if mnemonic = "push.bit" then (below? 2 (number? a)).map fun n => [.pushBit (n == 1)]
        else if mnemonic = "push.dibit" then (below? 4 (number? a)).map fun n => [.pushDibit (BitVec.ofNat 2 n)]
        else if mnemonic = "push.soft" then (soft? a).map fun v => [.pushSoft v]
        else if mnemonic = "rdcsr" then (csrOperand? a).map fun r => [.rdcsr r]
        else if mnemonic = "rdcnt" then
          (counterCsrNames.lookup (String.ofList a)).map fun n => [.rdcsr (BitVec.ofNat 12 n)]
        else if mnemonic = "push.bits" then
          ((quoted? a).bind fun cs => allSome (cs.map fun c => below? 2 (digit? 10 c))).map fun l =>
            pseudoPushBits (l.map (· == 1))
        else if mnemonic = "push.dibits" then
          ((quoted? a).bind fun cs => allSome (cs.map fun c => below? 4 (digit? 10 c))).map fun l =>
            pseudoPushDibits (l.map (BitVec.ofNat 2))
        else none
      | [v] =>
        if mnemonic = "wrcsr" then
          (csrOperand? a).bind fun r =>
            (below? (2 ^ 32) (number? v)).map fun n => [.wrcsr r (BitVec.ofNat 32 n)]
        else none
      | _ => none

/-- One line of assembly (R165): `;` starts a comment, an empty line stands for no command. -/
def asmLine (line : List Char) : Option (List Instr) :=
  match splitWords (line.takeWhile (· != ';')) [] with
  | [] => some []
  | m :: args => asmCommand (String.ofList (m.map lowerChar)) args

end Sys2Proof.Machine
end

