-- ==== Sys2Proof/Machine/Instances.lean ====
section
/-! DEFINITION. The named instances of codes and tables the spec gives as examples (42_error_correction.md R312, R316,
R317, R325, R339; 40_sync_detector.md R206). They are configuration data: no step uses one unless its configuration
names it. -/

namespace Sys2Proof

/-- CRC-16/CCITT-FALSE over given positions (R312). -/
def crc16CcittFalse (data recv : List Nat) : Check := .crc 16 0x1021 0xFFFF 0 data recv

/-- CRC-16/XMODEM over given positions (R312). -/
def crc16Xmodem (data recv : List Nat) : Check := .crc 16 0x1021 0 0 data recv

/-- `x^e mod g(x)` for `g` of degree 11. -/
def xPowMod11 (g : Nat) : Nat → Nat
  | 0 => 1
  | e + 1 => gfDouble 11 g (xPowMod11 g e)

/-- The columns of Golay(23,12): `x^(22-i) mod g(x)`, `g` = 0xC75 (R316). -/
def golay23Cols : List Nat := (List.range 23).map fun i => xPowMod11 0xC75 (22 - i)

/-- Golay(23,12) (R316). -/
def golay23 : LinearCode where
  n := 23
  r := 11
  cols := golay23Cols
  t := 3

/-- Golay(24,12), the extension by an overall even-parity bit (R317). -/
def golay24 : LinearCode where
  n := 24
  r := 12
  cols := golay23Cols.map (fun c => 2 * c + 1) ++ [1]
  t := 3

/-- RS(7,3) over GF(8) at given positions (R325). -/
def rs73 (pos : List Nat) : Check := .rs 3 0xB 7 3 1 pos

/-- The 4-cycle 0 - 1 - 3 - 2 - 0 of legal transitions (R339). -/
def relationA : List (Dibit × Dibit) := [(0, 1), (1, 0), (1, 3), (3, 1), (3, 2), (2, 3), (2, 0), (0, 2)]

/-- The example quantizer of R206: thresholds -2.0, 0.0, 2.0 and the map 3, 2, 0, 1. -/
def exampleQuantizer : Quantizer where
  q0 := 0xC0000000
  q1 := 0x00000000
  q2 := 0x40000000
  map0 := 3
  map1 := 2
  map2 := 0
  map3 := 1

end Sys2Proof
end

