-- ==== Sys2Proof/Tests/Slice0.lean ====
section
/-! SUPPORT. The author's tests: words and configurations written out from the spec, one step of each command, the
vectors of 95_test_vectors.md that one operation shows, and for each obligation with hypotheses a witness of them. -/

namespace Sys2Proof.Tests

open Sys2Proof Sys2Proof.Machine

/-! ### Helpers -/

/-- The state of a `next` outcome. -/
def stateOf (o : Host.Outcome State Fault Refusal) : Option State :=
  match o with
  | .next t => some t
  | _ => none

/-- One view of the state after an instruction. -/
def after {α : Type} (i : Instr) (s : State) (view : State → α) : Option α := (stateOf (exec i s)).map view

/-- Bits from a number, first bit most significant. -/
def bitsOf (k v : Nat) : List Bool := msbBits k v

/-- A data-unit type with no checks and no fields. -/
def plainDu (length : FrameLength) : DuCfg :=
  { length := length, checks := [], opcode := none, vendor := none, role := .single }

/-- `BASE` with other data-unit types. -/
def withDus (t : Table U8 DuCfg) : Cfg := { Config.base with duTable := t }

/-- The DIBIT configuration of V-S7. -/
def dibitCfg : Cfg :=
  { Config.base with
    unitKind := .dibit
    patterns := [{ id := 1, bits := bitsOf 8 0xD2, ideal := [], du := 1 }]
    duTable := [(1, plainDu (.fixed 6))] }

/-- The SOFT configuration of V-Q2: ideal 3.0, -3.0, 3.0, threshold 20.0. -/
def softCfg : Cfg :=
  { Config.base with
    unitKind := .soft
    patterns := [{ id := 1, bits := bitsOf 6 0x1D, ideal := [0x40400000, 0xC0400000, 0x40400000], du := 1 }]
    softThreshold := 0x41A00000
    quantizer := exampleQuantizer
    duTable := [(1, plainDu (.fixed 4))] }

def dibitState : State := .powerOn dibitCfg Config.baseParams
def softState : State := .powerOn softCfg Config.baseParams

/-- An instance whose configuration fails V_PATTERNS: it has no pattern. -/
def inertState : State := .powerOn { Config.base with patterns := [] } Config.baseParams

/-- The window after `1111000` (V-P1): the next bit 0 completes the pattern of `BASE`. -/
def almostState : State :=
  { State.reset with window := (bitsOf 7 0x78).map .bit, unitCount := 7 }

/-- A frame in assembly with the given bits and target. -/
def frameWith (bits : List Bool) (target : Option Nat) : Frame :=
  { pat := 1, du := 1, ts := 7, bits := bits, target := target, corrected := 0, viol := 0, results := [] }

/-- Locked, the window all zeros, the given frame in assembly. -/
def lockedState (f : Frame) : State :=
  { State.reset with lock := .synchronized f, window := (bitsOf 8 0).map .bit, unitCount := 17 }

/-- A message with the given bits, for queue tests. -/
def someMessage (bits : List Bool) : Message :=
  { variant := 0xFFFF, protocol := 1, du := 1, pattern := 1, validity := .valid, opcode := 0, vendor := 0,
    vendorPresent := false, ts := 7, corrected := 0, viol := 0, blockCount := 1, bits := bits, results := [] }

/-! ### Decoding: words written out from 30_encoding.md R150, R154, R165 -/

theorem test_decode_nop : decode 0x0000000000000000 = .ok .nop := by decide
theorem test_decode_pushBit : decode 0x0100000000000001 = .ok (.pushBit true) := by decide
theorem test_decode_pushDibit : decode 0x0200000000000002 = .ok (.pushDibit 2) := by decide
theorem test_decode_pushSoft : decode 0x0300000040200000 = .ok (.pushSoft 0x40200000) := by decide
theorem test_decode_reset : decode 0x0800000000000000 = .ok .reset := by decide
theorem test_decode_pop : decode 0x1000000000000000 = .ok .pop := by decide
theorem test_decode_rdcsr : decode 0x2000003400000000 = .ok (.rdcsr 0x034) := by decide
theorem test_decode_wrcsr : decode 0x21000001ABCD0005 = .ok (.wrcsr 0x001 0xABCD0005) := by decide

/-- R152: the unassigned opcode is found before the reserved bits (the third row of V-E1). -/
theorem test_decode_illegal_first : decode 0x0500100000000000 = .error (.illegal 0x05) := by decide

/-- The table's numbering, with every bit above `nbits` zero. -/
theorem test_decodeTableWord : decodeTableWord 64 0x2100000000000003 = some (.wrcsr 0x000 3) := by decide

/-! ### Ill-formed words, one for each check of 30_encoding.md R152 -/

theorem test_wf_unassigned : WellFormed 0x0400000000000000 = false := by decide
theorem test_wf_rsvd : WellFormed 0x2180000000000000 = false := by decide
theorem test_wf_csr_field : WellFormed 0x0100000100000001 = false := by decide
theorem test_wf_data_bit : WellFormed 0x0100000000000002 = false := by decide
theorem test_wf_accepts : WellFormed 0x21000FFFFFFFFFFF = true := by decide

/-! ### Ill-formed configurations, one for each check of 00_scope.md R9 and R14 to R22 -/

theorem test_cfg_base : cfgValid Config.base Config.baseParams = true := by decide
theorem test_cfg_dibit : cfgValid dibitCfg Config.baseParams = true := by decide
theorem test_cfg_soft : cfgValid softCfg Config.baseParams = true := by decide
theorem test_cfg_params : paramsValid { Config.baseParams with maxBlocks := 65535 } = false := by decide

/-- R14: id 0. -/
theorem test_cfg_patterns :
    vPatterns { Config.base with patterns := [{ id := 0, bits := [true], ideal := [], du := 1 }] } = false := by
  decide

/-- R15: the quantizer's map is no permutation. -/
theorem test_cfg_thresholds :
    vThresholds { softCfg with quantizer := { exampleQuantizer with map1 := 0 } } = false := by decide

/-- R16: a frame of no bits. -/
theorem test_cfg_lengths : vLengths (withDus [(1, plainDu (.fixed 0))]) Config.baseParams = false := by decide

/-- R17: an opcode field beyond a 10-bit frame. -/
theorem test_cfg_fields :
    vFields (withDus [(1, { plainDu (.fixed 10) with opcode := some ⟨8, 3⟩ })]) = false := by decide

/-- R18: a CRC polynomial without its x^0 term. -/
theorem test_cfg_checks :
    vChecks (withDus [(1, { plainDu (.fixed 10) with checks := [.crc 4 2 0 0 [0] [1, 2, 3, 4]] })])
      Config.baseParams = false := by decide

/-- R18: x^3 + x^2 + x + 1 is no primitive polynomial, x^3 + x + 1 is one. -/
theorem test_primitive : primitive 3 0xF = false ∧ primitive 3 0xB = true := by decide

/-- R19: a trellis check over the empty relation. -/
theorem test_cfg_trellis :
    vTrellis (withDus [(1, { plainDu (.fixed 10) with checks := [.trellis [0, 1] none none] })]) = false := by decide

/-- R20: a block role without a header role. -/
theorem test_cfg_roles :
    vRoles (withDus [(1, { plainDu (.fixed 10) with role := .block 1 [] none })]) = false := by decide

/-- R21: the variant 0xFFFF is reserved. -/
theorem test_cfg_dispatch : vDispatch { Config.base with primary := [((1, 5), 0xFFFF)] } = false := by decide

/-- R22: a pattern's type has no entry. -/
theorem test_cfg_complete : vComplete (withDus []) = false := by decide

/-! ### Each command, one step -/

/-- R400. -/
theorem test_nop : exec .nop State.reset = .next State.reset := rfl

/-- R202, V-S1: the eighth bit of the pattern locks; STATUS is 0x00010103. -/
theorem test_pushBit_match : after (.pushBit false) almostState State.status = some 0x00010103 := by decide

/-- V-F1: the tenth bit completes the frame `1010101010`. -/
theorem test_pushBit_completes :
    after (.pushBit false) (lockedState (frameWith (bitsOf 9 0x155) (some 10))) (fun t => (t.lock, t.outq.map (·.bits)))
      = some (.searching, [bitsOf 10 0x2AA]) := by decide

/-- V-S7: dibits 3, 1, 0, 2 match at unit 3. -/
theorem test_pushDibit_match :
    after (.pushDibit 2) { dibitState with window := [.dib 3, .dib 1, .dib 0] } (fun t => t.ctr.syncDetect)
      = some 1 := by decide

/-- V-K1: ERR = 0x8, ILLEGAL_CMD = 1, `unit_count` = 0. -/
theorem test_pushDibit_wrong_kind :
    after (.pushDibit 1) State.reset (fun t => (t.err, t.ctr.illegalCmd, t.unitCount)) = some (8, 1, 0) := by
  decide

/-- V-Q2: 3.0, -3.0, 3.0 match. -/
theorem test_pushSoft_match :
    after (.pushSoft 0x40400000) { softState with window := [.soft 0x40400000 1, .soft 0xC0400000 3] }
      (fun t => t.ctr.syncDetect) = some 1 := by decide +kernel

/-- V-Q3: a NaN gives no match and counts in NAN_INPUT. -/
theorem test_pushSoft_nan :
    after (.pushSoft 0x7FC00000) { softState with window := [.soft 0x40400000 1, .soft 0xC0400000 3] }
      (fun t => (t.ctr.syncDetect, t.ctr.nanInput, t.window.getLast?)) = some (0, 1, some (.soft 0x7FC00000 3)) := by
  decide +kernel

/-- V-P1: RESET clears lock and window and keeps `unit_count`. -/
theorem test_reset :
    after .reset (lockedState (frameWith [true] (some 10))) (fun t => (t.lock, t.window, t.unitCount))
      = some (.searching, [], 17) := by decide

/-- V-E2: STATUS of an inert core is 0x10, also where the parameter Q = 0 made it inert. -/
theorem test_status_inert :
    inertState.status = 0x10 ∧ (State.powerOn Config.base { Config.baseParams with outqDepth := 0 }).status = 0x10 := by
  decide

/-- V-E2: RESET is ignored by an inert core. -/
theorem test_reset_inert : after .reset inertState id = some inertState := by decide

/-- V-O1: POP returns the oldest message. -/
theorem test_pop :
    after .pop { State.reset with outq := [someMessage [true], someMessage [false]] } (fun t => (t.resp, t.outq))
      = some (.msg (some (someMessage [true])), [someMessage [false]]) := by decide

theorem test_pop_empty : after .pop State.reset (·.resp) = some (.msg none) := by decide

/-- V-P1: WINDOW_LEN is 8. -/
theorem test_rdcsr_view : after (.rdcsr 0x008) State.reset (·.resp) = some (.csr 8) := by decide

/-- V-E1: RDCSR 0x036, past the counters. -/
theorem test_rdcsr_unassigned :
    after (.rdcsr 0x036) State.reset (fun t => (t.resp, t.err, t.ctr.illegalCmd)) = some (.csr 0, 0x20, 1) := by
  decide

/-- V-E2: `wrcsr CTRL, 3` keeps CFG_INVALID. -/
theorem test_wrcsr_ctrl :
    after (.wrcsr 0x000 3) { inertState with err := 0x21, ctr := Counters.zero.add .illegalCmd 1 }
      (fun t => (t.err, t.ctr)) = some (1, Counters.zero) := by decide

/-- V-E1: WRCSR STATUS. -/
theorem test_wrcsr_ro :
    after (.wrcsr 0x001 5) State.reset (fun t => (t.err, t.ctr.illegalCmd)) = some (0x20, 1) := by decide

/-- V-E1: the words that are no command. -/
theorem test_ignored_words :
    (stateOf (runWord 0xFF00000000000123 State.reset)).map (fun t => (t.resp, t.err)) = some (.none, 2) ∧
      (stateOf (runWord 0x0200010000000001 State.reset)).map (fun t => (t.resp, t.err)) = some (.none, 4) ∧
      (stateOf (runWord 0x1000000000000001 State.reset)).map (fun t => (t.resp, t.err)) = some (.msg none, 4) ∧
      (stateOf (runWord 0x2000000100000001 State.reset)).map (fun t => (t.resp, t.err)) = some (.csr 0, 4) := by
  decide

/-- `withFetchWord` makes the next step run the word. -/
theorem test_withFetchWord :
    (stateOf (step (State.reset.withFetchWord 64 0x2000000800000000))).map (fun t => (t.resp, t.cmds))
      = some (.csr 8, []) := by decide

/-! ### Vectors of one operation -/

/-- V-Q1: -2.0 and 2.0 go to the upper region, -0.0 to region 2, the infinities to the ends. -/
theorem test_quantize :
    [0xBFF33333, 0xC0000000, 0xC0200000, 0x80000000, 0x40000000, 0x7F800000, 0xFF800000, 0x7FC00000].map
      (region exampleQuantizer) = [1, 1, 0, 2, 3, 3, 0, 0] := by decide

/-- V-Q4: 2^24 + 1 rounds back, so the order of summation shows. -/
theorem test_softScore_order :
    let p : Pattern := { id := 1, bits := [], ideal := [0x3F800000, 0x3F800000, 0x3F800000], du := 1 }
    let big := InputUnit.soft 0x4B800000 0
    let one := InputUnit.soft 0x3F800000 0
    softScore [big, one, one] p = F32.ofBits 0x4B800000 ∧
      (softScore [one, one, big] p).gt (F32.ofBits 0x4B800000) = true := by decide +kernel

/-- V-C1: the byte 0x41 under CRC-16/CCITT-FALSE. -/
theorem test_crc : crcCalc 16 0x1021 0xFFFF 0 (bitsOf 8 0x41) = 0xB915 := by decide

/-- V-F5: the CRC-4 of `0010` is `0110`. -/
theorem test_crc4 : crcCalc 4 3 0 0 (bitsOf 4 2) = 6 := by decide +kernel

/-- V-G1: the columns of Golay(23,12), and a single error at position 0. -/
theorem test_golay23_cols :
    golay23.cols = [0x63A, 0x31D, 0x7B4, 0x3DA, 0x1ED, 0x6CC, 0x366, 0x1B3, 0x6E3, 0x54B, 0x49F, 0x475, 0x400, 0x200,
      0x100, 0x080, 0x040, 0x020, 0x010, 0x008, 0x004, 0x002, 0x001] := by decide +kernel

theorem test_golay23_corrects :
    blockDecode golay23 (List.range 23) (bitsOf 23 0x4AAE86) = ⟨.corrected, 2, 0, bitsOf 23 0x2AAE86⟩ := by
  decide +kernel

/-- V-G2: four errors in Golay(24,12) fail. -/
theorem test_golay24_fails :
    blockDecode golay24 (List.range 24) (bitsOf 24 0xA55D0D) = ⟨.failed, 0, 0, bitsOf 24 0xA55D0D⟩ := by decide +kernel

/-- V-RS1: one symbol in error, three bits. -/
theorem test_rs_corrects :
    rsDecode 3 0xB 7 3 1 (List.range 21) ([1, 2, 3, 0, 0, 1, 4].flatMap (bitsOf 3))
      = ⟨.corrected, 3, 0, [1, 2, 3, 0, 0, 1, 3].flatMap (bitsOf 3)⟩ := by decide +kernel

/-- V-RS1: three symbols in error fail. -/
theorem test_rs_fails :
    (rsDecode 3 0xB 7 3 1 (List.range 21) ([0, 3, 2, 0, 0, 1, 3].flatMap (bitsOf 3))).verdict = .failed := by
  decide +kernel

/-- Relation B of V-T2. -/
def relationB : List (Dibit × Dibit) := [(0, 3), (3, 0), (3, 1), (1, 3), (1, 2), (2, 1), (2, 0), (0, 2)]

def trellisCfg : Cfg := { Config.base with trellisLegal := relationB }

/-- V-T2: 0,0,1,2 has 2 violations and the unique correction 0,2,1,2, so that no tie is broken. -/
theorem test_trellis_unique :
    trellisDecode trellisCfg (List.range 8) none none ([0, 0, 1, 2].flatMap dibitBits)
      = ⟨.corrected, 1, 2, [0, 2, 1, 2].flatMap dibitBits⟩ := by decide

/-- V-T2: the same with fail_above = 0. -/
theorem test_trellis_fails :
    trellisDecode trellisCfg (List.range 8) none (some 0) ([0, 0, 1, 2].flatMap dibitBits)
      = ⟨.failed, 0, 2, [0, 0, 1, 2].flatMap dibitBits⟩ := by decide

/-- The types of V-D1. -/
def dispatchCfg : Cfg :=
  { withDus [(1, { plainDu (.fixed 16) with opcode := some ⟨0, 6⟩, vendor := some ⟨8, 8⟩ })] with
    primary := [((1, 5), 0x0105)], secondary := [((1, 0x90, 5), 0x9005)] }

/-- V-D1, V-D2, V-D4: the standard opcode space, the vendor's, and no fallback from one to the other. -/
theorem test_dispatch :
    [0x1400, 0x1490, 0x1491].map (fun v => (buildMessage dispatchCfg (frameWith (bitsOf 16 v) (some 16)) []).variant)
      = [0x0105, 0x9005, 0xFFFF] := by decide

/-- The types of `REASM`: 2 a header, 3 its block. -/
def reasmCfg : Cfg :=
  { withDus
      [(2, { plainDu (.fixed 16) with opcode := some ⟨12, 4⟩, role := .header 1 [⟨0, 8⟩] ⟨8, 4⟩ }),
       (3, { plainDu (.fixed 16) with role := .block 1 [⟨0, 8⟩] (some ⟨8, 4⟩) })] with
    patterns := [{ id := 1, bits := bitsOf 8 0xF0, ideal := [], du := 2 },
                 { id := 2, bits := bitsOf 8 0xCC, ideal := [], du := 3 }]
    primary := [((2, 9), 0x0209)] }

def reasmState : State := .powerOn reasmCfg Config.baseParams

/-- The header frame of `H(a, n)`. -/
def headerOf (v : Nat) : Frame := { frameWith (bitsOf 16 v) (some 16) with du := 2 }
/-- The block frame of `K(a, i)`. -/
def blockOf (v : Nat) : Frame := { frameWith (bitsOf 16 v) (some 16) with du := 3 }

/-- The table after `H(0x21, 1)`. -/
def pendingState : State := handleFrame (headerOf 0x2119) 23 reasmState

/-- V-R1 and V-R3 with N = 1: the block completes the sequence; a block of another key is an orphan. -/
theorem test_reassembly :
    (handleFrame (blockOf 0x210A) 47 pendingState).outq.map (fun m => (m.variant, m.blockCount, m.bits))
        = [(0x0209, 2, bitsOf 16 0x2119 ++ bitsOf 16 0x210A)] ∧
      (handleFrame (blockOf 0x220A) 47 pendingState).ctr.blockOrphan = 1 := by decide

/-- V-R8: with T = 34 the entry survives an age of 34, with T = 33 it does not. -/
theorem test_timeout :
    [33, 34].map (fun T => (sweepTimeouts 57 { pendingState with
      par := { Config.baseParams with seqTimeout := T } }).seqs.length) = [0, 1] := by decide

/-- 30_encoding.md R165, R166: lines of assembly. -/
theorem test_assembler :
    asmLine "NOP ; nothing".toList = some [.nop] ∧ asmLine "push.soft -3.0".toList = some [.pushSoft 0xC0400000] ∧
      asmLine "wrcsr CTRL, 3".toList = some [.wrcsr 0x000 3] ∧
      asmLine "rdcnt ILLEGAL_CMD".toList = some [.rdcsr 0x034] ∧
      asmLine "push.bits \"10\"".toList = some [.pushBit true, .pushBit false] ∧
      asmLine "push.bit 2".toList = none := by decide

/-! ### Witnesses: for each obligation with hypotheses, a state and operands that meet them, clause by clause -/

/-- The instruction answers a next state. -/
def completes (i : Instr) (s : State) : Bool := (stateOf (exec i s)).isSome

/-- The step answers a next state. -/
def steps (s : State) : Bool := (stateOf (step s)).isSome

theorem next_of_completes {i : Instr} {s : State} (h : completes i s = true) : ∃ t, exec i s = .next t := by
  unfold completes at h
  cases he : exec i s with
  | next t => exact ⟨t, rfl⟩
  | fault f => simp [he, stateOf] at h
  | refused r => simp [he, stateOf] at h

theorem next_of_steps {s : State} (h : steps s = true) : ∃ t, step s = .next t := by
  unfold steps at h
  cases he : step s with
  | next t => exact ⟨t, rfl⟩
  | fault f => simp [he, stateOf] at h
  | refused r => simp [he, stateOf] at h

theorem witness_DecodableWordsAreTheTablesWords : decode 0x21000FFFFFFFFFFF = .ok (.wrcsr 0xFFF 0xFFFFFFFF) := by
  decide

theorem witness_UnassignedOpcodeIsIgnored :
    ([0x0400000000000000, 0x0700000000000000, 0x0900000000000000, 0x1100000000000000, 0x2200000000000000,
      0xFF00000000000123] : List Word).all (fun w => !([0x00, 0x01, 0x02, 0x03, 0x08, 0x10, 0x20, 0x21] : List U8).contains
        (w.extractLsb' 56 8)) = true := by decide

/-- The clauses of reserved bits: RSVD at both ends, CSR, and the lowest unused DATA bit of each opcode. -/
theorem witness_ReservedBitsAreIgnored :
    (0x0000100000000000 : Word).extractLsb' 44 12 ≠ 0 ∧ (0x2180000000000000 : Word).extractLsb' 44 12 ≠ 0 ∧
      (0x0300000100000000 : Word).extractLsb' 32 12 ≠ 0 ∧ (0x1000080000000000 : Word).extractLsb' 32 12 ≠ 0 ∧
      (0x0100000000000002 : Word).extractLsb' 1 31 ≠ 0 ∧ (0x0200000000000004 : Word).extractLsb' 2 30 ≠ 0 ∧
      (0x1000000000000001 : Word).extractLsb' 0 32 ≠ 0 ∧ (0x2000000080000000 : Word).extractLsb' 0 32 ≠ 0 := by
  decide

theorem witness_OpcodeSelectsTheCommand :
    (0x0000000000000000 : Word).extractLsb' 0 44 = 0 ∧ (0x0100000000000001 : Word).extractLsb' 1 43 = 0 ∧
      (0x0200000000000003 : Word).extractLsb' 2 42 = 0 ∧ (0x03000000FFFFFFFF : Word).extractLsb' 32 12 = 0 ∧
      (0x0800000000000000 : Word).extractLsb' 0 44 = 0 ∧ (0x1000000000000000 : Word).extractLsb' 0 44 = 0 ∧
      (0x20000FFF00000000 : Word).extractLsb' 0 32 = 0 ∧ (0x21000FFFFFFFFFFF : Word).extractLsb' 44 12 = 0 := by
  decide

theorem witness_StepRunsTheNextCommand :
    (State.reset.setCmds [0, 0xFF00000000000000]).cmds = 0 :: [0xFF00000000000000] ∧ decode 0 = .ok .nop ∧
      (State.reset.setCmds [0xFF00000000000000]).cmds = 0xFF00000000000000 :: [] ∧
      decode 0xFF00000000000000 = .error (.illegal 0xFF) ∧ State.reset.cmds = [] := by decide

theorem witness_PendingCommandsAndOldResponseDoNotMatter :
    ∃ t, exec (.rdcsr 0x008) (State.reset.setCmds [0]) = .next t := next_of_completes (by decide)

theorem witness_ConfigurationIsNeverWritten : ∃ t, step (State.reset.setCmds [0x2100000000000003]) = .next t :=
  next_of_steps (by decide)

theorem witness_UnitCountAdvancesOnAcceptedPushOnly :
    (∃ t, exec (.pushBit true) State.reset = .next t) ∧ State.reset.cfgOk = true ∧
      (pushedUnit State.reset (.pushBit true)).isSome = true ∧ (∃ t, exec .pop State.reset = .next t) ∧
      decode 0xFF00000000000000 = .error (.illegal 0xFF) :=
  ⟨next_of_completes (by decide), by decide, by decide, next_of_completes (by decide), by decide⟩

theorem witness_NopChangesNothing : (1 : Word).extractLsb' 56 8 = 0 ∧ (1 : Word) ≠ 0 := by decide

theorem witness_ResetClearsThePipeline :
    State.reset.cfgOk = true ∧ inertState.cfgOk = false ∧ (0x0800000000000004 : Word).extractLsb' 56 8 = 0x08 ∧
      (0x0800000000000004 : Word) ≠ 0x0800000000000000 := by decide

theorem witness_PopTakesTheOldestMessage :
    ({ State.reset with outq := [someMessage []] } : State).outq = someMessage [] :: [] ∧
      State.reset.cfgOk = true ∧ State.reset.outq = [] ∧ inertState.cfgOk = false ∧
      (0x1000000000000001 : Word).extractLsb' 56 8 = 0x10 := by decide

theorem witness_ReadOfAssignedCsr :
    ([0x000, 0x001, 0x002, 0x003, 0x004, 0x005, 0x006, 0x007, 0x008, 0x010, 0x011] : List CsrNum).all
      (fun n => (csrOfNum n).isSome) = true := by decide

/-- The first and the last counter. -/
theorem witness_CounterRegisters :
    csrOfNum (BitVec.ofNat 12 (0x020 + 0)) = some (.counter .syncDetect) ∧
      csrOfNum (BitVec.ofNat 12 (0x020 + 21)) = some (.counter .nanInput) ∧
      counterNames[0]? = some .syncDetect ∧ counterNames[21]? = some .nanInput ∧ counterNames[22]? = none ∧
      CounterName.nanInput ≠ .syncDetect := by decide

/-- Both ends of each gap of the CSR map. -/
theorem witness_ReadOfCsr :
    ([0x009, 0x00F, 0x012, 0x01F, 0x036, 0xFFF] : List CsrNum).all (fun n => (csrOfNum n).isNone) = true ∧
      csrOfNum 0x035 = some (.counter .nanInput) ∧ (0x2000000000000001 : Word).extractLsb' 56 8 = 0x20 ∧
      (0x2000000000000001 : Word).extractLsb' 0 32 ≠ 0 := by decide

theorem witness_StatusFields :
    cfgValid Config.base Config.baseParams = true ∧
      cfgValid { Config.base with patterns := [] } Config.baseParams = false ∧ 1 ≤ Config.baseParams.outqDepth ∧
      cfgValid Config.base { Config.baseParams with outqDepth := 0 } = false ∧ State.reset.lock = .searching ∧
      (lockedState (frameWith [] (some 10))).lock = .synchronized (frameWith [] (some 10)) := by
  decide

theorem witness_WriteOfCsr :
    (0x001 : CsrNum) ≠ 0x000 ∧ (0xFFF : CsrNum) ≠ 0x000 ∧ (0x2180000000000000 : Word).extractLsb' 56 8 = 0x21 ∧
      (0x2180000000000000 : Word).extractLsb' 44 12 ≠ 0 := by decide

theorem witness_ErrorBitsAreSticky :
    inertState.err.getLsbD 0 = true ∧ ∃ t, exec (.wrcsr 0x000 2) inertState = .next t :=
  ⟨by decide, next_of_completes (by decide)⟩

theorem witness_InertCoreIgnoresCommands :
    inertState.cfgOk = false ∧ InertInv inertState ∧ ∃ t, step inertState = .next t := by
  refine ⟨by decide, fun _ => ?_, next_of_steps (by decide)⟩
  refine ⟨rfl, rfl, rfl, rfl, rfl, by decide, fun k hk => ?_, fun name _ => Counters.get_zero name⟩
  have h : inertState.err = 1 := by decide
  rw [h]
  simp [BitVec.getLsbD, Nat.testBit_eq_decide_div_mod_eq, Nat.div_eq_of_lt (Nat.one_lt_two_pow (by omega : k ≠ 0))]

theorem witness_PushOfTheWrongKind :
    State.reset.cfgOk = true ∧ State.reset.cfg.unitKind ≠ .dibit ∧ State.reset.cfg.unitKind ≠ .soft ∧
      dibitState.cfgOk = true ∧ dibitState.cfg.unitKind ≠ .bit := by decide

theorem witness_AcceptedPushRunsTheStages :
    (State.reset.cfgOk = true ∧ State.reset.cfg.unitKind = .bit) ∧
      (dibitState.cfgOk = true ∧ dibitState.cfg.unitKind = .dibit) ∧
      (softState.cfgOk = true ∧ softState.cfg.unitKind = .soft) := by decide

/-- An empty and a full window. -/
theorem witness_WindowKeepsTheNewestUnits :
    State.reset.window.length ≤ State.reset.cfg.windowLen ∧ 1 ≤ State.reset.cfg.windowLen ∧
      (lockedState (frameWith [] none)).window.length = (lockedState (frameWith [] none)).cfg.windowLen := by
  decide

/-- One symbol in each region: -3.0, -1.0, 1.0, 3.0, and a NaN. -/
theorem witness_QuantizerCountsThresholds :
    [0xC0400000, 0xBF800000, 0x3F800000, 0x40400000, 0x7FC00000].map (region exampleQuantizer) = [0, 1, 2, 3, 0] ∧
      (0x7FC00000 : Binary32).extractLsb' 23 8 = 0xFF ∧ (0x7FC00000 : Binary32).extractLsb' 0 23 ≠ 0 := by
  decide

/-- Sums and products below, at and above the overflow; the least subnormal squared; the fields of zero, the largest
finite value, an infinity and a NaN. -/
theorem witness_RoundingIsToNearestEven :
    roundMag (2 ^ 128 * 2 ^ 148 + 2 ^ 128 * 2 ^ 148) 0 = 2 ^ 128 * 2 ^ 149 ∧ roundMag 2 0 = 2 ∧
      roundMag (1 * 1) 149 = 0 ∧ roundMag (2 ^ 149 * 5) 149 = 5 ∧
      2 ^ 128 * 2 ^ 149 ≤ roundMag (2 ^ 240 * 2 ^ 240) 149 ∧
      (0x80000000 : Binary32).extractLsb' 23 8 = 0 ∧ (0x7F7FFFFF : Binary32).extractLsb' 23 8 = 254 ∧
      ((0x7F800000 : Binary32).extractLsb' 23 8).toNat = 255 ∧ ((0x7F800000 : Binary32).extractLsb' 0 23).toNat = 0 ∧
      ((0x7FC00000 : Binary32).extractLsb' 0 23).toNat ≠ 0 := by decide +kernel

/-- The whole pattern in the window is detected; one bit fewer is not. -/
theorem witness_HardDetectionIsTheUniqueBestPattern :
    Config.base.unitKind ≠ .soft ∧ Config.base.patterns.Nodup ∧
      detection Config.base ((bitsOf 8 0xF0).map .bit) = .found (Config.base.patterns.headD
        { id := 0, bits := [], ideal := [], du := 0 }) ∧
      detection Config.base ((bitsOf 7 0x78).map .bit) = .none := by decide

/-- The running sum of a soft score. -/
def runningScore (window : List InputUnit) (p : Pattern) (j : Nat) : F32 :=
  softScore ((span window p.ideal.length).take j) p

theorem runningScore_succ {window : List InputUnit} {p : Pattern} {j : Nat} {v x : Binary32} {d : Dibit}
    (hu : window[window.length - p.ideal.length + j]? = some (.soft v d)) (hx : p.ideal[j]? = some x) :
    runningScore window p (j + 1) = fadd32 (runningScore window p j) (fmul32 (F32.ofBits v) (F32.ofBits x)) := by
  have hz : ((span window p.ideal.length).zip p.ideal)[j]? = some (.soft v d, x) := by
    rw [List.getElem?_zip_eq_some, span, List.getElem?_drop]
    exact ⟨hu, hx⟩
  have ht : ∀ (l : List InputUnit) (m : List Binary32) (k : Nat),
      (l.take k).zip m = (l.zip m).take k := by
    intro l m k
    induction k generalizing l m with
    | zero => rfl
    | succ k ih => cases l <;> cases m <;> simp [ih]
  rw [runningScore, runningScore, softScore, softScore, ht, ht, List.take_add_one, hz]
  simp [List.foldl_append, unitValue]

/-- V-Q2 is detected, and V-Q3 with a NaN is not; the running sums exist for every window. -/
theorem witness_HardDetectionIsTheUniqueBestPattern_soft :
    softCfg.unitKind = .soft ∧ softCfg.patterns.Nodup ∧
      (∀ u ∈ [InputUnit.soft 0x40400000 1, .soft 0xC0400000 3, .soft 0x40400000 1], u.kind = .soft) ∧
      (detection softCfg [.soft 0x40400000 1, .soft 0xC0400000 3, .soft 0x40400000 1] matches .found _) = true ∧
      detection softCfg [.soft 0x40400000 1, .soft 0xC0400000 3, .soft 0x7FC00000 3] = .none ∧
      ∀ window : List InputUnit, ∃ acc : Pattern → Nat → F32, (∀ p, acc p 0 = .fin 0) ∧
        ∀ p j v d x, window[window.length - p.ideal.length + j]? = some (.soft v d) → p.ideal[j]? = some x →
          acc p (j + 1) = fadd32 (acc p j) (fmul32 (F32.ofBits v) (F32.ofBits x)) :=
  ⟨by decide, by decide, by decide, by decide +kernel, by decide +kernel,
    fun window => ⟨runningScore window, fun _ => rfl, fun _ _ _ _ _ => runningScore_succ⟩⟩

theorem witness_ExactPatternIsDetected :
    ∀ p, p = Config.base.patterns.headD { id := 0, bits := [], ideal := [], du := 0 } →
      p ∈ Config.base.patterns ∧ ((bitsOf 8 0xF0).map InputUnit.bit).length = patternLength Config.base.unitKind p ∧
        ((bitsOf 8 0xF0).map InputUnit.bit).flatMap unitBits = p.bits ∧ Config.base.hardThreshold < p.bits.length ∧
        ∀ q ∈ Config.base.patterns, q ≠ p → q.bits.length < p.bits.length := by
  rintro p rfl
  decide

/-- The pattern of `BASE`. -/
def basePattern : Pattern := { id := 1, bits := bitsOf 8 0xF0, ideal := [], du := 1 }

/-- No match while searching, and an AMBIGUOUS result (V-S4 with `11110010`). -/
def twoPatternState : State :=
  { State.reset with
    cfg := { Config.base with patterns := Config.base.patterns ++ [{ basePattern with id := 2, bits := bitsOf 8 0xF3 }] }
    window := (bitsOf 7 0x79).map .bit }

theorem witness_UnmatchedUnitWhileSearching :
    (State.reset.cfgOk = true ∧ pushedUnit State.reset (.pushBit true) = some (.bit true) ∧
      State.reset.lock = .searching ∧ detection State.reset.cfg (windowWith State.reset (.bit true)) = .none) ∧
      twoPatternState.cfgOk = true ∧ pushedUnit twoPatternState (.pushBit false) = some (.bit false) ∧
      twoPatternState.lock = .searching ∧
      detection twoPatternState.cfg (windowWith twoPatternState (.bit false)) = .ambiguous := by decide

/-- A fixed and a variable type for the matched pattern. -/
def variableState : State := { almostState with cfg := withDus [(1, plainDu (.variableLen 4 ⟨0, 4⟩ [] (.affine 4 2)))] }

theorem witness_MatchStartsAFrame :
    (almostState.cfgOk = true ∧ pushedUnit almostState (.pushBit false) = some (.bit false) ∧
      almostState.lock = .searching ∧
      detection almostState.cfg (windowWith almostState (.bit false)) = .found basePattern ∧
      almostState.cfg.du? basePattern.du = some (plainDu (.fixed 10))) ∧
      variableState.cfgOk = true ∧ variableState.lock = .searching ∧
      detection variableState.cfg (windowWith variableState (.bit false)) = .found basePattern ∧
      variableState.cfg.du? basePattern.du = some (plainDu (.variableLen 4 ⟨0, 4⟩ [] (.affine 4 2))) := by
  decide

theorem witness_RedetectionDiscardsTheFrame :
    ∀ s, s = { almostState with lock := .synchronized (frameWith [true] (some 10)) } →
      s.cfgOk = true ∧ pushedUnit s (.pushBit false) = some (.bit false) ∧
        s.lock = .synchronized (frameWith [true] (some 10)) ∧
        detection s.cfg (windowWith s (.bit false)) = .found basePattern ∧
        s.cfg.du? basePattern.du = some (plainDu (.fixed 10)) := by
  rintro s rfl
  decide

/-- No pattern is found when the detection answers NONE. -/
theorem not_found_of_none {cfg : Cfg} {w : List InputUnit} (h : detection cfg w = .none) :
    ∀ p, detection cfg w ≠ .found p := by
  intro p
  rw [h]
  simp

/-- A known target one bit away, and an unread header one bit away. -/
theorem witness_UnitExtendsTheFrame :
    (∀ s, s = lockedState (frameWith (bitsOf 8 0) (some 10)) →
      s.cfgOk = true ∧ pushedUnit s (.pushBit true) = some (.bit true) ∧
        s.lock = .synchronized (frameWith (bitsOf 8 0) (some 10)) ∧
        detection s.cfg (windowWith s (.bit true)) = .none ∧ (bitsOf 8 0).length + 1 ≠ 10) ∧
      ∀ s, s = { lockedState (frameWith (bitsOf 2 0) none) with cfg := variableState.cfg } →
        s.cfgOk = true ∧ pushedUnit s (.pushBit true) = some (.bit true) ∧
          detection s.cfg (windowWith s (.bit true)) = .none ∧ (bitsOf 2 0).length + 1 < 4 ∧
          s.cfg.du? 1 = some (plainDu (.variableLen 4 ⟨0, 4⟩ [] (.affine 4 2))) := by
  constructor <;> rintro s rfl <;> decide

theorem witness_FullFrameCompletes :
    ∀ s, s = lockedState (frameWith (bitsOf 9 0) (some 10)) →
      s.cfgOk = true ∧ pushedUnit s (.pushBit true) = some (.bit true) ∧
        s.lock = .synchronized (frameWith (bitsOf 9 0) (some 10)) ∧
        detection s.cfg (windowWith s (.bit true)) = .none ∧
        (frameWith (bitsOf 9 0) (some 10)).target = some ((bitsOf 9 0).length + (unitBits (.bit true)).length) ∧
        s.cfg.du? 1 = some (plainDu (.fixed 10)) := by
  rintro s rfl
  decide

/-- An unread header of 4 bits, of which 3 are there. -/
theorem witness_HeaderDecidesTheLength_step :
    ∀ s, s = { lockedState (frameWith (bitsOf 3 0) none) with cfg := variableState.cfg } →
      s.cfgOk = true ∧ pushedUnit s (.pushBit true) = some (.bit true) ∧
        s.lock = .synchronized (frameWith (bitsOf 3 0) none) ∧ (frameWith (bitsOf 3 0) none).target = none ∧
        s.cfg.du? 1 = some (plainDu (.variableLen 4 ⟨0, 4⟩ [] (.affine 4 2))) ∧
        4 ≤ (bitsOf 3 0).length + (unitBits (.bit true)).length ∧
        detection s.cfg (windowWith s (.bit true)) = .none := by
  rintro s rfl
  decide

/-- A header whose CRC-4 fails and one whose CRC-4 passes (V-F5); Affine lengths below, at and above the bounds, and a
Select table with and without an entry. -/
theorem witness_HeaderDecidesTheLength :
    ((runChecks [.crc 4 3 0 0 [0, 1, 2, 3] [4, 5, 6, 7]] (frameWith (bitsOf 8 0x03) none) State.reset).1.results.any
        fun r => r.verdict == .failed) = true ∧
      ((runChecks [.crc 4 3 0 0 [0, 1, 2, 3] [4, 5, 6, 7]] (frameWith (bitsOf 8 0x13) none) State.reset).1.results.any
        fun r => r.verdict == .failed) = false ∧
      0 + field (bitsOf 4 0) ⟨0, 4⟩ * 4 < 4 ∧ 0 + field (bitsOf 4 1) ⟨0, 4⟩ * 4 = 4 ∧
      Config.baseParams.maxFrameBits < 4094 + field (bitsOf 4 1) ⟨0, 4⟩ * 4 ∧
      ([(0, 10)] : Table U32 U8).lookup (BitVec.ofNat 32 (field (bitsOf 4 5) ⟨0, 4⟩)) = none ∧
      ([(0, 10)] : Table U32 U8).lookup (BitVec.ofNat 32 (field (bitsOf 4 0) ⟨0, 4⟩)) = some 10 := by decide

theorem witness_PushFrame :
    State.reset.cfgOk = true ∧ pushedUnit State.reset (.pushBit true) = some (.bit true) ∧
      ∃ t, exec (.pushBit true) State.reset = .next t :=
  ⟨by decide, by decide, next_of_completes (by decide)⟩

/-- The register of R310 after `j` data bits. -/
def crcRegister (w poly init : Nat) (data : List Nat) (bits : List Bool) (j : Nat) : Nat :=
  ((data.take j).map (bitAt bits)).foldl (crcStep w poly) init

theorem crcRegister_succ {w poly init j p : Nat} {data : List Nat} {bits : List Bool} (h : data[j]? = some p) :
    crcRegister w poly init data bits (j + 1) =
      if ((crcRegister w poly init data bits j).testBit (w - 1) ^^ bits.getD p false) = true
      then (crcRegister w poly init data bits j * 2 % 2 ^ w) ^^^ poly
      else crcRegister w poly init data bits j * 2 % 2 ^ w := by
  rw [crcRegister, List.take_add_one, h]
  simp [crcRegister, crcStep, bitAt]

/-- The register exists for every check and frame; a word whose checksum is right, and one whose checksum is not. -/
theorem witness_CrcDetectsEverySingleFlip_register :
    (∀ (w poly init : Nat) (data : List Nat) (bits : List Bool), ∃ reg : Nat → Nat, reg 0 = init ∧ ∀ j p, data[j]? = some p → reg (j + 1) =
      if ((reg j).testBit (w - 1) ^^ bits.getD p false) = true then (reg j * 2 % 2 ^ w) ^^^ poly
      else reg j * 2 % 2 ^ w) ∧
      crcRegister 4 3 0 [0, 1, 2, 3] (bitsOf 8 0x26) 4 ^^^ 0 = 6 ∧
      ((List.range 4).map fun j => ((bitsOf 8 0x26).getD ([4, 5, 6, 7].getD j 0) false).toNat * 2 ^ (4 - 1 - j)).sum = 6 ∧
      ((List.range 4).map fun j => ((bitsOf 8 0x27).getD ([4, 5, 6, 7].getD j 0) false).toNat * 2 ^ (4 - 1 - j)).sum = 7 :=
  ⟨fun w poly init data bits => ⟨crcRegister w poly init data bits, rfl, fun _ _ => crcRegister_succ⟩,
    by decide +kernel, by decide, by decide⟩

/-- The CRC-4 of `0010` is `0110` (V-F5). -/
theorem witness_CrcDetectsEverySingleFlip :
    ∀ c, c = Check.crc 4 3 0 0 [0, 1, 2, 3] [4, 5, 6, 7] →
      vCheck Config.baseParams c = true ∧ (∀ q ∈ c.positions, q < (bitsOf 8 0x26).length) ∧
        (applyCheck Config.base c (bitsOf 8 0x26)).verdict = .passed := by
  rintro c rfl
  decide

/-- The repetition code of length 3, t = 1: a codeword and a word at distance 1; with t = 0, a word at no distance. -/
def repetition3 : LinearCode := { n := 3, r := 2, cols := [2, 1, 3], t := 1 }

theorem witness_BlockDecodingIsBoundedDistance :
    repetition3.valid = true ∧ [0, 1, 2].length = repetition3.n ∧ repetition3.syndrome [true, true, true] = 0 ∧
      repetition3.syndrome [true, false, true] ≠ 0 ∧ hamming [true, false, true] [true, true, true] ≤ repetition3.t ∧
      { repetition3 with t := 0 }.valid = true ∧
      ∀ y ∈ [[false, false, false], [true, true, true]], 0 < hamming [true, false, true] y := by decide

theorem witness_RsDecodingIsBoundedDistance :
    vCheck Config.baseParams (.rs 3 0xB 7 3 1 (List.range 21)) = true ∧
      (∀ p ∈ List.range 21, p < ([1, 2, 3, 0, 0, 1, 3].flatMap (bitsOf 3)).length) ∧
      rsCodeword 3 0xB 7 3 1 [1, 2, 3, 0, 0, 1, 3] = true ∧ rsCodeword 3 0xB 7 3 1 [1, 2, 3, 0, 0, 1, 4] = false := by
  decide

/-- A received sequence with a least cost, and one for which no legal sequence exists. -/
theorem witness_ViterbiCostIsTheMinimum :
    minCost trellisCfg.legal none [0, 0, 1, 2] = some 1 ∧ minCost (fun _ _ => false) (some 0) [0] = none := by
  decide

theorem witness_TrellisPathsAreTheMinimumCostPaths :
    minCost trellisCfg.legal (some 0) [0, 0, 1, 2] = some 3 ∧ minCost trellisCfg.legal none [0, 2] = some 0 ∧
      dibitsOf (bitsAt ([0, 0, 1, 2].flatMap dibitBits) (List.range 8)) = [0, 0, 1, 2] := by
  decide

theorem witness_TrellisViolationsAndVerdicts : ∀ a, ∃ b, trellisCfg.legal a b = true := by decide

theorem witness_VerdictsChangeExactlyTheCorrectedBits :
    vCheck Config.baseParams (.block repetition3 [0, 1, 2]) = true ∧
      (applyCheck Config.base (.block repetition3 [0, 1, 2]) [true, true, true]).verdict = .passed ∧
      (applyCheck Config.base (.block repetition3 [0, 1, 2]) [true, false, true]).verdict = .corrected := by
  decide

theorem witness_ShortFrameFailsTheCheck :
    2 ∈ (Check.block repetition3 [0, 1, 2]).positions ∧ [true, true].length ≤ 2 := by decide

theorem witness_ChecksRunInListOrder :
    ∃ g t, runChecks [.block repetition3 [0, 1, 2]] (frameWith [true, false, true] none) State.reset = (g, t) ∧
      g.bits = [true, true, true] := ⟨_, _, rfl, by decide⟩

/-- Position lists that reach the last bit of a frame. -/
theorem witness_ChecksRunInListOrder_inside :
    (∀ p ∈ [0, 1, 2, 3] ++ [4, 5, 6, 7], p < (bitsOf 8 0x26).length) ∧ (∀ p ∈ List.range 21, p < (bitsOf 21 0).length) := by
  decide

theorem witness_MessageFields :
    dispatchCfg.du? 1 = some { plainDu (.fixed 16) with opcode := some ⟨0, 6⟩, vendor := some ⟨8, 8⟩ } ∧
      Config.base.du? 1 = some (plainDu (.fixed 10)) ∧ 8 + 8 ≤ (bitsOf 16 0x0A05).length := by decide

/-- A known opcode of the standard vendor, one of another vendor, and an unknown one (V-D1, V-D2, V-D4). -/
theorem witness_VariantLookup :
    dispatchCfg.primary.lookup (1, 5) = some 0x0105 ∧ dispatchCfg.secondary.lookup (1, 0x90, 5) = some 0x9005 ∧
      dispatchCfg.secondary.lookup (1, 0x91, 5) = none := by decide

theorem witness_FullQueueDropsTheNewest :
    State.reset.outq.length < State.reset.par.outqDepth ∧
      ∀ s, s = { State.reset with outq := List.replicate 4 (someMessage []) } → s.par.outqDepth ≤ s.outq.length := by
  refine ⟨by decide, ?_⟩
  rintro s rfl
  decide

/-- A header of too many blocks, one with a failed check, and one of none. -/
theorem witness_FramesDispatchedAlone :
    (∃ d, Config.base.du? 1 = some d ∧ d.role = .single) ∧
      (∃ d, reasmCfg.du? 2 = some d ∧ d.role = .header 1 [⟨0, 8⟩] ⟨8, 4⟩) ∧
      4 < field (headerOf 0x2159).bits ⟨8, 4⟩ ∧
      validityOf [⟨.crc, .failed, 0, 0⟩] ≠ .valid ∧
      validityOf (headerOf 0x2109).results = .valid ∧ field (headerOf 0x2109).bits ⟨8, 4⟩ = 0 :=
  ⟨⟨_, rfl, rfl⟩, ⟨_, rfl, rfl⟩, by decide, by decide, by decide, by decide⟩

/-- The key of 0x21 in class 1. -/
def key21 : U8 × List U32 := (1, [0x21])

/-- A table entry of key 0x21. -/
def entry21 : SeqEntry :=
  { key := key21, header := headerOf 0x2119, blocks := [], expected := 1, last := 23 }

/-- An empty table; the table with the key; a full table of other keys. -/
theorem witness_HeaderOpensASequence :
    validityOf (headerOf 0x2119).results = .valid ∧ field (headerOf 0x2119).bits ⟨8, 4⟩ = 1 ∧
      key21 = (1, [⟨0, 8⟩].map fun x => BitVec.ofNat 32 (field (headerOf 0x2119).bits x)) ∧
      pendingState.seqs = [] ++ entry21 :: [] ∧ entry21.key = key21 ∧
      (∀ e ∈ reasmState.seqs, e.key ≠ key21) ∧ reasmState.seqs.length ≠ reasmState.par.maxPending ∧
      ∀ l, l = [{ entry21 with key := (1, [1]) }, { entry21 with key := (1, [2]), last := 24 },
          { entry21 with key := (1, [3]), last := 25 }, { entry21 with key := (1, [4]), last := 26 }] →
        l.length = reasmState.par.maxPending ∧ (∀ e ∈ l, e.key ≠ key21) ∧ ∀ e ∈ l.tail, 23 < e.last := by
  refine ⟨by decide, by decide, by decide, by decide, rfl, by decide, by decide, ?_⟩
  rintro l rfl
  decide

/-- A block of the entry's next index and one of another index. -/
theorem witness_BlockJoinsItsSequence :
    (∃ d, reasmCfg.du? 3 = some d ∧ d.role = .block 1 [⟨0, 8⟩] (some ⟨8, 4⟩)) ∧
      key21 = (1, [⟨0, 8⟩].map fun x => BitVec.ofNat 32 (field (blockOf 0x210A).bits x)) ∧
      pendingState.seqs = [] ++ entry21 :: [] ∧ entry21.key = key21 ∧
      field (blockOf 0x210A).bits ⟨8, 4⟩ = entry21.blocks.length ∧
      field (blockOf 0x211A).bits ⟨8, 4⟩ ≠ entry21.blocks.length ∧
      entry21.blocks.length + 1 = entry21.expected ∧
      entry21.blocks.length + 1 ≠ { entry21 with expected := 2 }.expected :=
  ⟨⟨_, rfl, rfl⟩, by decide, by decide, rfl, by decide, by decide, rfl, by decide⟩

/-- One header of one block and its block. -/
theorem witness_SequenceYieldsExactlyOneMessage :
    (∃ d, reasmState.cfg.du? (headerOf 0x2119).du = some d ∧ d.role = .header 1 [⟨0, 8⟩] ⟨8, 4⟩) ∧
      validityOf (headerOf 0x2119).results = .valid ∧ key21 = seqKey (headerOf 0x2119) 1 [⟨0, 8⟩] ∧
      field (headerOf 0x2119).bits ⟨8, 4⟩ = [(blockOf 0x210A, (47 : U64))].length ∧
      1 ≤ reasmState.par.maxBlocks ∧ (∀ e ∈ reasmState.seqs, e.key ≠ key21) ∧
      reasmState.seqs.length < reasmState.par.maxPending ∧
      (∃ b, reasmState.cfg.du? (blockOf 0x210A).du = some b ∧ b.role = .block 1 [⟨0, 8⟩] (some ⟨8, 4⟩)) ∧
      seqKey (blockOf 0x210A) 1 [⟨0, 8⟩] = key21 ∧ field (blockOf 0x210A).bits ⟨8, 4⟩ = 0 :=
  ⟨⟨_, rfl, rfl⟩, by decide, by decide, by decide, by decide, by decide, by decide, ⟨_, rfl, rfl⟩,
    by decide, by decide⟩

/-- The reset state with one command pending meets every invariant and steps. -/
def invState : State := State.reset.setCmds [0x0100000000000001]

theorem witness_step : ∃ t, step invState = .next t := next_of_steps (by decide)

theorem witness_ConfigInv : ConfigInv invState := rfl

theorem witness_StepKeepsTheBounds : ConfigInv invState ∧ BoundsInv invState ∧ ∃ t, step invState = .next t :=
  ⟨rfl, ⟨by decide, by decide, by decide⟩, witness_step⟩

theorem witness_StepKeepsFramesBelowTheirTarget :
    ConfigInv invState ∧ WindowKindInv invState ∧ FrameInv invState ∧ ∃ t, step invState = .next t :=
  ⟨rfl, by simp [WindowKindInv, invState, State.reset, State.powerOn],
    by simp [FrameInv, invState, State.reset, State.powerOn], witness_step⟩

theorem witness_StepKeepsOneEntryPerKey : TableInv pendingState ∧ ∃ t, step pendingState = .next t := by
  have h : pendingState.seqs = [entry21] := by decide
  refine ⟨⟨by rw [h]; decide, fun e he => ?_⟩, next_of_steps (by decide)⟩
  rw [h, List.mem_singleton] at he
  subst he
  decide

/-- The entry of `last` 23, with 24 units accepted. -/
theorem witness_StepKeepsLastTimesDistinct :
    ∀ s, s = { pendingState with unitCount := 24 } → ConfigInv s ∧ TimesInv s ∧ ∃ t, step s = .next t := by
  rintro s rfl
  have h : pendingState.seqs = [entry21] := by decide
  refine ⟨by unfold ConfigInv; decide, ⟨by rw [h]; decide, fun e he => ?_⟩, next_of_steps (by decide)⟩
  rw [h, List.mem_singleton] at he
  subst he
  decide

theorem witness_StepKeepsErrWellFormed : ErrInv invState ∧ ∃ t, step invState = .next t := by
  have h : invState.err = 0 ∧ invState.cfgOk = true := by decide
  exact ⟨⟨fun k _ => by simp [h.1], by simp [h.1, h.2]⟩, witness_step⟩

end Sys2Proof.Tests
end

/-! The state elements of 10_state.md: the counters (R66, R67), the unit count (R59) and STATUS (R61). -/

namespace Sys2Proof.Machine

/-! ### The counters -/

/-- R60, R66: the numbers from 0x020 are the counters, in the order of `counterNames`. -/
theorem csrOfNum_counter {k : Nat} (h : 0x020 + k < 2 ^ 12) :
    csrOfNum (BitVec.ofNat 12 (0x020 + k)) = counterNames[k]?.map Csr.counter := by
  have hn : (BitVec.ofNat 12 (0x020 + k)).toNat = 0x020 + k := by
    rw [BitVec.toNat_ofNat, Nat.mod_eq_of_lt h]
  unfold csrOfNum
  rw [hn]
  split
  any_goals omega
  simp

/-- A read of an assigned register answers its value and changes nothing else (44_control.md R430). -/
theorem exec_rdcsr_assigned {n : CsrNum} {c : Csr} (h : csrOfNum n = some c) (s : State) :
    exec (.rdcsr n) s = .next (s.respond (.csr (csrValue s c))) := by
  simp only [exec, execRdcsr, h]

/-- `ctr.NAME += k` is addition modulo 2^32 on the numbers (R67). -/
theorem Counters.toNat_get_add_self (c : Counters) (name : CounterName) (k : Nat) :
    ((c.add name k).get name).toNat = ((c.get name).toNat + k) % 2 ^ 32 := by
  rw [Counters.get_add_self, BitVec.toNat_add, BitVec.toNat_ofNat, Nat.add_mod_mod]

/-- Settles O16: the values of the table are `counterNames` read one by one, so the k-th value is the counter of the
k-th name. -/
theorem counterRegisters : Obligations.CounterRegisters := by
  refine ⟨fun s k v name hv hname => ?_, fun c name other k => ⟨c.toNat_get_add_self name k, fun h => c.get_add_ne h k⟩,
    fun _ _ _ => rfl⟩
  change (counterNames.map s.ctr.get)[k]? = some v at hv
  change counterNames[k]? = some name at hname
  have hget : s.ctr.get name = v := by simpa [List.getElem?_map, hname] using hv
  have hk : k < counterNames.length := (List.getElem?_eq_some_iff.1 hname).1
  have hcsr : csrOfNum (BitVec.ofNat 12 (0x020 + k)) = some (.counter name) := by
    rw [csrOfNum_counter (Nat.add_lt_add_left (hk.trans (by decide : counterNames.length < 4064)) 0x020), hname]
    rfl
  refine ⟨?_, hget⟩
  rw [exec_rdcsr_assigned hcsr, ← hget]
  rfl

/-! ### The unit count -/

/-- R201: the unit count is written by `admitUnit` alone; the stages behind it keep it (`SameBase`). -/
theorem acceptUnit_unitCount (u : InputUnit) (s : State) : (acceptUnit u s).unitCount = s.unitCount + 1 := by
  have hdetect := countDetection_base (detection (admitUnit u s).cfg (admitUnit u s).window) (admitUnit u s)
  have hframer := framerStep_base (detection (admitUnit u s).cfg (admitUnit u s).window) (unitBits u) s.unitCount
    (countDetection (detection (admitUnit u s).cfg (admitUnit u s).window) (admitUnit u s))
  calc (acceptUnit u s).unitCount = (admitUnit u s).unitCount := (hdetect.trans hframer).unitCount
    _ = s.unitCount + 1 := by rw [admitUnit_eq]

@[simp] theorem countNaN_unitCount (v : Binary32) (s : State) : (countNaN v s).unitCount = s.unitCount := by
  unfold countNaN
  split <;> rfl

@[simp] theorem reportError_unitCount (e : ErrBit) (r : Resp) (s : State) :
    (reportError e r s).unitCount = s.unitCount := rfl

@[simp] theorem kindMismatch_unitCount (s : State) : (kindMismatch s).unitCount = s.unitCount := rfl

@[simp] theorem rejectWord_unitCount (r : Reject) (s : State) : (rejectWord r s).unitCount = s.unitCount := by
  cases r <;> rfl

@[simp] theorem popMessage_unitCount (s : State) : (popMessage s).unitCount = s.unitCount := by
  unfold popMessage
  split <;> rfl

@[simp] theorem resetPipeline_unitCount (s : State) : (resetPipeline s).unitCount = s.unitCount := rfl

@[simp] theorem writeCtrl_unitCount (v : U32) (s : State) : (writeCtrl v s).unitCount = s.unitCount := by
  unfold writeCtrl
  split <;> split <;> rfl

/-- The unit count after a PUSH whose accepted part advances it. -/
theorem pushCommand_unitCount {kind : UnitKind} {accepted : State → State} {s : State}
    (h : (accepted s).unitCount = s.unitCount + 1) :
    (pushCommand kind accepted s).unitCount =
      if s.cfgOk = true ∧ s.cfg.unitKind = kind then s.unitCount + 1 else s.unitCount := by
  obtain ⟨hok, he⟩ | ⟨hok, hk, he⟩ | ⟨hok, hk, he⟩ := pushCommand_cases kind accepted s <;> rw [he]
  · simp [hok]
  · simp [hk]
  · simp [hok, hk, h]

/-- R59: what each command does to the unit count. -/
theorem exec_unitCount {i : Instr} {s t : State} (h : exec i s = .next t) :
    t.unitCount = if s.cfgOk = true ∧ (pushedUnit s i).isSome = true then s.unitCount + 1 else s.unitCount := by
  cases i <;> obtain rfl := Host.Outcome.next.inj h
  case nop => simp [pushedUnit]
  case pushBit | pushDibit =>
    rw [pushCommand_unitCount (acceptUnit_unitCount _ s)]
    simp [pushedUnit]
  case pushSoft =>
    rw [pushCommand_unitCount (by rw [acceptUnit_unitCount, countNaN_unitCount])]
    simp [pushedUnit]
  case reset | pop | rdcsr | wrcsr =>
    simp only [pushedUnit]
    split <;> simp

/-- A word that is no command is rejected (30_encoding.md R152). -/
theorem runWord_of_decode_error {w : Word} {r : Reject} (h : decode w = .error r) (s : State) :
    runWord w s = .next (rejectWord r s) := by
  simp only [runWord, h]

/-- Settles O11: by cases on the command; only a PUSH of the configured kind reaches `acceptUnit`. -/
theorem unitCountAdvancesOnAcceptedPushOnly : Obligations.UnitCountAdvancesOnAcceptedPushOnly := by
  refine ⟨fun i s t h => exec_unitCount h, fun w s t r hw h => ?_, fun _ _ => rfl⟩
  rw [runWord_of_decode_error hw] at h
  obtain rfl := Host.Outcome.next.inj h
  exact rejectWord_unitCount r s

/-! ### STATUS -/

/-- Bits 7:0 of STATUS (R61), least significant first: SYNC, TARGET_KNOWN, OUTQ_NONEMPTY, OUTQ_FULL, ERR_ANY, 0. -/
theorem State.status_getLsbD_low (s : State) {i : Nat} (h : i < 8) :
    s.status.getLsbD i =
      [s.lock.frame?.isSome, (s.lock.frame?.bind Frame.target).isSome, s.msgAvail, s.outqFull, s.errAny].getD i false := by
  unfold State.status
  change BitVec.getLsbD (w := 8 + 8 + 8 + 3 + 1 + 1 + 1 + 1 + 1) _ i = _
  simp only [BitVec.getLsbD_append]
  interval_cases i <;> simp

/-- Bits 31:8 of STATUS (R61): the pattern id, the data-unit type, 0. -/
theorem State.status_getLsbD_high (s : State) (i : Nat) :
    s.status.getLsbD (8 + i) =
      if i < 8 then BitVec.getLsbD (w := 8) ((s.lock.frame?.map Frame.pat).getD 0) i
      else BitVec.getLsbD (w := 8) ((s.lock.frame?.map Frame.du).getD 0) (i - 8) := by
  unfold State.status
  change BitVec.getLsbD (w := 8 + 8 + 8 + 3 + 1 + 1 + 1 + 1 + 1) _ (8 + i) = _
  rw [Nat.add_comm 8 i]
  simp only [BitVec.getLsbD_append, Order.lt_one_iff, Nat.add_eq_zero_iff, OfNat.ofNat_ne_zero, and_false, ↓reduceIte,
    Nat.add_one_sub_one, add_lt_iff_neg_right, not_lt_zero, add_tsub_cancel_right, BitVec.ofNat_eq_ofNat,
    BitVec.getLsbD_zero, Bool.if_false_right]
  split
  · rfl
  · exact Bool.and_eq_right_iff_imp.2 fun h => decide_eq_true (BitVec.lt_of_getLsbD h)

/-- Bits 7:5 of STATUS are 0. -/
theorem State.status_bits_7_5 (s : State) : s.status.extractLsb' 5 3 = 0 := by
  refine BitVec.eq_of_getLsbD_eq fun i hi => ?_
  rw [BitVec.getLsbD_extractLsb', s.status_getLsbD_low (by omega)]
  interval_cases i <;> rfl

/-- Bits 15:8 of STATUS are the pattern id of the frame in assembly. -/
theorem State.status_pat (s : State) : s.status.extractLsb' 8 8 = (s.lock.frame?.map Frame.pat).getD 0 := by
  refine BitVec.eq_of_getLsbD_eq fun i hi => ?_
  simp [s.status_getLsbD_high, hi]

/-- Bits 23:16 of STATUS are the data-unit type of the frame in assembly. -/
theorem State.status_du (s : State) : s.status.extractLsb' 16 8 = (s.lock.frame?.map Frame.du).getD 0 := by
  refine BitVec.eq_of_getLsbD_eq fun i hi => ?_
  rw [BitVec.getLsbD_extractLsb', show 16 + i = 8 + (8 + i) by omega, s.status_getLsbD_high]
  simp [hi]

/-- Bits 31:24 of STATUS are 0. -/
theorem State.status_bits_31_24 (s : State) : s.status.extractLsb' 24 8 = 0 := by
  refine BitVec.eq_of_getLsbD_eq fun i hi => ?_
  rw [BitVec.getLsbD_extractLsb', show 24 + i = 8 + (16 + i) by omega, s.status_getLsbD_high]
  simp [show ¬ 16 + i < 8 by omega, show 8 ≤ 16 + i - 8 by omega]

/-- SYNC: a frame is in assembly exactly when the lock is not `SEARCHING`. -/
theorem Lock.frame?_isSome (l : Lock) : l.frame?.isSome = (l != .searching) := by
  cases l <;> rfl

/-- TARGET_KNOWN: a frame is in assembly and its length is known. -/
theorem Lock.frame?_target_isSome_iff (l : Lock) :
    (l.frame?.bind Frame.target).isSome = true ↔ ∃ f n, l = .synchronized f ∧ f.target = some n := by
  cases l <;> simp [Lock.frame?, Option.isSome_iff_exists]

theorem State.errAny_iff (s : State) : s.errAny = true ↔ s.err ≠ 0 := by simp [State.errAny]

theorem State.msgAvail_iff (s : State) : s.msgAvail = true ↔ 0 < s.outq.length := by simp [State.msgAvail]

/-- An empty queue is not full, whatever its capacity (log 16). -/
theorem State.outqFull_of_outq_nil {s : State} (h : s.outq = []) : s.outqFull = false := by
  obtain hQ | hQ := Nat.eq_zero_or_pos s.par.outqDepth
  · exact State.outqFull_eq_false hQ
  · rw [Bool.eq_false_iff, Ne, State.outqFull_iff hQ, h]
    exact hQ.ne

/-- STATUS while searching with an empty queue shows ERR_ANY alone. -/
theorem State.status_of_searching_of_outq_nil {s : State} (hl : s.lock = .searching) (hq : s.outq = []) :
    s.status = if s.errAny then 0x10 else 0 := by
  have hf : s.outqFull = false := State.outqFull_of_outq_nil hq
  have hm : s.msgAvail = false := by simp [State.msgAvail, hq]
  unfold State.status
  rw [hl, hf, hm]
  cases s.errAny <;> rfl

/-- Settles O18: field by field from the bits of STATUS; at power-on the queue is empty and no frame is in assembly, so
ERR_ANY is the only bit that can be set. -/
theorem statusFields : Obligations.StatusFields := by
  refine ⟨fun s => ⟨?sync, ?target, ?avail, fun hQ => ?full, ?err, s.status_bits_7_5, s.status_bits_31_24,
    fun hl => ?searching, fun f hl => ?locked⟩, fun cfg par => ?powerOn⟩
  case sync => exact (s.status_getLsbD_low (by decide)).trans s.lock.frame?_isSome
  case target =>
    rw [s.status_getLsbD_low (by decide)]
    exact s.lock.frame?_target_isSome_iff
  case avail =>
    rw [s.status_getLsbD_low (by decide)]
    exact s.msgAvail_iff
  case full =>
    rw [s.status_getLsbD_low (by decide)]
    exact State.outqFull_iff hQ
  case err =>
    rw [s.status_getLsbD_low (by decide)]
    exact s.errAny_iff
  case searching => simp [s.status_pat, s.status_du, hl, Lock.frame?]
  case locked => simp [s.status_pat, s.status_du, hl, Lock.frame?]
  case powerOn =>
    rw [State.status_of_searching_of_outq_nil (s := State.powerOn cfg par) rfl rfl]
    constructor <;> intro hv <;> simp [State.errAny, State.powerOn, hv]

end Sys2Proof.Machine

/-! The configuration (20_memory.md R101): what the core reads it from and no command writes. -/

namespace Sys2Proof.Machine

/-- The configuration, the parameters and the result of their validation are as before. Unlike `SameBase` it holds of
the whole of every command: the window, the response, the unit count and ILLEGAL_CMD may change. -/
structure SameConfig (s t : State) : Prop where
  cfg : t.cfg = s.cfg
  par : t.par = s.par
  cfgOk : t.cfgOk = s.cfgOk

theorem SameConfig.refl (s : State) : SameConfig s s := ⟨rfl, rfl, rfl⟩

theorem SameConfig.trans {s t u : State} (h : SameConfig s t) (h' : SameConfig t u) : SameConfig s u :=
  ⟨h'.cfg.trans h.cfg, h'.par.trans h.par, h'.cfgOk.trans h.cfgOk⟩

theorem SameBase.sameConfig {s t : State} (h : SameBase s t) : SameConfig s t := ⟨h.cfg, h.par, h.cfgOk⟩

/-! ### The shared operations -/

theorem respond_sameConfig (s : State) (r : Resp) : SameConfig s (s.respond r) := ⟨rfl, rfl, rfl⟩

theorem setCmds_sameConfig (s : State) (ws : List Word) : SameConfig s (s.setCmds ws) := ⟨rfl, rfl, rfl⟩

theorem reportError_sameConfig (e : ErrBit) (r : Resp) (s : State) : SameConfig s (reportError e r s) :=
  ⟨rfl, rfl, rfl⟩

theorem rejectWord_sameConfig (r : Reject) (s : State) : SameConfig s (rejectWord r s) := by
  cases r with
  | illegal => exact reportError_sameConfig _ _ s
  | reserved => exact reportError_sameConfig _ _ s

theorem resetPipeline_sameConfig (s : State) : SameConfig s (resetPipeline s) := ⟨rfl, rfl, rfl⟩

theorem popMessage_sameConfig (s : State) : SameConfig s (popMessage s) := by
  unfold popMessage
  split <;> exact ⟨rfl, rfl, rfl⟩

theorem writeCtrl_sameConfig (v : U32) (s : State) : SameConfig s (writeCtrl v s) := by
  unfold writeCtrl
  split <;> split <;> exact ⟨rfl, rfl, rfl⟩

/-! ### The input commands -/

theorem countNaN_sameConfig (v : Binary32) (s : State) : SameConfig s (countNaN v s) := by
  unfold countNaN
  split <;> exact ⟨rfl, rfl, rfl⟩

theorem admitUnit_sameConfig (u : InputUnit) (s : State) : SameConfig s (admitUnit u s) := by
  rw [admitUnit_eq]
  exact ⟨rfl, rfl, rfl⟩

/-- The detection and the framer keep what every stage behind the window push keeps (40_sync_detector.md R201). -/
theorem acceptUnit_base (u : InputUnit) (s : State) : SameBase (admitUnit u s) (acceptUnit u s) :=
  (countDetection_base _ _).trans (framerStep_base _ _ _ _)

theorem acceptUnit_sameConfig (u : InputUnit) (s : State) : SameConfig s (acceptUnit u s) :=
  (admitUnit_sameConfig u s).trans (acceptUnit_base u s).sameConfig

theorem pushCommand_sameConfig {kind : UnitKind} {accepted : State → State} {s : State}
    (h : SameConfig s (accepted s)) : SameConfig s (pushCommand kind accepted s) := by
  obtain ⟨-, he⟩ | ⟨-, -, he⟩ | ⟨-, -, he⟩ := pushCommand_cases kind accepted s <;> rw [he]
  · exact respond_sameConfig s _
  · exact reportError_sameConfig _ _ s
  · exact h.trans (respond_sameConfig _ _)

/-! ### Every command and every step -/

theorem exec_sameConfig {i : Instr} {s t : State} (h : exec i s = .next t) : SameConfig s t := by
  cases i <;> obtain rfl := Host.Outcome.next.inj h
  case nop => exact respond_sameConfig s _
  case pushBit => exact pushCommand_sameConfig (acceptUnit_sameConfig _ s)
  case pushDibit => exact pushCommand_sameConfig (acceptUnit_sameConfig _ s)
  case pushSoft => exact pushCommand_sameConfig ((countNaN_sameConfig _ s).trans (acceptUnit_sameConfig _ _))
  case reset =>
    split
    · exact (resetPipeline_sameConfig s).trans (respond_sameConfig _ _)
    · exact respond_sameConfig s _
  case pop =>
    split
    · exact popMessage_sameConfig s
    · exact respond_sameConfig s _
  case rdcsr =>
    split
    · exact respond_sameConfig s _
    · exact reportError_sameConfig _ _ s
  case wrcsr v =>
    split
    · exact (writeCtrl_sameConfig v s).trans (respond_sameConfig _ _)
    · exact reportError_sameConfig _ _ s

/-- A command word either decodes and runs its command, or is rejected (30_encoding.md R152). -/
theorem runWord_cases (w : Word) (s : State) :
    (∃ i, decode w = .ok i ∧ runWord w s = exec i s) ∨
      ∃ r, decode w = .error r ∧ runWord w s = .next (rejectWord r s) := by
  cases hw : decode w with
  | ok i => exact .inl ⟨i, rfl, by simp only [runWord, hw]⟩
  | error r => exact .inr ⟨r, rfl, runWord_of_decode_error hw s⟩

theorem runWord_sameConfig {w : Word} {s t : State} (h : runWord w s = .next t) : SameConfig s t := by
  obtain ⟨i, -, hrun⟩ | ⟨r, -, hrun⟩ := runWord_cases w s <;> rw [hrun] at h
  · exact exec_sameConfig h
  · obtain rfl := Host.Outcome.next.inj h
    exact rejectWord_sameConfig r s

/-- A step idles when no command is pending and runs the next command word otherwise (30_encoding.md R152,
60_exceptions.md R465). -/
theorem step_cases (s : State) :
    (s.cmds = [] ∧ step s = .next s) ∨
      ∃ w rest, s.cmds = w :: rest ∧ step s = runWord w (s.setCmds rest) := by
  cases hc : s.cmds with
  | nil => exact .inl ⟨rfl, by simp only [step, fetch, hc]⟩
  | cons w rest => exact .inr ⟨w, rest, rfl, by simp only [step, fetch, hc]⟩

theorem step_sameConfig {s t : State} (h : step s = .next t) : SameConfig s t := by
  obtain ⟨-, hstep⟩ | ⟨w, rest, -, hstep⟩ := step_cases s <;> rw [hstep] at h
  · obtain rfl := Host.Outcome.next.inj h
    exact .refl s
  · exact (setCmds_sameConfig s rest).trans (runWord_sameConfig h)

/-- Settles O10: every operation a step is made of keeps the configuration, the parameters and the validation's result;
power-on sets them as given. -/
theorem configurationIsNeverWritten : Obligations.ConfigurationIsNeverWritten := by
  refine ⟨fun s t h => ?_, fun _ _ => ⟨rfl, rfl⟩⟩
  obtain ⟨hcfg, hpar, hok⟩ := step_sameConfig h
  exact ⟨hcfg, hpar, hok⟩

end Sys2Proof.Machine

/-! The words that are no command (30_encoding.md R152, R160, R161): when the decoder rejects a word, and what the
rejection does to the state. -/

namespace Sys2Proof

/-! ### What the decoder rejects -/

theorem opcAssigned_iff {opc : U8} :
    opcAssigned opc = true ↔ opc ∈ ([0x00, 0x01, 0x02, 0x03, 0x08, 0x10, 0x20, 0x21] : List U8) :=
  List.contains_iff_mem

theorem usesCsr_eq_false_iff {opc : U8} : usesCsr opc = false ↔ opc ≠ 0x20 ∧ opc ≠ 0x21 := by
  simp [usesCsr]

/-- R155: NOP, RESET, POP and RDCSR use no DATA bit. -/
theorem usedData_eq_zero {opc : U8} (h : opc ∈ ([0x00, 0x08, 0x10, 0x20] : List U8)) : usedData opc = 0 := by
  revert opc
  decide

/-- R161: the three fields in which a word can hold a reserved bit. -/
theorem reservedNonzero_iff {w : Word} :
    reservedNonzero w = true ↔ rsvdOf w ≠ 0 ∨ (usesCsr (opcOf w) = false ∧ csrOf w ≠ 0) ∨
      dataOf w &&& ~~~ (usedData (opcOf w)) ≠ 0 := by
  simp [reservedNonzero, or_assoc]

/-- R152: the opcode is checked first, whatever the other bits of the word. -/
theorem decode_of_unassigned {w : Word} (h : opcAssigned (opcOf w) = false) :
    decode w = .error (.illegal (opcOf w)) := by
  simp [decode, h]

/-- R152: the reserved bits are checked behind the opcode. -/
theorem decode_of_reservedNonzero {w : Word} (hopc : opcAssigned (opcOf w) = true) (h : reservedNonzero w = true) :
    decode w = .error (.reserved (opcOf w)) := by
  simp [decode, hopc, h]

/-- A 1 among `n` DATA bits from bit `k` on is an unused bit where the opcode uses bits below `k` only (R155). -/
theorem dataOf_and_not_ne_zero {w : Word} {used : U32} {k n : Nat} (hn : k + n ≤ 32) (hused : used.toNat < 2 ^ k)
    (h : w.extractLsb' k n ≠ 0) : dataOf w &&& ~~~ used ≠ 0 := by
  contrapose! h
  refine BitVec.eq_of_getLsbD_eq fun i hi => ?_
  have hi' : k + i < 32 := by omega
  have hfree : used.getLsbD (k + i) = false :=
    Nat.testBit_lt_two_pow (hused.trans_le (Nat.pow_le_pow_right Nat.zero_lt_two (Nat.le_add_right k i)))
  have hbit := congrArg (fun v => v.getLsbD (k + i)) h
  simpa only [dataOf, BitVec.getLsbD_and, BitVec.getLsbD_not, BitVec.getLsbD_extractLsb', hfree, hi, hi', decide_true,
    Bool.true_and, Bool.and_true, Bool.not_false, Nat.zero_add, BitVec.ofNat_eq_ofNat, BitVec.getLsbD_zero] using hbit

/-- R155: a 1 in a DATA bit above those its opcode uses makes the word reserved. -/
theorem reservedNonzero_of_data {w : Word} {k n : Nat} (hn : k + n ≤ 32) (hused : (usedData (opcOf w)).toNat < 2 ^ k)
    (h : w.extractLsb' k n ≠ 0) : reservedNonzero w = true :=
  reservedNonzero_iff.2 (.inr (.inr (dataOf_and_not_ne_zero hn hused h)))

end Sys2Proof

namespace Sys2Proof.Machine

/-! ### What a rejection does -/

/-- R160: ILLEGAL_OPC is bit 1 of ERR. -/
theorem rejectWord_illegal (opc : U8) (s : State) :
    rejectWord (.illegal opc) s = { s with err := s.err ||| 0x2, ctr := s.ctr.add .illegalCmd 1, resp := .none } := rfl

/-- R161: RSVD_NONZERO is bit 2 of ERR. -/
theorem rejectWord_reserved (opc : U8) (s : State) :
    rejectWord (.reserved opc) s =
      { s with err := s.err ||| 0x4, ctr := s.ctr.add .illegalCmd 1, resp := ignoredResp opc } := rfl

/-- Settles O4: the decoder checks the opcode first, so the word is rejected as ILLEGAL. -/
theorem unassignedOpcodeIsIgnored : Obligations.UnassignedOpcodeIsIgnored := by
  intro w s hopc
  have hna : opcAssigned (opcOf w) = false := Bool.eq_false_iff.2 fun h => hopc (opcAssigned_iff.1 h)
  rw [runWord_of_decode_error (decode_of_unassigned hna), rejectWord_illegal]

/-- R152: the assigned opcodes, and the response of an ignored command of each. -/
theorem opcAssigned_and_ignoredResp_eq {opc : U8} {r : Resp}
    (h : (opc ∈ ([0x00, 0x01, 0x02, 0x03, 0x08, 0x21] : List U8) ∧ r = .none) ∨ (opc = 0x10 ∧ r = .msg none) ∨
      (opc = 0x20 ∧ r = .csr 0)) : opcAssigned opc = true ∧ ignoredResp opc = r := by
  obtain ⟨hopc, rfl⟩ | ⟨rfl, rfl⟩ | ⟨rfl, rfl⟩ := h
  · revert opc
    decide
  · exact ⟨rfl, rfl⟩
  · exact ⟨rfl, rfl⟩

/-- Settles O5: each class of reserved bits of R155 makes the decoder answer RESERVED, and `ignoredResp` gives the
response of each opcode. -/
theorem reservedBitsAreIgnored : Obligations.ReservedBitsAreIgnored := by
  rintro w s opc r hw hresp hbits
  change opcOf w = opc at hw
  subst hw
  obtain ⟨hassigned, rfl⟩ := opcAssigned_and_ignoredResp_eq hresp
  have hreserved : reservedNonzero w = true := by
    obtain h | ⟨h20, h21, h⟩ | ⟨hopc, h⟩ | ⟨hopc, h⟩ | ⟨hopc, h⟩ := hbits
    · exact reservedNonzero_iff.2 (.inl h)
    · exact reservedNonzero_iff.2 (.inr (.inl ⟨usesCsr_eq_false_iff.2 ⟨h20, h21⟩, h⟩))
    · exact reservedNonzero_of_data (by decide) (by rw [hopc]; decide) h
    · exact reservedNonzero_of_data (by decide) (by rw [hopc]; decide) h
    · exact reservedNonzero_of_data (by decide) (by rw [usedData_eq_zero hopc]; decide) h
  rw [runWord_of_decode_error (decode_of_reservedNonzero hassigned hreserved), rejectWord_reserved]

end Sys2Proof.Machine

/-! The input commands (40_sync_detector.md R200 to R205): what a PUSH of another kind and a PUSH of the configured kind
do to the state. -/

namespace Sys2Proof.Machine

/-! ### A PUSH of another kind -/

theorem pushCommand_of_kind_ne {kind : UnitKind} {s : State} (hok : s.cfgOk = true) (hk : s.cfg.unitKind ≠ kind)
    (accepted : State → State) : pushCommand kind accepted s = kindMismatch s := by
  obtain ⟨hok', -⟩ | ⟨-, -, he⟩ | ⟨-, hk', -⟩ := pushCommand_cases kind accepted s
  · exact absurd hok (by simp [hok'])
  · exact he
  · exact absurd hk' hk

/-- R205: KIND_MISMATCH is bit 3 of ERR. -/
theorem kindMismatch_eq (s : State) :
    kindMismatch s = { s with err := s.err ||| 0x8, ctr := s.ctr.add .illegalCmd 1, resp := .none } := rfl

/-- Settles O24: each PUSH of another kind ends in `kindMismatch`, whatever its unit. -/
theorem pushOfTheWrongKind : Obligations.PushOfTheWrongKind := by
  intro s hok
  refine ⟨fun hk b => ?_, fun hk d => ?_, fun hk v => ?_⟩ <;> rw [← kindMismatch_eq] <;>
    exact congrArg Host.Outcome.next (pushCommand_of_kind_ne hok hk _)

/-! ### A PUSH of the configured kind -/

theorem pushCommand_of_kind_eq {kind : UnitKind} {s : State} (hok : s.cfgOk = true) (hk : s.cfg.unitKind = kind)
    (accepted : State → State) : pushCommand kind accepted s = (accepted s).respond .none := by
  obtain ⟨hok', -⟩ | ⟨-, hk', -⟩ | ⟨-, -, he⟩ := pushCommand_cases kind accepted s
  · exact absurd hok (by simp [hok'])
  · exact absurd hk hk'
  · exact he

/-- R156: a NaN by the fields of its pattern. -/
theorem isNaN_iff (v : Binary32) : isNaN v = true ↔ v.extractLsb' 23 8 = 0xFF ∧ v.extractLsb' 0 23 ≠ 0 := by
  have hexp : binary32Exp v = 255 ↔ v.extractLsb' 23 8 = 0xFF := BitVec.toNat_inj (y := (0xFF : BitVec 8))
  have hfrac : binary32Frac v = 0 ↔ v.extractLsb' 0 23 = 0 := BitVec.toNat_inj (y := (0 : BitVec 23))
  rw [isNaN, Bool.and_eq_true, beq_iff_eq, bne_iff_ne, ne_eq, hexp, hfrac]

/-- R204: NAN_INPUT counts before the stages of R201, and nothing else changes. -/
theorem countNaN_eq (v : Binary32) (s : State) : countNaN v s = { s with ctr := nanCounted s (.pushSoft v) } := by
  by_cases h : isNaN v = true
  · rw [countNaN, if_pos h, nanCounted, if_pos ((isNaN_iff v).1 h)]
    rfl
  · rw [countNaN, if_neg h, nanCounted, if_neg (mt (isNaN_iff v).2 h)]

/-- The unit count, the sweep and the window of a unit that is no soft symbol; nothing counts NAN_INPUT for it. -/
theorem admitUnit_eq_admitted {i : Instr} {s : State} (h : nanCounted s i = s.ctr) (u : InputUnit) :
    admitUnit u s = admitted i u s := by
  rw [admitUnit_eq, admitted, h]

theorem admitUnit_countNaN (v : Binary32) (u : InputUnit) (s : State) :
    admitUnit u (countNaN v s) = admitted (.pushSoft v) u s := by
  rw [admitUnit_eq, countNaN_eq]
  rfl

/-- R201: the stages behind the window push, from the state `admitUnit` left. -/
theorem acceptUnit_eq (u : InputUnit) (s : State) :
    acceptUnit u s = framerStep (detection s.cfg (windowWith s u)) (unitBits u) s.unitCount
      (countDetection (detection s.cfg (windowWith s u)) (admitUnit u s)) := by
  rw [acceptUnit, admitUnit_eq]

/-- The stages see the configuration, the window and the unit count as they were before NAN_INPUT counted. -/
theorem acceptUnit_countNaN (v : Binary32) (u : InputUnit) (s : State) :
    acceptUnit u (countNaN v s) = framerStep (detection s.cfg (windowWith s u)) (unitBits u) s.unitCount
      (countDetection (detection s.cfg (windowWith s u)) (admitted (.pushSoft v) u s)) := by
  rw [acceptUnit_eq, admitUnit_countNaN, countNaN_eq]
  rfl

/-- R200 to R204: the next state of every PUSH that carries a unit in, whatever its kind. -/
theorem exec_of_pushedUnit {i : Instr} {u : InputUnit} {s : State} (hok : s.cfgOk = true)
    (h : pushedUnit s i = some u) :
    exec i s = .next ((framerStep (detection s.cfg (windowWith s u)) (unitBits u) s.unitCount
      (countDetection (detection s.cfg (windowWith s u)) (admitted i u s))).respond .none) := by
  cases i with
  | pushBit b =>
    obtain ⟨hk, rfl⟩ : s.cfg.unitKind = .bit ∧ .bit b = u := by simpa [pushedUnit] using h
    rw [exec, execPushBit, pushCommand_of_kind_eq hok hk, acceptUnit_eq,
      admitUnit_eq_admitted (i := .pushBit b) rfl]
  | pushDibit d =>
    obtain ⟨hk, rfl⟩ : s.cfg.unitKind = .dibit ∧ .dib d = u := by simpa [pushedUnit] using h
    rw [exec, execPushDibit, pushCommand_of_kind_eq hok hk, acceptUnit_eq,
      admitUnit_eq_admitted (i := .pushDibit d) rfl]
  | pushSoft v =>
    obtain ⟨hk, rfl⟩ : s.cfg.unitKind = .soft ∧ .soft v (quantize s.cfg.quantizer v) = u := by
      simpa [pushedUnit] using h
    rw [exec, execPushSoft, pushCommand_of_kind_eq hok hk, acceptUnit_countNaN]
  | nop | reset | pop | rdcsr | wrcsr => cases h

/-- Settles O25: each PUSH of the configured kind carries its unit in, so `exec_of_pushedUnit` gives its next state; the
bits are `unitBits` of the unit. -/
theorem acceptedPushRunsTheStages : Obligations.AcceptedPushRunsTheStages := by
  intro s hok
  refine ⟨fun hk b r hr => ?_, fun hk d r hr => ?_, fun hk v d r hd hr => ?_⟩
  · subst hr
    exact exec_of_pushedUnit (i := .pushBit b) hok (if_pos hk)
  · subst hr
    exact exec_of_pushedUnit (i := .pushDibit d) hok (if_pos hk)
  · subst hr hd
    exact exec_of_pushedUnit (i := .pushSoft v) hok (if_pos hk)

end Sys2Proof.Machine

/-! The framer (41_framer.md): what an accepted unit does to the lock and to the frame in assembly, the completion of a
frame, and the header of a variable-length frame. -/

namespace Sys2Proof.Machine

/-! ### What an accepted unit does, by the lock and the detection -/

/-- R250: without a match a searching framer does nothing. -/
theorem framerStep_of_searching {r : Detection} {s : State} (hl : s.lock = .searching) (hr : ∀ p, r ≠ .found p)
    (bits : List Bool) (now : U64) : framerStep r bits now s = s := by
  obtain ⟨p, h, -, -⟩ | ⟨-, -, he⟩ | ⟨p, -, h, -, -⟩ | ⟨f, -, hf, -⟩ := framerStep_cases r bits now s
  · exact absurd h (hr p)
  · exact he
  · exact absurd h (hr p)
  · simp [hl] at hf

/-- R254: a match starts a frame. -/
theorem framerStep_found_of_searching {s : State} (hl : s.lock = .searching) (p : Pattern) (bits : List Bool)
    (now : U64) : framerStep (.found p) bits now s = holdFrame (newFrame s.cfg p now) s := by
  simp only [framerStep, hl]

/-- R253: a match discards the frame in assembly and starts another. -/
theorem framerStep_found_of_synchronized {s : State} {f : Frame} (hl : s.lock = .synchronized f) (p : Pattern)
    (bits : List Bool) (now : U64) :
    framerStep (.found p) bits now s = holdFrame (newFrame s.cfg p now) (s.count .frameResyncDiscard 1) := by
  simp only [framerStep, hl]

/-- R251: without a match the unit's bits join the frame in assembly. -/
theorem framerStep_of_synchronized {r : Detection} {s : State} {f : Frame} (hl : s.lock = .synchronized f)
    (hr : ∀ p, r ≠ .found p) (bits : List Bool) (now : U64) :
    framerStep r bits now s = frameProgress { f with bits := f.bits ++ bits } now s := by
  obtain ⟨p, h, -, -⟩ | ⟨-, hs, -⟩ | ⟨p, -, h, -, -⟩ | ⟨g, -, hg, he⟩ := framerStep_cases r bits now s
  · exact absurd h (hr p)
  · simp [hl] at hs
  · exact absurd h (hr p)
  · obtain rfl : f = g := Lock.synchronized.inj (hl.symm.trans hg)
    exact he

/-- R201: the stages before the framer leave it the lock it had. -/
theorem countDetection_admitted_lock (r : Detection) (i : Instr) (u : InputUnit) (s : State) :
    (countDetection r (admitted i u s)).lock = s.lock :=
  countDetection_lock r _

/-- R201: the stages before the framer leave it the configuration it had. -/
theorem countDetection_admitted_cfg (r : Detection) (i : Instr) (u : InputUnit) (s : State) :
    (countDetection r (admitted i u s)).cfg = s.cfg :=
  (countDetection_base r _).cfg

/-- R250: the next state of every PUSH that gives no match while SEARCHING. -/
theorem exec_of_searching {i : Instr} {u : InputUnit} {s : State} {r : Detection} (hok : s.cfgOk = true)
    (hu : pushedUnit s i = some u) (hl : s.lock = .searching) (hd : r = detection s.cfg (windowWith s u))
    (hr : ∀ p, r ≠ .found p) : exec i s = .next ((countDetection r (admitted i u s)).respond .none) := by
  rw [exec_of_pushedUnit hok hu, ← hd, framerStep_of_searching ((countDetection_admitted_lock r i u s).trans hl) hr]

/-- R252: the next state of every PUSH whose unit joins the frame in assembly. -/
theorem exec_of_synchronized {i : Instr} {u : InputUnit} {s : State} {f : Frame} {r : Detection} (hok : s.cfgOk = true)
    (hu : pushedUnit s i = some u) (hl : s.lock = .synchronized f) (hd : r = detection s.cfg (windowWith s u))
    (hr : ∀ p, r ≠ .found p) :
    exec i s = .next ((frameProgress { f with bits := f.bits ++ unitBits u } s.unitCount
      (countDetection r (admitted i u s))).respond .none) := by
  rw [exec_of_pushedUnit hok hu, ← hd,
    framerStep_of_synchronized ((countDetection_admitted_lock r i u s).trans hl) hr]

/-! ### The frame a match starts -/

theorem fixedLength_of_fixed {cfg : Cfg} {du : U8} {d : DuCfg} {n : Nat} (hd : cfg.du? du = some d)
    (hlen : d.length = .fixed n) : fixedLength cfg du = some n := by
  rw [fixedLength, hd, Option.map_some, hlen]

theorem fixedLength_of_variableLen {cfg : Cfg} {du : U8} {d : DuCfg} {h : Nat} {l : Field} {c : List Check} {m : LenMap}
    (hd : cfg.du? du = some d) (hlen : d.length = .variableLen h l c m) : fixedLength cfg du = none := by
  rw [fixedLength, hd, Option.map_some, hlen]

/-- R254: the target a new frame has, for a type of either length. -/
theorem newFrame_eq {cfg : Cfg} {p : Pattern} {target : Option Nat}
    (h : (∃ d n, cfg.du? p.du = some d ∧ d.length = .fixed n ∧ target = some n) ∨
      (∃ d h l c m, cfg.du? p.du = some d ∧ d.length = .variableLen h l c m ∧ target = none)) (now : U64) :
    newFrame cfg p now = { pat := p.id, du := p.du, ts := now, bits := [], target := target,
                           corrected := 0, viol := 0, results := [] } := by
  have ht : fixedLength cfg p.du = target := by
    obtain ⟨d, n, hd, hlen, rfl⟩ | ⟨d, h, l, c, m, hd, hlen, rfl⟩ := h
    · exact fixedLength_of_fixed hd hlen
    · exact fixedLength_of_variableLen hd hlen
  rw [newFrame, ht]

/-- Settles O31: behind the detection the framer does nothing, and an AMBIGUOUS one has counted. -/
theorem unmatchedUnitWhileSearching : Obligations.UnmatchedUnitWhileSearching := by
  intro i u s hok hu hl
  exact ⟨fun hd => exec_of_searching hok hu hl hd.symm (by simp),
    fun hd => exec_of_searching hok hu hl hd.symm (by simp)⟩

/-- Settles O32: the match counts, and the framer holds the new frame. -/
theorem matchStartsAFrame : Obligations.MatchStartsAFrame := by
  intro i u s p target hok hu hl hd ht
  have hl' := (countDetection_admitted_lock (.found p) i u s).trans hl
  rw [exec_of_pushedUnit hok hu, hd, framerStep_found_of_searching hl', ← newFrame_eq ht]
  rfl

/-- Settles O33: as for O32, with FRAME_RESYNC_DISCARD; nothing of the frame in assembly is read. -/
theorem redetectionDiscardsTheFrame : Obligations.RedetectionDiscardsTheFrame := by
  intro i u s f p target hok hu hl hd ht
  have hl' := (countDetection_admitted_lock (.found p) i u s).trans hl
  rw [exec_of_pushedUnit hok hu, hd, framerStep_found_of_synchronized hl', ← newFrame_eq ht]
  rfl

/-! ### The frame that reaches its target -/

/-- R255, R260: a frame of its full length completes. -/
theorem frameProgress_of_full {f : Frame} (h : f.target = some f.bits.length) (now : U64) (s : State) :
    frameProgress f now s = completeFrame f now s := by
  rw [frameProgress, h, Option.isSome_some, if_pos rfl, completeIfFull, if_pos h]

/-- R260: the checks of the frame's type run, and the frame goes to the factory. -/
theorem completeFrame_eq {f : Frame} {s : State} {d : DuCfg} (h : s.cfg.du? f.du = some d) (now : U64) :
    completeFrame f now s =
      handleFrame (runChecks d.checks f { s with lock := .searching, ctr := s.ctr.add .frameComplete 1 }).1 now
        (runChecks d.checks f { s with lock := .searching, ctr := s.ctr.add .frameComplete 1 }).2 := by
  have hc : checksOf s.cfg f.du = d.checks := by rw [checksOf, h, Option.map_some, Option.getD_some]
  rw [completeFrame, hc]
  rfl

/-- Settles O35: the frame with the unit's bits has its full length, so it completes. -/
theorem fullFrameCompletes : Obligations.FullFrameCompletes := by
  intro i u s f d r hok hu hl hd hr ht hdu
  refine ⟨_, _, rfl, rfl, ?_⟩
  have hfull : f.target = some (f.bits ++ unitBits u).length := by rw [ht, List.length_append]
  have hcfg : (countDetection r (admitted i u s)).cfg.du? f.du = some d := by
    rwa [countDetection_admitted_cfg]
  rw [exec_of_synchronized hok hu hl hd hr, frameProgress_of_full hfull,
    completeFrame_eq (f := { f with bits := f.bits ++ unitBits u }) hcfg]

/-! ### The header of a variable-length frame -/

/-- R255, R256: a frame without a target that holds its header has it read. -/
theorem frameProgress_of_header {f : Frame} {s : State} {d : DuCfg} {h : Nat} {l : Field} {c : List Check} {m : LenMap}
    (ht : f.target = none) (hd : s.cfg.du? f.du = some d) (hlen : d.length = .variableLen h l c m)
    (hle : h ≤ f.bits.length) (now : U64) : frameProgress f now s = readHeader f h l c m now s := by
  simp [frameProgress, ht, hd, hlen, Nat.not_lt.2 hle]

theorem anyFailed_iff {results : List CheckResult} :
    anyFailed results = true ↔ ∃ r ∈ results, r.verdict = .failed := by
  simp [anyFailed]

theorem anyFailed_eq_false_iff {results : List CheckResult} :
    anyFailed results = false ↔ ∀ r ∈ results, r.verdict ≠ .failed := by
  simp [anyFailed]

/-- R258: an Affine length below the header length or above F. -/
theorem headerLength_affine_of_out {cfg : Cfg} {par : Params} {hdrBits base mult v : Nat}
    (h : base + v * mult < hdrBits ∨ par.maxFrameBits < base + v * mult) (du : U8) :
    headerLength cfg par du hdrBits (.affine base mult) v = none := if_pos h

/-- R258: an Affine length within its bounds; the type stays. -/
theorem headerLength_affine_of_within {cfg : Cfg} {par : Params} {hdrBits base mult v : Nat}
    (hlo : hdrBits ≤ base + v * mult) (hhi : base + v * mult ≤ par.maxFrameBits) (du : U8) :
    headerLength cfg par du hdrBits (.affine base mult) v = some (du, base + v * mult) :=
  if_neg (not_or.2 ⟨Nat.not_lt.2 hlo, Nat.not_lt.2 hhi⟩)

/-- R259: a value without an entry of the Select table. -/
theorem headerLength_select_of_lookup_none {table : Table U32 U8} {v : Nat}
    (h : table.lookup (BitVec.ofNat 32 v) = none) (cfg : Cfg) (par : Params) (du : U8) (hdrBits : Nat) :
    headerLength cfg par du hdrBits (.select table) v = none := by
  rw [headerLength, Table.get?, h]

/-- R259: the table's entry gives the type, and the type its length. -/
theorem headerLength_select_of_lookup_some {cfg : Cfg} {table : Table U32 U8} {v n : Nat} {du' : U8} {d : DuCfg}
    (h : table.lookup (BitVec.ofNat 32 v) = some du') (hd : cfg.du? du' = some d) (hlen : d.length = .fixed n)
    (par : Params) (du : U8) (hdrBits : Nat) :
    headerLength cfg par du hdrBits (.select table) v = some (du', n) := by
  simp only [headerLength, Table.get?, h, fixedLength_of_fixed hd hlen, Option.map_some]

/-! In an unread header no check has run before the header checks (`f.results = []`). -/

section ReadHeader
variable {f g : Frame} {s t : State} {hdrBits : Nat} {lenField : Field} {hdrChecks : List Check} {map : LenMap}

/-- R257: a FAILED header check discards the frame. -/
theorem readHeader_of_failed (hf : f.results = []) (h : runChecks hdrChecks f s = (g, t))
    (hfail : anyFailed g.results = true) (now : U64) :
    readHeader f hdrBits lenField hdrChecks map now s = discardFrame .frameHdrDiscard t := by
  simp [readHeader, h, hf, hfail]

/-- R258, R259: a header that gives no length discards the frame. -/
theorem readHeader_of_headerLength_none (hf : f.results = []) (h : runChecks hdrChecks f s = (g, t))
    (hok : anyFailed g.results = false)
    (hlen : headerLength s.cfg s.par f.du hdrBits map (field g.bits lenField) = none) (now : U64) :
    readHeader f hdrBits lenField hdrChecks map now s = discardFrame .frameLenDiscard t := by
  simp [readHeader, h, hf, hok, hlen]

/-- R258, R259: a header that gives a length makes it the frame's target. -/
theorem readHeader_of_headerLength_some {du : U8} {n : Nat} (hf : f.results = [])
    (h : runChecks hdrChecks f s = (g, t)) (hok : anyFailed g.results = false)
    (hlen : headerLength s.cfg s.par f.du hdrBits map (field g.bits lenField) = some (du, n)) (now : U64) :
    readHeader f hdrBits lenField hdrChecks map now s = completeIfFull { g with du := du, target := some n } now t := by
  simp [readHeader, h, hf, hok, hlen]

end ReadHeader

/-- The header checks leave the type alone, so an Affine length writes nothing but the target. -/
theorem runChecks_du_eq {cs : List Check} {f g : Frame} {s t : State} (h : runChecks cs f s = (g, t)) :
    f.du = g.du := by
  obtain ⟨-, hdu, -, -⟩ := runChecks_frame cs f s
  rw [← hdu, h]

/-- Settles O36: the unit completes the header, and the header's reading ends by R257, R258 or R259. -/
theorem headerDecidesTheLength : Obligations.HeaderDecidesTheLength := by
  refine ⟨?_, ?_⟩
  · intro i u s f d hdrBits lenField hdrChecks map r hok hu hl ht hdu hlen hle hd hr
    have hcfg : (countDetection r (admitted i u s)).cfg.du? f.du = some d := by
      rwa [countDetection_admitted_cfg]
    have hle' : hdrBits ≤ (f.bits ++ unitBits u).length := by rwa [List.length_append]
    rw [exec_of_synchronized hok hu hl hd hr,
      frameProgress_of_header (f := { f with bits := f.bits ++ unitBits u }) ht hcfg hlen hle']
  · intro s f hdrBits lenField hdrChecks map now g t hf h
    refine ⟨fun hfail => readHeader_of_failed hf h (anyFailed_iff.2 hfail) now, fun hok => ?_⟩
    have hok' := anyFailed_eq_false_iff.2 hok
    refine ⟨?_, ?_⟩
    · rintro base mult n rfl rfl
      refine ⟨fun hout => ?_, fun hlo hhi => ?_⟩
      · exact readHeader_of_headerLength_none hf h hok' (headerLength_affine_of_out hout f.du) now
      · rw [readHeader_of_headerLength_some hf h hok' (headerLength_affine_of_within hlo hhi f.du),
          runChecks_du_eq h]
    · rintro table rfl
      refine ⟨fun hnone => ?_, fun du d n hsome hdu hlen => ?_⟩
      · exact readHeader_of_headerLength_none hf h hok' (headerLength_select_of_lookup_none hnone _ _ f.du _) now
      · exact readHeader_of_headerLength_some hf h hok'
          (headerLength_select_of_lookup_some hsome hdu hlen _ f.du _) now

end Sys2Proof.Machine

/-! The bits of a frame at a position list (20_memory.md R105): what a write or an inversion there leaves, and in how
many bits the frame then differs. -/

namespace Sys2Proof.Machine

/-! ### The Hamming distance -/

@[simp] theorem hamming_nil (b : List Bool) : hamming [] b = 0 := rfl

@[simp] theorem hamming_cons (x y : Bool) (a b : List Bool) :
    hamming (x :: a) (y :: b) = hamming a b + if x = y then 0 else 1 := by
  cases x <;> cases y <;> simp [hamming]

@[simp] theorem hamming_self (a : List Bool) : hamming a a = 0 := by
  induction a with
  | nil => rfl
  | cons x a ih => simp [ih]

theorem eq_of_hamming_eq_zero {a b : List Bool} (hl : a.length = b.length) (h : hamming a b = 0) : a = b := by
  induction a generalizing b with
  | nil => exact (List.length_eq_zero_iff.1 hl.symm).symm
  | cons x a ih =>
    obtain _ | ⟨y, b⟩ := b
    · simp at hl
    · rw [hamming_cons, Nat.add_eq_zero_iff] at h
      obtain ⟨htail, hhead⟩ := h
      rw [ih (Nat.succ.inj hl) htail]
      simpa using hhead

theorem hamming_append {a b : List Bool} (h : a.length = b.length) (a' b' : List Bool) :
    hamming (a ++ a') (b ++ b') = hamming a b + hamming a' b' := by
  rw [hamming, List.zip_append h, List.countP_append]
  rfl

/-- Words cut into blocks, here written block by block, differ in the sum of what their blocks differ in. -/
theorem hamming_flatMap {α : Type} {k : Nat} {f : α → List Bool} (hf : ∀ a, (f a).length = k) {l l' : List α}
    (h : l.length = l'.length) :
    hamming (l.flatMap f) (l'.flatMap f) = ((l.zip l').map fun p => hamming (f p.1) (f p.2)).sum := by
  induction l generalizing l' with
  | nil => rfl
  | cons a l ih =>
    obtain _ | ⟨b, l'⟩ := l'
    · simp at h
    · simp [hamming_append ((hf a).trans (hf b).symm), ih (Nat.succ.inj h)]

/-- One bit written where two frames agree adds its difference to their distance. -/
theorem hamming_set {a b : List Bool} {p : Nat} (hl : a.length = b.length) (hp : p < a.length)
    (h : bitAt b p = bitAt a p) (v : Bool) :
    hamming a (b.set p v) = hamming a b + if bitAt a p = v then 0 else 1 := by
  induction a generalizing b p with
  | nil => simp at hp
  | cons x a ih =>
    obtain _ | ⟨y, b⟩ := b
    · simp at hl
    · cases p with
      | zero =>
        obtain rfl : y = x := h
        simp [bitAt]
      | succ p =>
        have htail := ih (Nat.succ.inj hl) (Nat.lt_of_succ_lt_succ hp) h
        simp only [List.set_cons_succ, hamming_cons, htail]
        exact Nat.add_right_comm ..

/-! ### Reading and writing at positions -/

@[simp] theorem length_bitsAt (bits : List Bool) (pos : List Nat) : (bitsAt bits pos).length = pos.length :=
  List.length_map _

theorem getD_bitsAt {pos : List Nat} {j : Nat} (h : j < pos.length) (bits : List Bool) :
    (bitsAt bits pos).getD j false = bitAt bits (pos.getD j 0) := by
  simp [bitsAt, h]

theorem bitAt_set_self {bits : List Bool} {p : Nat} (h : p < bits.length) (v : Bool) :
    bitAt (bits.set p v) p = v := by
  simp [bitAt, h]

theorem bitAt_set_ne {p q : Nat} (h : q ≠ p) (bits : List Bool) (v : Bool) :
    bitAt (bits.set p v) q = bitAt bits q := by
  simp [bitAt, List.getElem?_set_ne h.symm]

theorem bitsAt_set_of_notMem {pos : List Nat} {p : Nat} (h : p ∉ pos) (bits : List Bool) (v : Bool) :
    bitsAt (bits.set p v) pos = bitsAt bits pos :=
  List.map_congr_left fun _ hq => bitAt_set_ne (ne_of_mem_of_not_mem hq h) bits v

theorem writeBits_cons (bits : List Bool) (p : Nat) (pos : List Nat) (v : Bool) (vals : List Bool) :
    writeBits bits (p :: pos) (v :: vals) = writeBits (bits.set p v) pos vals := rfl

@[simp] theorem length_writeBits (bits : List Bool) (pos : List Nat) (vals : List Bool) :
    (writeBits bits pos vals).length = bits.length := by
  induction pos generalizing bits vals with
  | nil => rfl
  | cons p pos ih =>
    cases vals with
    | nil => rfl
    | cons v vals => rw [writeBits_cons, ih, List.length_set]

/-- A write leaves every other position alone. -/
theorem bitAt_writeBits_of_notMem {pos : List Nat} {q : Nat} (h : q ∉ pos) (bits vals : List Bool) :
    bitAt (writeBits bits pos vals) q = bitAt bits q := by
  induction pos generalizing bits vals with
  | nil => rfl
  | cons p pos ih =>
    obtain ⟨hp, htail⟩ := not_or.1 (mt List.mem_cons.2 h)
    cases vals with
    | nil => rfl
    | cons v vals => rw [writeBits_cons, ih htail, bitAt_set_ne hp]

/-- What was written is what stands there. -/
theorem bitsAt_writeBits {bits vals : List Bool} {pos : List Nat} (hnd : pos.Nodup)
    (hin : ∀ p ∈ pos, p < bits.length) (hl : vals.length = pos.length) :
    bitsAt (writeBits bits pos vals) pos = vals := by
  induction pos generalizing bits vals with
  | nil => exact (List.length_eq_zero_iff.1 hl).symm
  | cons p pos ih =>
    obtain ⟨hp, hnd⟩ := List.nodup_cons.1 hnd
    obtain ⟨hpin, hin⟩ := List.forall_mem_cons.1 hin
    obtain _ | ⟨v, vals⟩ := vals
    · simp at hl
    · have htail := ih (bits := bits.set p v) hnd (by simpa using hin) (Nat.succ.inj hl)
      have hhead : bitAt (writeBits (bits.set p v) pos vals) p = v := by
        rw [bitAt_writeBits_of_notMem hp, bitAt_set_self hpin]
      rw [writeBits_cons]
      exact congrArg₂ List.cons hhead htail

/-- The distance a write makes, from a frame `acc` that still agrees with `bits` at the positions. -/
theorem hamming_writeBits_of_agree {bits acc vals : List Bool} {pos : List Nat} (hnd : pos.Nodup)
    (hin : ∀ p ∈ pos, p < bits.length) (hl : vals.length = pos.length) (hlen : bits.length = acc.length)
    (hagree : ∀ p ∈ pos, bitAt acc p = bitAt bits p) :
    hamming bits (writeBits acc pos vals) = hamming bits acc + hamming (bitsAt bits pos) vals := by
  induction pos generalizing acc vals with
  | nil => cases vals <;> rfl
  | cons p pos ih =>
    obtain ⟨hp, hnd⟩ := List.nodup_cons.1 hnd
    obtain ⟨hpin, hin⟩ := List.forall_mem_cons.1 hin
    obtain ⟨hpa, hagree⟩ := List.forall_mem_cons.1 hagree
    obtain _ | ⟨v, vals⟩ := vals
    · simp at hl
    · have hagree' : ∀ q ∈ pos, bitAt (acc.set p v) q = bitAt bits q := fun q hq => by
        rw [bitAt_set_ne (ne_of_mem_of_not_mem hq hp), hagree q hq]
      have htail := ih hnd hin (Nat.succ.inj hl) (hlen.trans List.length_set.symm) hagree'
      rw [writeBits_cons, htail, hamming_set hlen hpin hpa v]
      simp only [bitsAt, List.map_cons, hamming_cons]
      omega

/-- A write at distinct positions of the frame changes as many bits as it writes others than stood there. -/
theorem hamming_writeBits {bits vals : List Bool} {pos : List Nat} (hnd : pos.Nodup)
    (hin : ∀ p ∈ pos, p < bits.length) (hl : vals.length = pos.length) :
    hamming bits (writeBits bits pos vals) = hamming (bitsAt bits pos) vals := by
  rw [hamming_writeBits_of_agree hnd hin hl rfl fun _ _ => rfl, hamming_self, Nat.zero_add]

/-! ### Inverting bits at positions -/

/-- Inverting at distinct positions writes the inverse of what stands there. -/
theorem flipBits_eq_writeBits {pos : List Nat} (hnd : pos.Nodup) (bits : List Bool) :
    flipBits bits pos = writeBits bits pos ((bitsAt bits pos).map (!·)) := by
  induction pos generalizing bits with
  | nil => rfl
  | cons p pos ih =>
    obtain ⟨hp, hnd⟩ := List.nodup_cons.1 hnd
    calc flipBits bits (p :: pos) = flipBits (bits.set p (!bitAt bits p)) pos := rfl
      _ = _ := by rw [ih hnd, bitsAt_set_of_notMem hp]; rfl

@[simp] theorem length_flipBits (bits : List Bool) (pos : List Nat) : (flipBits bits pos).length = bits.length := by
  induction pos generalizing bits with
  | nil => rfl
  | cons p pos ih => exact (ih _).trans List.length_set

theorem hamming_map_not (a : List Bool) : hamming a (a.map (!·)) = a.length := by
  induction a with
  | nil => rfl
  | cons x a ih => simp [ih]

/-- Inverting at distinct positions of the frame changes as many bits as there are positions. -/
theorem hamming_flipBits {bits : List Bool} {pos : List Nat} (hnd : pos.Nodup) (hin : ∀ p ∈ pos, p < bits.length) :
    hamming bits (flipBits bits pos) = pos.length := by
  rw [flipBits_eq_writeBits hnd, hamming_writeBits hnd hin (by simp), hamming_map_not, length_bitsAt]

theorem bitAt_flipBits_of_notMem {pos : List Nat} (hnd : pos.Nodup) {q : Nat} (h : q ∉ pos) (bits : List Bool) :
    bitAt (flipBits bits pos) q = bitAt bits q := by
  rw [flipBits_eq_writeBits hnd, bitAt_writeBits_of_notMem h]

end Sys2Proof.Machine

/-! Running checks (42_error_correction.md R300, R305, R306). -/

namespace Sys2Proof.Machine

/-- R306: a check that names a position beyond the frame. -/
theorem applyCheck_of_short {c : Check} {bits : List Bool} {p : Nat} (hp : p ∈ c.positions) (hlen : bits.length ≤ p)
    (cfg : Cfg) : applyCheck cfg c bits = ⟨.failed, 0, 0, bits⟩ :=
  if_pos (List.any_eq_true.2 ⟨p, hp, decide_eq_true hlen⟩)

/-- The decoder of a check's kind (R300), without the check of R306. -/
def decodeCheck (cfg : Cfg) (bits : List Bool) : Check → CheckOutcome
  | .crc w poly init xorout data recv => crcCheck w poly init xorout data recv bits
  | .block code pos => blockDecode code pos bits
  | .rs m prim n k fcr pos => rsDecode m prim n k fcr pos bits
  | .trellis pos start failAbove => trellisDecode cfg pos start failAbove bits

/-- R300: a check whose positions lie inside the frame is the decoder of its kind. -/
theorem applyCheck_of_inside {c : Check} {bits : List Bool} (h : ∀ p ∈ c.positions, p < bits.length) (cfg : Cfg) :
    applyCheck cfg c bits = decodeCheck cfg bits c := by
  have hany : ¬ (c.positions.any fun p => decide (bits.length ≤ p)) = true := by
    simpa using h
  refine (if_neg hany).trans ?_
  cases c <;> rfl

@[simp] theorem positions_crc (w poly init xorout : Nat) (data recv : List Nat) :
    (Check.crc w poly init xorout data recv).positions = data ++ recv := by
  simp [Check.positions, Check.posLists]

@[simp] theorem positions_block (code : LinearCode) (pos : List Nat) : (Check.block code pos).positions = pos := by
  simp [Check.positions, Check.posLists]

@[simp] theorem positions_rs (m prim n k fcr : Nat) (pos : List Nat) :
    (Check.rs m prim n k fcr pos).positions = pos := by
  simp [Check.positions, Check.posLists]

@[simp] theorem positions_trellis (pos : List Nat) (start : Option Dibit) (failAbove : Option Nat) :
    (Check.trellis pos start failAbove).positions = pos := by
  simp [Check.positions, Check.posLists]

/-- Settles O45: the decoder of the check's kind is not reached. -/
theorem shortFrameFailsTheCheck : Obligations.ShortFrameFailsTheCheck :=
  fun cfg _ _ _ hp hlen => applyCheck_of_short hp hlen cfg

/-- R304: one more check at the end sees the bits the others left, and its three additions come after theirs. -/
theorem runChecks_concat {cs : List Check} {f g : Frame} {s t : State} (h : runChecks cs f s = (g, t)) (c : Check) :
    runChecks (cs ++ [c]) f s =
      (recordCheck (checkKind c) (applyCheck s.cfg c g.bits) g, countCheck (applyCheck s.cfg c g.bits) t) := by
  have hcfg : t.cfg = s.cfg := by simpa [h] using (runChecks_base cs f s).cfg
  rw [runChecks_append, h]
  simp only [runChecks, hcfg]

/-- Settles O46: the decoder of each kind by `applyCheck_of_inside`, the last check of a list by `runChecks_concat`. -/
theorem checksRunInListOrder : Obligations.ChecksRunInListOrder := by
  refine ⟨fun cfg bits => ⟨fun w poly init xorout data recv => ⟨rfl, fun h => ?crc⟩,
    fun code pos => ⟨rfl, fun h => ?block⟩, fun m prim n k fcr pos => ⟨rfl, fun h => ?rs⟩,
    fun pos start failAbove => ⟨rfl, fun h => ?trellis⟩⟩, ?concat⟩
  case crc => exact applyCheck_of_inside (by simpa using h) cfg
  case block => exact applyCheck_of_inside (by simpa using h) cfg
  case rs => exact applyCheck_of_inside (by simpa using h) cfg
  case trellis => exact applyCheck_of_inside (by simpa using h) cfg
  case concat =>
    rintro cs c f s g t o h rfl
    refine ⟨rfl, ?_⟩
    rw [runChecks_concat h, countCheck_eq]
    rfl

end Sys2Proof.Machine

/-! Numbers written most significant bit first (20_memory.md R104, R105): `msbValue` and `msbBits` undo each other. -/

namespace Sys2Proof.Machine

theorem foldl_msb (acc : Nat) (l : List Bool) :
    l.foldl (fun a b => 2 * a + b.toNat) acc = acc * 2 ^ l.length + msbValue l := by
  induction l generalizing acc with
  | nil => simp [msbValue]
  | cons b l ih =>
    rw [msbValue, List.foldl_cons, List.foldl_cons, ih, ih (2 * 0 + b.toNat), List.length_cons]
    ring

theorem msbValue_cons (b : Bool) (l : List Bool) : msbValue (b :: l) = b.toNat * 2 ^ l.length + msbValue l := by
  rw [msbValue, List.foldl_cons, foldl_msb, Nat.mul_zero, Nat.zero_add]

theorem msbValue_lt (l : List Bool) : msbValue l < 2 ^ l.length := by
  induction l with
  | nil => exact Nat.one_pos
  | cons b l ih =>
    rw [msbValue_cons, List.length_cons, Nat.pow_succ]
    cases b <;> simp <;> omega

/-- R105: the value as the sum of the bits' places. -/
theorem msbValue_eq_sum (l : List Bool) :
    msbValue l = ((List.range l.length).map fun j => (l.getD j false).toNat * 2 ^ (l.length - 1 - j)).sum := by
  induction l with
  | nil => rfl
  | cons b l ih =>
    rw [msbValue_cons, ih, List.length_cons, List.range_succ_eq_map]
    simp [List.map_map, Function.comp_def, Nat.sub_sub, Nat.add_comm]

@[simp] theorem length_msbBits (k v : Nat) : (msbBits k v).length = k := by simp [msbBits]

theorem msbBits_succ (k v : Nat) : msbBits (k + 1) v = v.testBit k :: msbBits k v := by
  rw [msbBits, List.range_succ_eq_map, List.map_cons, List.map_map]
  refine congrArg _ (List.map_congr_left fun i _ => ?_)
  rw [Function.comp_apply, Nat.add_sub_cancel, Nat.succ_eq_add_one, Nat.add_comm i, Nat.sub_sub]

/-- The bit above the `k` low ones. -/
theorem mod_two_pow_succ (v k : Nat) : v % 2 ^ (k + 1) = (v.testBit k).toNat * 2 ^ k + v % 2 ^ k := by
  rw [Nat.mod_pow_succ, Nat.toNat_testBit, Nat.mul_comm, Nat.add_comm]

theorem msbValue_msbBits (k v : Nat) : msbValue (msbBits k v) = v % 2 ^ k := by
  induction k with
  | zero => simp [msbBits, msbValue, Nat.mod_one]
  | succ k ih => rw [msbBits_succ, msbValue_cons, ih, length_msbBits, mod_two_pow_succ]

/-- The `k` low bits do not show what is added above them. -/
theorem msbBits_mul_two_pow_add (a : Nat) {k v : Nat} (h : v < 2 ^ k) : msbBits k (a * 2 ^ k + v) = msbBits k v := by
  refine List.map_congr_left fun i hi => ?_
  have hi : i < k := List.mem_range.1 hi
  rw [Nat.mul_comm, Nat.testBit_two_pow_mul_add a h, if_pos (by omega)]

theorem msbBits_msbValue (l : List Bool) : msbBits l.length (msbValue l) = l := by
  induction l with
  | nil => rfl
  | cons b l ih =>
    have hb : (b.toNat * 2 ^ l.length + msbValue l).testBit l.length = b := by
      rw [Nat.mul_comm, Nat.testBit_two_pow_mul_add _ (msbValue_lt l), if_neg (Nat.lt_irrefl _), Nat.sub_self]
      cases b <;> rfl
    rw [List.length_cons, msbBits_succ, msbValue_cons, hb, msbBits_mul_two_pow_add _ (msbValue_lt l), ih]

theorem msbValue_injective {a b : List Bool} (hl : a.length = b.length) (h : msbValue a = msbValue b) : a = b := by
  rw [← msbBits_msbValue a, hl, h, msbBits_msbValue]

end Sys2Proof.Machine

/-! The CRC validator (42_error_correction.md R310, R311). The register's step loses nothing: its lowest bit is the
feedback bit because `poly` has its x^0 term (00_scope.md R18), so the register before it can be recovered, and a
flipped data bit is never forgotten. -/

namespace Sys2Proof.Machine

/-! ### The register -/

section CrcRegister
variable {w poly : Nat}

theorem crcStep_lt (hpoly : poly < 2 ^ w) (reg : Nat) (b : Bool) : crcStep w poly reg b < 2 ^ w := by
  have hshift : reg * 2 % 2 ^ w < 2 ^ w := Nat.mod_lt _ (Nat.two_pow_pos w)
  unfold crcStep
  dsimp only
  split
  · exact Nat.xor_lt_two_pow hshift hpoly
  · exact hshift

/-- The lowest bit of the next register is the feedback bit. -/
theorem crcStep_testBit_zero (hodd : poly % 2 = 1) (reg : Nat) (b : Bool) :
    (crcStep w poly reg b).testBit 0 = (reg.testBit (w - 1) ^^ b) := by
  have hshift : (reg * 2 % 2 ^ w).testBit 0 = false := by
    simp
  unfold crcStep
  dsimp only
  split
  case isTrue h => rw [Nat.testBit_xor, hshift, h, Nat.testBit_zero, hodd]; rfl
  case isFalse h => rw [hshift, Bool.eq_false_iff.2 h]

/-- Flipping the data bit changes the next register. -/
theorem crcStep_not_ne (hodd : poly % 2 = 1) (reg : Nat) (b : Bool) :
    crcStep w poly reg (!b) ≠ crcStep w poly reg b := by
  intro h
  have hbit := congrArg (Nat.testBit · 0) h
  simp only [crcStep_testBit_zero hodd] at hbit
  simp at hbit

/-- Two registers with one next register under one data bit are equal. -/
theorem crcStep_injective (hw : 1 ≤ w) (hodd : poly % 2 = 1) {r r' : Nat} (hr : r < 2 ^ w) (hr' : r' < 2 ^ w) {b : Bool}
    (h : crcStep w poly r b = crcStep w poly r' b) : r = r' := by
  have hbit := congrArg (Nat.testBit · 0) h
  simp only [crcStep_testBit_zero hodd] at hbit
  have htop : r.testBit (w - 1) = r'.testBit (w - 1) := Bool.xor_left_inj.1 hbit
  have hshift : r * 2 % 2 ^ w = r' * 2 % 2 ^ w := by
    unfold crcStep at h
    dsimp only at h
    rw [htop] at h
    split at h
    · exact Nat.xor_left_inj.1 h
    · exact h
  obtain ⟨v, rfl⟩ : ∃ v, w = v + 1 := ⟨w - 1, by omega⟩
  have hlow : r % 2 ^ v = r' % 2 ^ v := by
    rw [Nat.pow_succ, Nat.mul_mod_mul_right, Nat.mul_mod_mul_right] at hshift
    omega
  rw [Nat.add_sub_cancel] at htop
  rw [← Nat.mod_eq_of_lt hr, ← Nat.mod_eq_of_lt hr', mod_two_pow_succ, mod_two_pow_succ, hlow, htop]

/-- Two registers that agree after the same data bits were equal before them. -/
theorem foldl_crcStep_injective (hw : 1 ≤ w) (hodd : poly % 2 = 1) (hpoly : poly < 2 ^ w) (l : List Bool) {r r' : Nat}
    (hr : r < 2 ^ w) (hr' : r' < 2 ^ w) (h : l.foldl (crcStep w poly) r = l.foldl (crcStep w poly) r') : r = r' := by
  induction l generalizing r r' with
  | nil => exact h
  | cons b l ih =>
    exact crcStep_injective hw hodd hr hr' (ih (crcStep_lt hpoly r b) (crcStep_lt hpoly r' b) h)

/-- R311: flipping one data bit changes the calculated checksum. -/
theorem crcCalc_flip_ne (hw : 1 ≤ w) (hodd : poly % 2 = 1) (hpoly : poly < 2 ^ w) (init xorout : Nat)
    (l l' : List Bool) (b : Bool) :
    crcCalc w poly init xorout (l ++ (!b) :: l') ≠ crcCalc w poly init xorout (l ++ b :: l') := by
  intro h
  have hfold := Nat.xor_left_inj.1 h
  rw [List.foldl_append, List.foldl_append] at hfold
  exact crcStep_not_ne hodd _ b
    (foldl_crcStep_injective hw hodd hpoly l' (crcStep_lt hpoly _ _) (crcStep_lt hpoly _ _) hfold)

/-- R310: a sequence of registers that follows the rule's step over the data positions ends in the model's register. -/
theorem register_eq_foldl {reg : Nat → Nat} {data : List Nat} {bits : List Bool}
    (h : ∀ j p, data[j]? = some p → reg (j + 1) = crcStep w poly (reg j) (bitAt bits p)) :
    reg data.length = (bitsAt bits data).foldl (crcStep w poly) (reg 0) := by
  induction data generalizing reg with
  | nil => rfl
  | cons p data ih =>
    have hhead : reg 1 = crcStep w poly (reg 0) (bitAt bits p) := h 0 p rfl
    have htail := ih (reg := fun j => reg (j + 1)) fun j q hq => h (j + 1) q hq
    rw [List.length_cons, htail, hhead]
    rfl

end CrcRegister

/-! ### The verdict -/

theorem crcCheck_of_eq {w poly init xorout : Nat} {data recv : List Nat} {bits : List Bool}
    (h : crcCalc w poly init xorout (bitsAt bits data) = msbValue (bitsAt bits recv)) :
    crcCheck w poly init xorout data recv bits = ⟨.passed, 0, 0, bits⟩ := if_pos h

theorem crcCheck_of_ne {w poly init xorout : Nat} {data recv : List Nat} {bits : List Bool}
    (h : crcCalc w poly init xorout (bitsAt bits data) ≠ msbValue (bitsAt bits recv)) :
    crcCheck w poly init xorout data recv bits = ⟨.failed, 0, 0, bits⟩ := if_neg h

/-- R310: a CRC check passes or fails, and changes nothing. -/
theorem crcCheck_cases (w poly init xorout : Nat) (data recv : List Nat) (bits : List Bool) :
    (crcCalc w poly init xorout (bitsAt bits data) = msbValue (bitsAt bits recv) ∧
      crcCheck w poly init xorout data recv bits = ⟨.passed, 0, 0, bits⟩) ∨
    (crcCalc w poly init xorout (bitsAt bits data) ≠ msbValue (bitsAt bits recv) ∧
      crcCheck w poly init xorout data recv bits = ⟨.failed, 0, 0, bits⟩) :=
  (eq_or_ne _ _).imp (fun h => ⟨h, crcCheck_of_eq h⟩) fun h => ⟨h, crcCheck_of_ne h⟩

/-- What 00_scope.md R18 asks of a CRC check, as far as the verdict rests on it. -/
structure CrcValid (w poly : Nat) (data recv : List Nat) : Prop where
  width : 1 ≤ w
  poly_lt : poly < 2 ^ w
  poly_odd : poly % 2 = 1
  recv_length : recv.length = w
  data_nodup : data.Nodup
  recv_nodup : recv.Nodup
  disjoint : ∀ p ∈ data, p ∉ recv

theorem crcValid_of_vCheck {par : Params} {w poly init xorout : Nat} {data recv : List Nat}
    (h : vCheck par (.crc w poly init xorout data recv) = true) : CrcValid w poly data recv := by
  simp only [vCheck, Check.posLists, distinct, Bool.and_eq_true, List.all_cons, List.all_nil, and_true,
    decide_eq_true_eq, beq_iff_eq, List.all_eq_true, List.contains_iff_mem, Bool.not_eq_true',
    ← Bool.not_eq_true] at h
  obtain ⟨⟨-, hdata, hrecv⟩, ⟨⟨⟨⟨⟨⟨⟨hw, -⟩, hlt⟩, hodd⟩, -⟩, -⟩, hlen⟩, -⟩, hdisj⟩ := h
  exact ⟨hw, hlt, hodd, hlen, hdata, hrecv, hdisj⟩

/-- Inverting one of distinct positions inverts one bit of the list read there. -/
theorem bitsAt_set_not {pos : List Nat} (hnd : pos.Nodup) {bits : List Bool} {p : Nat} (hp : p ∈ pos)
    (hin : p < bits.length) : ∃ l l', bitsAt bits pos = l ++ bitAt bits p :: l' ∧
      bitsAt (bits.set p (!bitAt bits p)) pos = l ++ (!bitAt bits p) :: l' := by
  obtain ⟨pre, post, rfl⟩ := List.append_of_mem hp
  obtain ⟨hpre, hpost⟩ : p ∉ pre ∧ p ∉ post := by
    simpa using (List.nodup_cons.1 (List.nodup_middle.1 hnd)).1
  have happ : ∀ b : List Bool, bitsAt b (pre ++ p :: post) = bitsAt b pre ++ bitAt b p :: bitsAt b post := fun b =>
    List.map_append
  exact ⟨bitsAt bits pre, bitsAt bits post, happ bits, by
    rw [happ, bitsAt_set_of_notMem hpre, bitsAt_set_of_notMem hpost, bitAt_set_self hin]⟩

/-- R311: a frame whose checksum is right has a wrong one after any one data or checksum bit is inverted. -/
theorem CrcValid.ne_of_flip {w poly init xorout : Nat} {data recv : List Nat} (hv : CrcValid w poly data recv)
    {bits : List Bool} {p : Nat} (hp : p ∈ data ++ recv) (hin : p < bits.length)
    (h : crcCalc w poly init xorout (bitsAt bits data) = msbValue (bitsAt bits recv)) :
    crcCalc w poly init xorout (bitsAt (bits.set p (!bitAt bits p)) data) ≠
      msbValue (bitsAt (bits.set p (!bitAt bits p)) recv) := by
  obtain hd | hr := List.mem_append.1 hp
  · obtain ⟨l, l', hold, hnew⟩ := bitsAt_set_not hv.data_nodup hd hin
    rw [bitsAt_set_of_notMem (hv.disjoint p hd), ← h, hold, hnew]
    exact crcCalc_flip_ne hv.width hv.poly_odd hv.poly_lt init xorout l l' _
  · obtain ⟨l, l', hold, hnew⟩ := bitsAt_set_not hv.recv_nodup hr hin
    rw [bitsAt_set_of_notMem fun hd => hv.disjoint p hd hr, h, hold, hnew]
    intro heq
    have hlist := msbValue_injective (by simp) heq
    simp at hlist

/-- Settles O38: the register's rule is `crcCalc`, and a flipped bit changes one side of the comparison alone. -/
theorem crcDetectsEverySingleFlip : Obligations.CrcDetectsEverySingleFlip := by
  rintro cfg par w poly init xorout data recv bits c rfl hv hin
  have hvalid := crcValid_of_vCheck hv
  have happly : applyCheck cfg (.crc w poly init xorout data recv) bits = crcCheck w poly init xorout data recv bits :=
    applyCheck_of_inside hin cfg
  rw [happly]
  refine ⟨fun reg chk sum h0 hstep hchk hsum => ?register, ?never, fun p hp hpass => ?flip⟩
  case register =>
    have hcalc : chk = crcCalc w poly init xorout (bitsAt bits data) := by
      rw [hchk, register_eq_foldl (poly := poly) (w := w) (bits := bits) hstep, h0, crcCalc]
    have hrecv : sum = msbValue (bitsAt bits recv) := by
      rw [hsum, msbValue_eq_sum, length_bitsAt, hvalid.recv_length]
      refine congrArg List.sum (List.map_congr_left fun j hj => ?_)
      rw [getD_bitsAt (by rw [hvalid.recv_length]; exact List.mem_range.1 hj), bitAt]
    rw [hcalc, hrecv]
    exact ⟨crcCheck_of_eq, crcCheck_of_ne⟩
  case never =>
    obtain ⟨-, h⟩ | ⟨-, h⟩ := crcCheck_cases w poly init xorout data recv bits <;> simp [h]
  case flip =>
    have hin' : ∀ q ∈ (Check.crc w poly init xorout data recv).positions,
        q < (bits.set p (!bitAt bits p)).length := by simpa only [List.length_set] using hin
    obtain ⟨heq, -⟩ | ⟨-, h⟩ := crcCheck_cases w poly init xorout data recv bits
    · have hne := hvalid.ne_of_flip (by simpa using hp) (hin p hp) heq
      rw [applyCheck_of_inside hin', decodeCheck, crcCheck_of_ne hne]
    · simp [h] at hpass

end Sys2Proof.Machine

/-! The error patterns a bounded-distance decoder ranges over (42_error_correction.md R314, R323): the sublists of at
most `t` positions, each once. -/

namespace Sys2Proof

/-- Lists drawn from each element of a list without repetition have none when every one of them shows its origin. -/
theorem nodup_flatMap_of_origin {α β : Type} {l : List α} {f : α → List β} (origin : β → α) (hl : l.Nodup)
    (hf : ∀ a ∈ l, (f a).Nodup) (ho : ∀ a ∈ l, ∀ b ∈ f a, origin b = a) : (l.flatMap f).Nodup := by
  refine List.nodup_flatMap.2 ⟨hf, hl.pairwise_of_forall_ne fun a ha a' ha' hne b hb hb' => hne ?_⟩
  rw [← ho a ha b hb, ho a' ha' b hb']

theorem eq_singleton_of_nodup {α : Type} {l : List α} {a : α} (hl : l.Nodup) (h : ∀ b, b ∈ l ↔ b = a) : l = [a] :=
  List.perm_singleton.1 ((List.perm_ext_iff_of_nodup hl (List.nodup_singleton a)).2 (by simpa using h))

/-- The position sets of size `k` are Mathlib's, in another order. -/
theorem choose_perm_sublistsLen {α : Type} (k : Nat) (l : List α) : (choose k l).Perm (l.sublistsLen k) := by
  induction l generalizing k with
  | nil => cases k <;> exact .refl _
  | cons a l ih =>
    cases k with
    | zero => exact .refl _
    | succ k =>
      rw [choose, List.sublistsLen_succ_cons]
      exact (((ih k).map _).append (ih (k + 1))).trans List.perm_append_comm

theorem mem_choose {α : Type} {k : Nat} {l e : List α} : e ∈ choose k l ↔ e.Sublist l ∧ e.length = k := by
  rw [(choose_perm_sublistsLen k l).mem_iff, List.mem_sublistsLen]

theorem nodup_choose {α : Type} (k : Nat) {l : List α} (h : l.Nodup) : (choose k l).Nodup :=
  (choose_perm_sublistsLen k l).nodup_iff.2 (List.nodup_sublistsLen k h)

theorem mem_chooseUpTo {α : Type} {t : Nat} {l e : List α} :
    e ∈ chooseUpTo t l ↔ e.Sublist l ∧ 1 ≤ e.length ∧ e.length ≤ t := by
  simp only [chooseUpTo, List.mem_flatMap, List.mem_range, mem_choose]
  constructor
  · rintro ⟨k, hk, hsub, hlen⟩
    exact ⟨hsub, by omega, by omega⟩
  · rintro ⟨hsub, hpos, hle⟩
    exact ⟨e.length - 1, by omega, hsub, by omega⟩

theorem nodup_chooseUpTo {α : Type} (t : Nat) {l : List α} (h : l.Nodup) : (chooseUpTo t l).Nodup :=
  nodup_flatMap_of_origin (fun e => e.length - 1) List.nodup_range (fun k _ => nodup_choose (k + 1) h)
    fun k _ e he => by
      rw [(mem_choose.1 he).2, Nat.add_sub_cancel]

/-! ### Positions selected by a word -/

/-- The elements of a list where a word is 1. -/
def selected {α : Type} : List α → List Bool → List α
  | a :: l, b :: v => if b then a :: selected l v else selected l v
  | _, _ => []

theorem selected_sublist {α : Type} (l : List α) (v : List Bool) : (selected l v).Sublist l := by
  induction l generalizing v with
  | nil => cases v <;> exact .slnil
  | cons a l ih =>
    cases v with
    | nil => exact List.nil_sublist _
    | cons b v =>
      cases b
      · exact (ih v).cons a
      · exact (ih v).cons_cons a

/-- Every sublist is selected by a word. -/
theorem exists_selected {α : Type} {e l : List α} (h : e.Sublist l) : ∃ v, v.length = l.length ∧ e = selected l v := by
  induction h with
  | slnil => exact ⟨[], rfl, rfl⟩
  | cons a _ ih =>
    obtain ⟨v, hlen, rfl⟩ := ih
    exact ⟨false :: v, congrArg _ hlen, rfl⟩
  | cons_cons a _ ih =>
    obtain ⟨v, hlen, rfl⟩ := ih
    exact ⟨true :: v, congrArg _ hlen, rfl⟩

theorem length_selected {α : Type} {l : List α} {v : List Bool} (h : v.length = l.length) :
    (selected l v).length = v.count true := by
  induction l generalizing v with
  | nil => rw [List.length_eq_zero_iff.1 h]; rfl
  | cons a l ih =>
    obtain _ | ⟨b, v⟩ := v
    · simp at h
    · cases b <;> simp [selected, ih (Nat.succ.inj h)]

theorem map_selected {α β : Type} (f : α → β) (l : List α) (v : List Bool) :
    (selected l v).map f = selected (l.map f) v := by
  induction l generalizing v with
  | nil => cases v <;> rfl
  | cons a l ih =>
    cases v with
    | nil => rfl
    | cons b v => cases b <;> simp [selected, ih]

/-- Indices selected by a word lead to the entries it selects. -/
theorem map_getD_selected_range {α : Type} (l : List α) (d : α) (v : List Bool) :
    (selected (List.range l.length) v).map (l.getD · d) = selected l v := by
  rw [map_selected]
  congr 1
  exact List.ext_getElem (by simp) fun i hi hi' => by simp [hi']

end Sys2Proof

namespace Sys2Proof.Machine

/-! ### The difference of two words -/

/-- `x ⊕ y` on words. -/
def diffBits (x y : List Bool) : List Bool := List.zipWith (· ^^ ·) x y

@[simp] theorem diffBits_cons (a b : Bool) (x y : List Bool) :
    diffBits (a :: x) (b :: y) = (a ^^ b) :: diffBits x y := rfl

theorem length_diffBits {x y : List Bool} (h : x.length = y.length) : (diffBits x y).length = y.length := by
  simp [diffBits, h]

theorem diffBits_diffBits {x y : List Bool} (h : x.length = y.length) : diffBits x (diffBits x y) = y := by
  induction x generalizing y with
  | nil => exact (List.length_eq_zero_iff.1 h.symm).symm
  | cons a x ih =>
    obtain _ | ⟨b, y⟩ := y
    · simp at h
    · simp [ih (Nat.succ.inj h)]

/-- Two words are as far apart as their difference has ones. -/
theorem hamming_eq_count (x y : List Bool) : hamming x y = (diffBits x y).count true := by
  induction x generalizing y with
  | nil => rfl
  | cons a x ih =>
    cases y with
    | nil => rfl
    | cons b y => cases a <;> cases b <;> simp [ih]

theorem count_diffBits_le (x y : List Bool) : (diffBits x y).count true ≤ x.count true + y.count true := by
  induction x generalizing y with
  | nil => exact Nat.zero_le _
  | cons a x ih =>
    cases y with
    | nil => exact Nat.zero_le _
    | cons b y =>
      have htail := ih y
      cases a <;> cases b <;> simp <;> omega

/-- Inverting the selected ones of distinct positions adds the selecting word to what stands there. -/
theorem bitsAt_flipBits_selected {pos : List Nat} (hnd : pos.Nodup) {bits : List Bool}
    (hin : ∀ p ∈ pos, p < bits.length) {v : List Bool} (hl : v.length = pos.length) :
    bitsAt (flipBits bits (selected pos v)) pos = diffBits (bitsAt bits pos) v := by
  induction pos generalizing bits v with
  | nil => rfl
  | cons p pos ih =>
    obtain ⟨hp, hnd⟩ := List.nodup_cons.1 hnd
    obtain ⟨hpin, hin⟩ := List.forall_mem_cons.1 hin
    have hsel (v : List Bool) : p ∉ selected pos v := fun h => hp ((selected_sublist pos v).mem h)
    have hselnd (v : List Bool) : (selected pos v).Nodup := (selected_sublist pos v).nodup hnd
    have hsplit (b : List Bool) : bitsAt b (p :: pos) = bitAt b p :: bitsAt b pos := rfl
    obtain _ | ⟨b, v⟩ := v
    · simp at hl
    · have hl' : v.length = pos.length := Nat.succ.inj hl
      rw [hsplit, hsplit, diffBits_cons]
      cases b
      · rw [selected, if_neg Bool.false_ne_true, ih hnd hin hl', bitAt_flipBits_of_notMem (hselnd v) (hsel v),
          Bool.xor_false]
      · have hflip : flipBits bits (selected (p :: pos) (true :: v)) =
            flipBits (bits.set p (!bitAt bits p)) (selected pos v) := rfl
        rw [hflip, ih hnd (by simpa using hin) hl', bitAt_flipBits_of_notMem (hselnd v) (hsel v), bitAt_set_self hpin,
          bitsAt_set_of_notMem hp, Bool.xor_true]

end Sys2Proof.Machine

/-! Linear block codes (42_error_correction.md R313, R314). -/

namespace Sys2Proof.Machine

/-! ### Syndromes -/

@[simp] theorem xorAll_cons (a : Nat) (l : List Nat) : xorAll (a :: l) = a ^^^ xorAll l := by
  rw [xorAll, List.foldl_cons, Nat.xor_comm, List.foldl_assoc, xorAll]

/-- The exclusive or of the columns a word selects. -/
theorem xorAll_zip_eq_selected (cols : List Nat) (v : List Bool) :
    xorAll ((cols.zip v).map fun cx => if cx.2 then cx.1 else 0) = xorAll (selected cols v) := by
  induction cols generalizing v with
  | nil => rfl
  | cons c cols ih =>
    cases v with
    | nil => rfl
    | cons b v => cases b <;> simp [selected, ih]

theorem syndrome_eq (code : LinearCode) (v : List Bool) : code.syndrome v = xorAll (selected code.cols v) :=
  xorAll_zip_eq_selected code.cols v

/-- R313: the two forms of a syndrome agree, on a word and on its list of positions. -/
theorem syndromeAt_selected {code : LinearCode} (hn : code.cols.length = code.n) (v : List Bool) :
    code.syndromeAt (selected (List.range code.n) v) = code.syndrome v := by
  rw [LinearCode.syndromeAt, ← hn, map_getD_selected_range, syndrome_eq]

/-- The syndrome is linear. -/
theorem xorAll_selected_diffBits (cols : List Nat) {x y : List Bool} (h : x.length = y.length) :
    xorAll (selected cols (diffBits x y)) = xorAll (selected cols x) ^^^ xorAll (selected cols y) := by
  induction cols generalizing x y with
  | nil => simp [selected, xorAll]
  | cons c cols ih =>
    obtain _ | ⟨a, x⟩ := x <;> obtain _ | ⟨b, y⟩ := y
    · simp [selected, xorAll, diffBits]
    · simp at h
    · simp at h
    · have htail := ih (Nat.succ.inj h)
      cases a <;> cases b <;> simp [selected, htail, Nat.xor_assoc, Nat.xor_left_comm c]

theorem syndrome_diffBits (code : LinearCode) {x y : List Bool} (h : x.length = y.length) :
    code.syndrome (diffBits x y) = code.syndrome x ^^^ code.syndrome y := by
  simp only [syndrome_eq, xorAll_selected_diffBits _ h]

/-! ### The minimum distance -/

/-- What `noZeroSum` checks: a word of at most `budget` ones has no columns that sum to `acc`, the word 0 for `acc` = 0
apart. -/
theorem noZeroSum_ne {cols : List Nat} {acc budget : Nat} (h : noZeroSum cols acc budget = true) {v : List Bool}
    (hl : v.length = cols.length) (hv : acc ≠ 0 ∨ true ∈ v) (hb : v.count true ≤ budget) :
    acc ^^^ xorAll (selected cols v) ≠ 0 := by
  induction cols generalizing acc budget v with
  | nil =>
    rw [List.length_eq_zero_iff.1 hl] at hv ⊢
    simpa [selected, xorAll] using hv
  | cons c cols ih =>
    obtain _ | ⟨b, v⟩ := v
    · simp at hl
    · obtain ⟨hskip, htake⟩ := Bool.and_eq_true_iff.1 h
      have hl' : v.length = cols.length := Nat.succ.inj hl
      cases b
      · exact ih hskip hl' (by simpa using hv) (by simpa using hb)
      · obtain _ | budget := budget
        · simp at hb
        · obtain ⟨hne, htake⟩ := Bool.and_eq_true_iff.1 htake
          rw [selected, if_pos rfl, xorAll_cons, ← Nat.xor_assoc]
          exact ih htake hl' (.inl (bne_iff_ne.1 hne)) (by simpa using hb)

theorem valid_cols {code : LinearCode} (h : code.valid = true) :
    code.cols.length = code.n ∧ noZeroSum code.cols 0 (2 * code.t) = true := by
  simp only [LinearCode.valid, Bool.and_eq_true, beq_iff_eq] at h
  obtain ⟨⟨⟨-, hn⟩, -⟩, hsum⟩ := h
  exact ⟨hn, hsum⟩

/-- R313: over a valid code every syndrome has at most one error pattern of weight at most t. -/
theorem eq_of_syndrome_eq {code : LinearCode} (h : code.valid = true) {v v' : List Bool} (hl : v.length = code.n)
    (hl' : v'.length = code.n) (hw : v.count true ≤ code.t) (hw' : v'.count true ≤ code.t)
    (hs : code.syndrome v = code.syndrome v') : v = v' := by
  obtain ⟨hn, hsum⟩ := valid_cols h
  have hlen : v.length = v'.length := hl.trans hl'.symm
  have hzero : 0 ^^^ xorAll (selected code.cols (diffBits v v')) = 0 := by
    rw [Nat.zero_xor, ← syndrome_eq, syndrome_diffBits code hlen, hs, Nat.xor_self]
  have hnone : true ∉ diffBits v v' := fun hmem =>
    noZeroSum_ne hsum (by rw [length_diffBits hlen, hl', hn]) (.inr hmem)
      ((count_diffBits_le v v').trans (by omega)) hzero
  exact eq_of_hamming_eq_zero hlen (by rw [hamming_eq_count, List.count_eq_zero.2 hnone])

/-! ### The decoder's error patterns -/

theorem nodup_blockErrors (code : LinearCode) (s : Nat) : (blockErrors code s).Nodup :=
  (nodup_chooseUpTo code.t List.nodup_range).filter _

/-- `E` of R314: the words of weight 1 to t with the syndrome. -/
theorem mem_blockErrors {code : LinearCode} (hn : code.cols.length = code.n) {s : Nat} {e : List Nat} :
    e ∈ blockErrors code s ↔ ∃ v, v.length = code.n ∧ e = selected (List.range code.n) v ∧ 1 ≤ v.count true ∧
      v.count true ≤ code.t ∧ code.syndrome v = s := by
  simp only [blockErrors, List.mem_filter, mem_chooseUpTo, beq_iff_eq]
  constructor
  · rintro ⟨⟨hsub, hpos, hle⟩, hsyn⟩
    obtain ⟨v, hlen, rfl⟩ := exists_selected hsub
    rw [length_selected hlen] at hpos hle
    rw [List.length_range] at hlen
    exact ⟨v, hlen, rfl, hpos, hle, by rwa [← syndromeAt_selected hn]⟩
  · rintro ⟨v, hlen, rfl, hpos, hle, hsyn⟩
    rw [length_selected (by simpa using hlen), syndromeAt_selected hn]
    exact ⟨⟨selected_sublist _ v, hpos, hle⟩, hsyn⟩

/-- R313, R314: over a valid code a word of weight 1 to t is the only error pattern of its syndrome. -/
theorem blockErrors_syndrome {code : LinearCode} (h : code.valid = true) {v : List Bool} (hl : v.length = code.n)
    (hpos : 1 ≤ v.count true) (hle : v.count true ≤ code.t) :
    blockErrors code (code.syndrome v) = [selected (List.range code.n) v] := by
  obtain ⟨hn, -⟩ := valid_cols h
  refine eq_singleton_of_nodup (nodup_blockErrors code _) fun e => ⟨fun he => ?_, ?_⟩
  · obtain ⟨v', hl', rfl, -, hle', hs⟩ := (mem_blockErrors hn).1 he
    rw [eq_of_syndrome_eq h hl' hl hle' hle hs]
  · rintro rfl
    exact (mem_blockErrors hn).2 ⟨v, hl, rfl, hpos, hle, rfl⟩

/-! ### The decoder -/

theorem blockDecode_of_codeword {code : LinearCode} {pos : List Nat} {bits : List Bool}
    (h : code.syndrome (bitsAt bits pos) = 0) : blockDecode code pos bits = ⟨.passed, 0, 0, bits⟩ := if_pos h

theorem blockDecode_of_blockErrors_nil {code : LinearCode} {pos : List Nat} {bits : List Bool}
    (h : code.syndrome (bitsAt bits pos) ≠ 0) (he : blockErrors code (code.syndrome (bitsAt bits pos)) = []) :
    blockDecode code pos bits = ⟨.failed, 0, 0, bits⟩ := by
  rw [blockDecode, if_neg h, he]
  rfl

/-- R314: the one error pattern `v` is taken out of the word. -/
theorem blockDecode_of_blockErrors {code : LinearCode} {pos : List Nat} {bits v : List Bool}
    (h : code.syndrome (bitsAt bits pos) ≠ 0) (hlen : pos.length = code.n) (hl : v.length = code.n)
    (he : blockErrors code (code.syndrome (bitsAt bits pos)) = [selected (List.range code.n) v]) :
    blockDecode code pos bits = ⟨.corrected, v.count true, 0, flipBits bits (selected pos v)⟩ := by
  rw [blockDecode, if_neg h, he]
  simp only [outcomeCorrected]
  rw [length_selected (by simpa using hl), ← hlen, map_getD_selected_range]

/-- R314: a word passes, is corrected by an error pattern of weight 1 to t, or fails. -/
theorem blockDecode_cases {code : LinearCode} (h : code.valid = true) {pos : List Nat} (hlen : pos.length = code.n)
    (bits : List Bool) :
    blockDecode code pos bits = ⟨.passed, 0, 0, bits⟩ ∨ blockDecode code pos bits = ⟨.failed, 0, 0, bits⟩ ∨
    ∃ v, v.length = code.n ∧ 1 ≤ v.count true ∧
      blockDecode code pos bits = ⟨.corrected, v.count true, 0, flipBits bits (selected pos v)⟩ := by
  obtain ⟨hn, -⟩ := valid_cols h
  obtain hs | hs := eq_or_ne (code.syndrome (bitsAt bits pos)) 0
  · exact .inl (blockDecode_of_codeword hs)
  cases he : blockErrors code (code.syndrome (bitsAt bits pos)) with
  | nil => exact .inr (.inl (blockDecode_of_blockErrors_nil hs he))
  | cons e rest =>
    obtain ⟨v, hl, -, hpos, hle, hsyn⟩ := (mem_blockErrors hn).1 (he ▸ List.mem_cons_self : e ∈ blockErrors code _)
    have hone := hsyn ▸ blockErrors_syndrome h hl hpos hle
    exact .inr (.inr ⟨v, hl, hpos, blockDecode_of_blockErrors hs hlen hl hone⟩)

/-- Settles O39: a codeword within t is an error pattern of the word's syndrome, the only one over a valid code; and an
error pattern is a codeword within t. -/
theorem blockDecodingIsBoundedDistance : Obligations.BlockDecodingIsBoundedDistance := by
  rintro code pos bits x o hvalid hlen hnd hin rfl rfl
  have hx : (bitsAt bits pos).length = code.n := (length_bitsAt bits pos).trans hlen
  refine ⟨blockDecode_of_codeword, fun hs y hy hcode hle => ?corrected, fun hs hfar => ?failed⟩
  case corrected =>
    have hxy : (bitsAt bits pos).length = y.length := hx.trans hy.symm
    have hl : (diffBits (bitsAt bits pos) y).length = code.n := (length_diffBits hxy).trans hy
    have hsyn : code.syndrome (diffBits (bitsAt bits pos) y) = code.syndrome (bitsAt bits pos) := by
      rw [syndrome_diffBits code hxy, hcode, Nat.xor_zero]
    have hpos : 1 ≤ hamming (bitsAt bits pos) y := Nat.one_le_iff_ne_zero.2 fun h0 =>
      hs (eq_of_hamming_eq_zero hxy h0 ▸ hcode)
    rw [hamming_eq_count] at hpos hle ⊢
    have hone := hsyn ▸ blockErrors_syndrome hvalid hl hpos hle
    have hsub := selected_sublist pos (diffBits (bitsAt bits pos) y)
    rw [blockDecode_of_blockErrors hs hlen hl hone]
    refine ⟨rfl, rfl, rfl, ?_, length_flipBits _ _, fun q hq =>
      bitAt_flipBits_of_notMem (hsub.nodup hnd) (fun hmem => hq (hsub.mem hmem)) bits⟩
    rw [bitsAt_flipBits_selected hnd hin (hl.trans hlen.symm), diffBits_diffBits hxy]
  case failed =>
    obtain ⟨hn, -⟩ := valid_cols hvalid
    refine blockDecode_of_blockErrors_nil hs (List.eq_nil_iff_forall_not_mem.2 fun e he => ?_)
    obtain ⟨v, hl, -, -, hle, hsyn⟩ := (mem_blockErrors hn).1 he
    have hxv : (bitsAt bits pos).length = v.length := hx.trans hl.symm
    have hnear := hfar (diffBits (bitsAt bits pos) v) ((length_diffBits hxv).trans hl)
      (by rw [syndrome_diffBits code hxv, hsyn, Nat.xor_self])
    rw [hamming_eq_count, diffBits_diffBits hxv] at hnear
    exact absurd hle (Nat.not_le.2 hnear)

end Sys2Proof.Machine

/-! Reed-Solomon codes (42_error_correction.md R321 to R323). The decoder's error patterns are spoken of by the
codewords they lead to: `errorPattern y z` is the list of the symbols in which `z` differs from `y`. -/

namespace Sys2Proof.Machine

/-! ### Symbols and their bits -/

theorem hamming_msbBits (m a b : Nat) : hamming (msbBits m a) (msbBits m b) = popcount m (a ^^^ b) := by
  induction m with
  | zero => rfl
  | succ m ih =>
    have hlast : popcount (m + 1) (a ^^^ b) = popcount m (a ^^^ b) + if a.testBit m = b.testBit m then 0 else 1 := by
      rw [popcount, List.range_succ, List.countP_append, popcount]
      cases ha : a.testBit m <;> cases hb : b.testBit m <;> simp [ha, hb]
    rw [msbBits_succ, msbBits_succ, hamming_cons, ih, hlast]

@[simp] theorem popcount_zero (m : Nat) : popcount m 0 = 0 := by simp [popcount]

theorem groups_map {α β : Type} (f : α → β) (k count : Nat) (l : List α) :
    groups k count (l.map f) = (groups k count l).map (List.map f) := by
  induction count generalizing l with
  | zero => rfl
  | succ count ih => simp only [groups, List.map_cons, ← List.map_take, ← List.map_drop, ih]

theorem length_groups {α : Type} (k count : Nat) (l : List α) : (groups k count l).length = count := by
  induction count generalizing l with
  | zero => rfl
  | succ count ih => exact congrArg _ (ih _)

theorem length_of_mem_groups {α : Type} {k count : Nat} {l g : List α} (hl : l.length = count * k)
    (hg : g ∈ groups k count l) : g.length = k := by
  induction count generalizing l with
  | zero => simp [groups] at hg
  | succ count ih =>
    rw [Nat.succ_mul] at hl
    obtain rfl | hg := List.mem_cons.1 hg
    · rw [List.length_take]
      omega
    · exact ih (by rw [List.length_drop]; omega) hg

theorem flatten_groups {α : Type} {k count : Nat} {l : List α} (hl : l.length = count * k) :
    (groups k count l).flatten = l := by
  induction count generalizing l with
  | zero => exact (List.length_eq_zero_iff.1 (by simpa using hl)).symm
  | succ count ih =>
    rw [Nat.succ_mul] at hl
    rw [groups, List.flatten_cons, ih (by rw [List.length_drop]; omega), List.take_append_drop]

theorem groups_flatMap {α β : Type} {k : Nat} {f : α → List β} (hf : ∀ a, (f a).length = k) (l : List α) :
    groups k l.length (l.flatMap f) = l.map f := by
  induction l with
  | nil => rfl
  | cons a l ih =>
    rw [List.length_cons, groups, List.flatMap_cons, List.take_left' (hf a), List.drop_left' (hf a), ih, List.map_cons]

/-- R321: the symbols are the values of the groups of the bits read. -/
theorem rsSymbols_eq (m n : Nat) (pos : List Nat) (bits : List Bool) :
    rsSymbols m n pos bits = (groups m n (bitsAt bits pos)).map msbValue := by
  rw [bitsAt, groups_map, List.map_map]
  rfl

@[simp] theorem length_rsSymbols (m n : Nat) (pos : List Nat) (bits : List Bool) :
    (rsSymbols m n pos bits).length = n := by
  rw [rsSymbols_eq, List.length_map, length_groups]

section Symbols
variable {m n : Nat} {pos : List Nat} (hlen : pos.length = n * m)
include hlen

theorem rsSymbols_lt (bits : List Bool) : ∀ v ∈ rsSymbols m n pos bits, v < 2 ^ m := by
  rw [rsSymbols_eq]
  intro v hv
  obtain ⟨g, hg, rfl⟩ := List.mem_map.1 hv
  have hglen : g.length = m := length_of_mem_groups ((length_bitsAt bits pos).trans hlen) hg
  exact hglen ▸ msbValue_lt g

/-- The symbols written out most significant bit first are the bits they were read from. -/
theorem flatMap_rsSymbols (bits : List Bool) : (rsSymbols m n pos bits).flatMap (msbBits m) = bitsAt bits pos := by
  have hbits : (bitsAt bits pos).length = n * m := (length_bitsAt bits pos).trans hlen
  have hgroup : ∀ g ∈ groups m n (bitsAt bits pos), msbBits m (msbValue g) = g := fun g hg => by
    rw [← length_of_mem_groups hbits hg, msbBits_msbValue]
  calc (rsSymbols m n pos bits).flatMap (msbBits m)
      = ((groups m n (bitsAt bits pos)).map fun g => msbBits m (msbValue g)).flatten := by
        rw [rsSymbols_eq, List.flatMap_map]; rfl
    _ = bitsAt bits pos := by rw [List.map_congr_left hgroup, List.map_id', flatten_groups hbits]

theorem length_flatMap_msbBits {z : List Nat} (hz : z.length = n) : (z.flatMap (msbBits m)).length = pos.length := by
  simp [List.length_flatMap, hz, hlen]

/-- The symbols written at a check's positions are the symbols read there. -/
theorem rsSymbols_writeBits (hnd : pos.Nodup) {bits : List Bool} (hin : ∀ p ∈ pos, p < bits.length) {z : List Nat}
    (hz : z.length = n) (hlt : ∀ v ∈ z, v < 2 ^ m) :
    rsSymbols m n pos (writeBits bits pos (z.flatMap (msbBits m))) = z := by
  have hvalue : ∀ v ∈ z, msbValue (msbBits m v) = v := fun v hv => by
    rw [msbValue_msbBits, Nat.mod_eq_of_lt (hlt v hv)]
  rw [rsSymbols_eq, bitsAt_writeBits hnd hin (length_flatMap_msbBits hlen hz), ← hz, groups_flatMap (length_msbBits m),
    List.map_map]
  exact (List.map_congr_left hvalue).trans (List.map_id' z)

end Symbols

/-! ### Differences of words of symbols -/

/-- `y ⊕ z` on words of symbols. -/
def diffSymbols (y z : List Nat) : List Nat := List.zipWith (· ^^^ ·) y z

@[simp] theorem diffSymbols_cons (a b : Nat) (y z : List Nat) :
    diffSymbols (a :: y) (b :: z) = (a ^^^ b) :: diffSymbols y z := rfl

theorem length_diffSymbols {y z : List Nat} (h : y.length = z.length) : (diffSymbols y z).length = z.length := by
  simp [diffSymbols, h]

theorem diffSymbols_diffSymbols {y z : List Nat} (h : y.length = z.length) : diffSymbols y (diffSymbols y z) = z := by
  induction y generalizing z with
  | nil => exact (List.length_eq_zero_iff.1 h.symm).symm
  | cons a y ih =>
    obtain _ | ⟨b, z⟩ := z
    · simp at h
    · simp [ih (Nat.succ.inj h)]

theorem diffSymbols_lt {k : Nat} {y z : List Nat} (hy : ∀ v ∈ y, v < 2 ^ k) (hz : ∀ v ∈ z, v < 2 ^ k) :
    ∀ v ∈ diffSymbols y z, v < 2 ^ k := by
  intro v hv
  rw [diffSymbols, ← List.map_uncurry_zip_eq_zipWith] at hv
  obtain ⟨⟨a, b⟩, hab, rfl⟩ := List.mem_map.1 hv
  exact Nat.xor_lt_two_pow (hy a (List.of_mem_zip hab).1) (hz b (List.of_mem_zip hab).2)

/-- Two words are as far apart as their difference has symbols other than 0. -/
theorem symbolDistance_eq_countP (y z : List Nat) : symbolDistance y z = (diffSymbols y z).countP (· != 0) := by
  induction y generalizing z with
  | nil => rfl
  | cons a y ih =>
    cases z with
    | nil => rfl
    | cons b z =>
      have htail : (y.zip z).countP (fun yz => yz.1 != yz.2) = (diffSymbols y z).countP (· != 0) := ih z
      have hbit : (a != b) = (a ^^^ b != 0) := by
        rw [Bool.eq_iff_iff, bne_iff_ne, bne_iff_ne, Ne, Ne, Nat.xor_eq_zero_iff]
      rw [symbolDistance, List.zip_cons_cons, List.countP_cons, htail, diffSymbols_cons, List.countP_cons, hbit]

theorem eq_of_symbolDistance_eq_zero {y z : List Nat} (hl : y.length = z.length) (h : symbolDistance y z = 0) :
    y = z := by
  rw [symbolDistance_eq_countP, List.countP_eq_zero] at h
  refine List.ext_getElem hl fun i hi hi' => ?_
  have hmem : y[i] ^^^ z[i] ∈ diffSymbols y z :=
    List.mem_iff_getElem.2 ⟨i, by simp [diffSymbols, hi, hi'], by simp [diffSymbols]⟩
  simpa [Nat.xor_eq_zero_iff] using h _ hmem

/-! ### Error patterns -/

/-- The elements of a list where a word of symbols is not 0, each with its symbol. -/
def symbolPattern {α : Type} (l : List α) (u : List Nat) : List (α × Nat) := (l.zip u).filter fun jv => jv.2 != 0

theorem symbolPattern_cons {α : Type} (a : α) (l : List α) (v : Nat) (u : List Nat) :
    symbolPattern (a :: l) (v :: u) = if v = 0 then symbolPattern l u else (a, v) :: symbolPattern l u := by
  by_cases h : v = 0 <;> simp [symbolPattern, h]

theorem symbolPattern_map {α β : Type} (f : α → β) (l : List α) (u : List Nat) :
    symbolPattern (l.map f) u = (symbolPattern l u).map (Prod.map f id) := by
  rw [symbolPattern, List.zip_map_left, List.filter_map]
  rfl

theorem symbolPattern_fst_sublist {α : Type} {l : List α} {u : List Nat} (h : u.length = l.length) :
    ((symbolPattern l u).map (·.1)).Sublist l := by
  have hsub : ((symbolPattern l u).map (·.1)).Sublist ((l.zip u).map (·.1)) := List.filter_sublist.map _
  rwa [List.map_fst_zip h.ge] at hsub

theorem length_symbolPattern {α : Type} {l : List α} {u : List Nat} (h : u.length = l.length) :
    (symbolPattern l u).length = u.countP (· != 0) := by
  calc (symbolPattern l u).length = ((l.zip u).map (·.2)).countP (· != 0) := by
        rw [List.countP_map, List.countP_eq_length_filter]; rfl
    _ = u.countP (· != 0) := by rw [List.map_snd_zip h.le]

theorem symbolPattern_symbols {α : Type} {l : List α} {u : List Nat} {size : Nat} (hu : ∀ v ∈ u, v < size) :
    ∀ jv ∈ symbolPattern l u, 1 ≤ jv.2 ∧ jv.2 < size := by
  intro jv h
  obtain ⟨hmem, hne⟩ := List.mem_filter.1 h
  exact ⟨Nat.one_le_iff_ne_zero.2 (bne_iff_ne.1 hne), hu _ (List.of_mem_zip hmem).2⟩

/-- Nonzero symbols at a sublist of the positions are a word of symbols. -/
theorem exists_symbolPattern {α : Type} {size : Nat} (hsize : 0 < size) {l js : List α} (h : js.Sublist l)
    {e : List (α × Nat)} (hjs : e.map (·.1) = js) (he : ∀ jv ∈ e, 1 ≤ jv.2 ∧ jv.2 < size) :
    ∃ u, u.length = l.length ∧ (∀ v ∈ u, v < size) ∧ e = symbolPattern l u := by
  induction h generalizing e with
  | slnil => exact ⟨[], rfl, by simp, List.map_eq_nil_iff.1 hjs⟩
  | cons a _ ih =>
    obtain ⟨u, hlen, hlt, rfl⟩ := ih hjs he
    exact ⟨0 :: u, congrArg _ hlen, List.forall_mem_cons.2 ⟨hsize, hlt⟩, rfl⟩
  | cons_cons a _ ih =>
    obtain ⟨⟨j, v⟩, e, rfl, rfl, htail⟩ := List.map_eq_cons_iff.1 hjs
    obtain ⟨⟨hpos, hv⟩, he⟩ := List.forall_mem_cons.1 he
    obtain ⟨u, hlen, hlt, rfl⟩ := ih htail he
    refine ⟨v :: u, congrArg _ hlen, List.forall_mem_cons.2 ⟨hv, hlt⟩, ?_⟩
    rw [symbolPattern_cons, if_neg (Nat.one_le_iff_ne_zero.1 hpos)]

/-- `symbolErrors` gives each position every nonzero symbol. -/
theorem mem_symbolErrors {size : Nat} {js : List Nat} {e : List (Nat × Nat)} :
    e ∈ symbolErrors size js ↔ e.map (·.1) = js ∧ ∀ jv ∈ e, 1 ≤ jv.2 ∧ jv.2 < size := by
  induction js generalizing e with
  | nil =>
    simp only [symbolErrors, List.mem_singleton, List.map_eq_nil_iff]
    constructor
    · rintro rfl
      simp
    · exact And.left
  | cons j js ih =>
    simp only [symbolErrors, List.mem_flatMap, List.mem_map, List.mem_range'_1]
    constructor
    · rintro ⟨v, hv, e, he, rfl⟩
      obtain ⟨hjs, he⟩ := ih.1 he
      exact ⟨congrArg _ hjs, List.forall_mem_cons.2 ⟨⟨hv.1, show v < size by omega⟩, he⟩⟩
    · rintro ⟨hjs, he⟩
      obtain ⟨⟨j', v⟩, e, rfl, rfl, htail⟩ := List.map_eq_cons_iff.1 hjs
      obtain ⟨⟨hpos, hv⟩, he⟩ := List.forall_mem_cons.1 he
      dsimp only at hpos hv
      exact ⟨v, by omega, e, ih.2 ⟨htail, he⟩, rfl⟩

theorem nodup_symbolErrors (size : Nat) (js : List Nat) : (symbolErrors size js).Nodup := by
  induction js with
  | nil => exact List.nodup_singleton _
  | cons j js ih =>
    refine nodup_flatMap_of_origin (fun e => (e.head?.map (·.2)).getD 0) (List.nodup_range' ..)
      (fun v _ => ih.map (List.cons_injective)) fun v _ e he => ?_
    obtain ⟨e', -, rfl⟩ := List.mem_map.1 he
    rfl

/-- The symbols in which `z` differs from `y`, as the decoder lists them. -/
def errorPattern (y z : List Nat) : List (Nat × Nat) := symbolPattern (List.range y.length) (diffSymbols y z)

theorem errorPattern_cons (a b : Nat) (y z : List Nat) :
    errorPattern (a :: y) (b :: z) =
      if a ^^^ b = 0 then (errorPattern y z).map (Prod.map Nat.succ id)
      else (0, a ^^^ b) :: (errorPattern y z).map (Prod.map Nat.succ id) := by
  rw [errorPattern, List.length_cons, List.range_succ_eq_map, diffSymbols_cons, symbolPattern_cons, symbolPattern_map]
  rfl

theorem addErrors_map_succ (a : Nat) (y : List Nat) (e : List (Nat × Nat)) :
    addErrors (a :: y) (e.map (Prod.map Nat.succ id)) = a :: addErrors y e := by
  induction e generalizing y with
  | nil => rfl
  | cons jv e ih => exact ih _

/-- R323: `y ⊕ e` for the pattern of `z` is `z`. -/
theorem addErrors_errorPattern {y z : List Nat} (h : y.length = z.length) : addErrors y (errorPattern y z) = z := by
  induction y generalizing z with
  | nil => exact (List.length_eq_zero_iff.1 h.symm).symm
  | cons a y ih =>
    obtain _ | ⟨b, z⟩ := z
    · simp at h
    · have htail := ih (Nat.succ.inj h)
      rw [errorPattern_cons]
      split
      case isTrue hab => rw [addErrors_map_succ, htail, Nat.xor_eq_zero_iff.1 hab]
      case isFalse hab =>
        have hhead : addErrors (a :: y) ((0, a ^^^ b) :: (errorPattern y z).map (Prod.map Nat.succ id)) =
            addErrors ((a ^^^ (a ^^^ b)) :: y) ((errorPattern y z).map (Prod.map Nat.succ id)) := rfl
        rw [hhead, addErrors_map_succ, htail, Nat.xor_xor_cancel_left]

/-- The bits of a pattern's symbols are the bits in which the two words differ. -/
theorem sum_popcount_symbolPattern {α : Type} (m : Nat) {l : List α} {u : List Nat} (h : u.length = l.length) :
    ((symbolPattern l u).map fun jv => popcount m jv.2).sum = (u.map (popcount m)).sum := by
  induction l generalizing u with
  | nil => rw [List.length_eq_zero_iff.1 h]; rfl
  | cons a l ih =>
    obtain _ | ⟨v, u⟩ := u
    · simp at h
    · have htail := ih (Nat.succ.inj h)
      rw [symbolPattern_cons]
      split
      case isTrue hv => simp [htail, hv]
      case isFalse hv => simp [htail]

theorem sum_popcount_errorPattern (m : Nat) {y z : List Nat} (h : y.length = z.length) :
    ((errorPattern y z).map fun jv => popcount m jv.2).sum =
      hamming (y.flatMap (msbBits m)) (z.flatMap (msbBits m)) := by
  rw [errorPattern, sum_popcount_symbolPattern m (by rw [length_diffSymbols h, List.length_range, h]),
    hamming_flatMap (length_msbBits m) h, diffSymbols, ← List.map_uncurry_zip_eq_zipWith, List.map_map]
  exact congrArg List.sum (List.map_congr_left fun p _ => (hamming_msbBits m p.1 p.2).symm)

/-! ### Codewords within the correction distance -/

/-- R322, R323: a codeword within t symbols of the word. -/
structure NearCodeword (m prim n k fcr : Nat) (y z : List Nat) : Prop where
  length : z.length = n
  lt : ∀ v ∈ z, v < 2 ^ m
  codeword : rsCodeword m prim n k fcr z = true
  near : symbolDistance y z ≤ (n - k) / 2

theorem NearCodeword.one_le {m prim n k fcr : Nat} {y z : List Nat} (h : NearCodeword m prim n k fcr y z)
    (hy : y.length = n) (hno : rsCodeword m prim n k fcr y = false) : 1 ≤ symbolDistance y z := by
  refine Nat.one_le_iff_ne_zero.2 fun h0 => ?_
  rw [eq_of_symbolDistance_eq_zero (hy.trans h.length.symm) h0, h.codeword] at hno
  exact Bool.noConfusion hno

theorem nodup_rsErrors (m prim n k fcr : Nat) (y : List Nat) : (rsErrors m prim n k fcr y).Nodup :=
  (nodup_flatMap_of_origin (fun e => e.map (·.1)) (nodup_chooseUpTo _ List.nodup_range)
    (fun js _ => nodup_symbolErrors _ js) fun _ _ _ he => (mem_symbolErrors.1 he).1).filter _

/-- `E` of R323: the error patterns are those of the codewords within t symbols. -/
theorem mem_rsErrors {m prim n k fcr : Nat} {y : List Nat} (hy : y.length = n) (hlt : ∀ v ∈ y, v < 2 ^ m)
    (hno : rsCodeword m prim n k fcr y = false) {e : List (Nat × Nat)} :
    e ∈ rsErrors m prim n k fcr y ↔ ∃ z, NearCodeword m prim n k fcr y z ∧ e = errorPattern y z := by
  have hrange : (List.range n).length = n := List.length_range
  simp only [rsErrors, List.mem_filter, List.mem_flatMap, mem_chooseUpTo, mem_symbolErrors, rsDistance]
  constructor
  · rintro ⟨⟨js, ⟨hsub, -, hle⟩, hjs, he⟩, hcode⟩
    obtain ⟨u, hu, hult, rfl⟩ := exists_symbolPattern (Nat.two_pow_pos m) hsub hjs he
    have hyu : y.length = u.length := by rw [hu, hrange, hy]
    have hpat : symbolPattern (List.range n) u = errorPattern y (diffSymbols y u) := by
      rw [errorPattern, diffSymbols_diffSymbols hyu, hy]
    have hz : (diffSymbols y u).length = n := by rw [length_diffSymbols hyu, hu, hrange]
    rw [hpat, addErrors_errorPattern (hy.trans hz.symm)] at hcode
    refine ⟨diffSymbols y u, ⟨hz, diffSymbols_lt hlt hult, hcode, ?_⟩, hpat⟩
    rwa [symbolDistance_eq_countP, diffSymbols_diffSymbols hyu, ← length_symbolPattern hu, ← List.length_map, hjs]
  · rintro ⟨z, hz, rfl⟩
    have hyz : y.length = z.length := hy.trans hz.length.symm
    have hdiff : (diffSymbols y z).length = (List.range n).length := by rw [length_diffSymbols hyz, hz.length, hrange]
    have hcard : ((errorPattern y z).map (·.1)).length = symbolDistance y z := by
      rw [List.length_map, errorPattern, hy, length_symbolPattern hdiff, symbolDistance_eq_countP]
    refine ⟨⟨(errorPattern y z).map (·.1), ⟨?_, ?_, ?_⟩, rfl, ?_⟩, ?_⟩
    · rw [errorPattern, hy]
      exact symbolPattern_fst_sublist hdiff
    · rw [hcard]
      exact hz.one_le hy hno
    · rw [hcard]
      exact hz.near
    · exact symbolPattern_symbols (diffSymbols_lt hlt hz.lt)
    · rw [addErrors_errorPattern hyz, hz.codeword]

/-- `E` has one element exactly when one codeword lies within t symbols. -/
theorem rsErrors_eq_singleton_iff {m prim n k fcr : Nat} {y : List Nat} (hy : y.length = n)
    (hlt : ∀ v ∈ y, v < 2 ^ m) (hno : rsCodeword m prim n k fcr y = false) {e : List (Nat × Nat)} :
    rsErrors m prim n k fcr y = [e] ↔ ∃ z, e = errorPattern y z ∧ NearCodeword m prim n k fcr y z ∧
      ∀ z', NearCodeword m prim n k fcr y z' → z' = z := by
  have hmem {e : List (Nat × Nat)} := mem_rsErrors (k := k) (fcr := fcr) hy hlt hno (e := e)
  constructor
  · intro he
    obtain ⟨z, hz, rfl⟩ := hmem.1 (he ▸ List.mem_singleton_self e)
    refine ⟨z, rfl, hz, fun z' hz' => ?_⟩
    have hpat : errorPattern y z' = errorPattern y z := List.mem_singleton.1 (he ▸ hmem.2 ⟨z', hz', rfl⟩)
    rw [← addErrors_errorPattern (hy.trans hz'.length.symm), hpat, addErrors_errorPattern (hy.trans hz.length.symm)]
  · rintro ⟨z, rfl, hz, honly⟩
    refine eq_singleton_of_nodup (nodup_rsErrors ..) fun e => hmem.trans ⟨?_, ?_⟩
    · rintro ⟨z', hz', rfl⟩
      rw [honly z' hz']
    · rintro rfl
      exact ⟨z, hz, rfl⟩

/-! ### The decoder -/

theorem rsValid_of_vCheck {par : Params} {m prim n k fcr : Nat} {pos : List Nat}
    (h : vCheck par (.rs m prim n k fcr pos) = true) : pos.Nodup ∧ pos.length = n * m := by
  simp only [vCheck, Check.posLists, distinct, Bool.and_eq_true, List.all_cons, decide_eq_true_eq, beq_iff_eq] at h
  obtain ⟨⟨-, hnd, -⟩, -, hlen⟩ := h
  exact ⟨hnd, hlen⟩

/-- R323: a codeword passes; a word with one codeword within t symbols becomes that codeword, and the count is the
number of bits that change; any other word fails. -/
theorem rsDecode_cases {m n : Nat} {pos : List Nat} (hnd : pos.Nodup) (hlen : pos.length = n * m) {bits : List Bool}
    (hin : ∀ p ∈ pos, p < bits.length) (prim k fcr : Nat) :
    (rsCodeword m prim n k fcr (rsSymbols m n pos bits) = true ∧
      rsDecode m prim n k fcr pos bits = ⟨.passed, 0, 0, bits⟩) ∨
    (rsCodeword m prim n k fcr (rsSymbols m n pos bits) = false ∧
      ∃ z out, NearCodeword m prim n k fcr (rsSymbols m n pos bits) z ∧
        (∀ z', NearCodeword m prim n k fcr (rsSymbols m n pos bits) z' → z' = z) ∧
        out = writeBits bits pos (z.flatMap (msbBits m)) ∧ rsSymbols m n pos out = z ∧
        rsDecode m prim n k fcr pos bits = ⟨.corrected, hamming bits out, 0, out⟩) ∨
    (rsCodeword m prim n k fcr (rsSymbols m n pos bits) = false ∧
      rsDecode m prim n k fcr pos bits = ⟨.failed, 0, 0, bits⟩ ∧
      ¬ ∃ z, NearCodeword m prim n k fcr (rsSymbols m n pos bits) z ∧
        ∀ z', NearCodeword m prim n k fcr (rsSymbols m n pos bits) z' → z' = z) := by
  set y := rsSymbols m n pos bits with hy
  have hylen : y.length = n := length_rsSymbols m n pos bits
  have hlt : ∀ v ∈ y, v < 2 ^ m := rsSymbols_lt hlen bits
  cases hcode : rsCodeword m prim n k fcr y with
  | true => exact .inl ⟨rfl, if_pos hcode⟩
  | false =>
    have hiff {e : List (Nat × Nat)} := rsErrors_eq_singleton_iff (k := k) (fcr := fcr) hylen hlt hcode (e := e)
    refine .inr ?_
    rw [rsDecode, ← hy, hcode]
    rw [if_neg Bool.false_ne_true]
    split
    case h_1 e he =>
      obtain ⟨z, rfl, hz, honly⟩ := hiff.1 he
      have hyz : y.length = z.length := hylen.trans hz.length.symm
      refine .inl ⟨rfl, z, _, hz, honly, rfl, rsSymbols_writeBits hlen hnd hin hz.length hz.lt, ?_⟩
      rw [outcomeCorrected, addErrors_errorPattern hyz, sum_popcount_errorPattern m hyz, hy, flatMap_rsSymbols hlen,
        hamming_writeBits hnd hin (length_flatMap_msbBits hlen hz.length)]
    case h_2 hne =>
      refine .inr ⟨rfl, rfl, ?_⟩
      rintro ⟨z, hz, honly⟩
      exact hne _ (hiff.2 ⟨z, rfl, hz, honly⟩)

/-- Settles O40: each clause is one of the cases of R323. -/
theorem rsDecodingIsBoundedDistance : Obligations.RsDecodingIsBoundedDistance := by
  rintro par m prim n k fcr pos bits y o hv hin rfl rfl
  obtain ⟨hnd, hlen⟩ := rsValid_of_vCheck hv
  obtain ⟨hcode, hdec⟩ | ⟨hcode, z, out, hz, honly, -, hread, hdec⟩ | ⟨hcode, hdec, hnone⟩ :=
    rsDecode_cases hnd hlen hin prim k fcr <;> rw [hdec]
  · exact ⟨fun _ => rfl, fun hno => absurd hcode (by simp [hno])⟩
  · refine ⟨fun hyes => absurd hyes (by simp [hcode]), fun _ => ⟨?_, fun hne => absurd rfl hne⟩⟩
    rintro z' rfl -
    rw [hread]
    exact ⟨hz.codeword, hz.near, hz.one_le (length_rsSymbols m n pos bits) hcode, rfl, rfl,
      fun z' hl hlt hc hd => honly z' ⟨hl, hlt, hc, hd⟩⟩
  · refine ⟨fun hyes => absurd hyes (by simp [hcode]), fun _ => ⟨fun _ _ h => (by cases h), fun _ => ⟨rfl, ?_⟩⟩⟩
    rintro ⟨z, ⟨hl, hlt, hc, hd⟩, honly⟩
    exact hnone ⟨z, ⟨hl, hlt, hc, hd⟩, fun z' hz' => honly z' hz'.length hz'.lt hz'.codeword hz'.near⟩

end Sys2Proof.Machine

/-! The trellis decoder (42_error_correction.md R330 to R338): the Viterbi recursion against the legal sequences, and
the sequences its ties can lead to. -/

namespace Sys2Proof.Machine

/-! ### Dibits and their bits -/

theorem mem_allDibits (e : Dibit) : e ∈ allDibits := by
  revert e
  decide

/-- A list with one entry per dibit, read at a dibit's number. -/
theorem getD_map_allDibits (f : Dibit → Option Nat) (p : Dibit) : (allDibits.map f).getD p.toNat none = f p := by
  have hp : p = 0 ∨ p = 1 ∨ p = 2 ∨ p = 3 := by simpa [allDibits] using mem_allDibits p
  obtain rfl | rfl | rfl | rfl := hp <;> rfl

@[simp] theorem length_dibitBits (d : Dibit) : (dibitBits d).length = 2 := rfl

theorem dibitBits_dibitOf (hi lo : Bool) : dibitBits (dibitOf hi lo) = [hi, lo] := by
  cases hi <;> cases lo <;> rfl

theorem ite_eq_toNat_xor (x y : Bool) : (if x = y then 0 else 1) = (x ^^ y).toNat := by
  cases x <;> cases y <;> rfl

theorem hamming_dibitBits (a b : Dibit) : hamming (dibitBits a) (dibitBits b) = dibitWeight (a ^^^ b) := by
  rw [dibitBits, dibitBits, hamming_cons, hamming_cons, hamming_nil, ite_eq_toNat_xor, ite_eq_toNat_xor, Nat.zero_add,
    dibitWeight, BitVec.getLsbD_xor, BitVec.getLsbD_xor, Nat.add_comm]

theorem length_flatMap_dibitBits (e : List Dibit) : (e.flatMap dibitBits).length = 2 * e.length := by
  simp [List.length_flatMap, Nat.mul_comm]

/-- R334: the received dibits written out again are the bits they were read from. -/
theorem flatMap_dibitsOf : ∀ {l : List Bool}, l.length % 2 = 0 → (dibitsOf l).flatMap dibitBits = l
  | [], _ => rfl
  | [_], h => by simp at h
  | hi :: lo :: rest, h => by
    have htail : (dibitsOf rest).flatMap dibitBits = rest := flatMap_dibitsOf (by simpa [Nat.add_assoc] using h)
    rw [dibitsOf, List.flatMap_cons, dibitBits_dibitOf, htail]
    rfl

/-! ### Legal sequences -/

theorem mem_successors {legal : Dibit → Dibit → Bool} {prev : Option Dibit} {e : Dibit} :
    e ∈ successors legal prev ↔ ∀ p, prev = some p → legal p e = true := by
  cases prev <;> simp [successors, mem_allDibits]

theorem legalPath_cons {legal : Dibit → Dibit → Bool} {prev : Option Dibit} {e : Dibit} {es : List Dibit} :
    LegalPath legal prev (e :: es) ↔ e ∈ successors legal prev ∧ LegalPath legal (some e) es := by
  rw [LegalPath, mem_successors]

@[simp] theorem pathCost_cons (d e : Dibit) (ds es : List Dibit) :
    pathCost (d :: ds) (e :: es) = dibitWeight (d ^^^ e) + pathCost ds es := rfl

/-- R335: a sequence's cost is the number of bits in which it differs from the received ones. -/
theorem pathCost_eq_hamming {d e : List Dibit} (h : d.length = e.length) :
    pathCost d e = hamming (d.flatMap dibitBits) (e.flatMap dibitBits) := by
  rw [hamming_flatMap length_dibitBits h, pathCost]
  exact congrArg List.sum (List.map_congr_left fun p _ => (hamming_dibitBits p.1 p.2).symm)

/-- A legal sequence for the received dibits `d`. -/
structure LegalFor (legal : Dibit → Dibit → Bool) (prev : Option Dibit) (d e : List Dibit) : Prop where
  length : e.length = d.length
  path : LegalPath legal prev e

theorem legalFor_nil {legal : Dibit → Dibit → Bool} {prev : Option Dibit} {e : List Dibit} :
    LegalFor legal prev [] e ↔ e = [] := by
  refine ⟨fun h => List.length_eq_zero_iff.1 h.length, ?_⟩
  rintro rfl
  exact ⟨rfl, trivial⟩

theorem legalFor_cons {legal : Dibit → Dibit → Bool} {prev : Option Dibit} {d : Dibit} {ds e : List Dibit} :
    LegalFor legal prev (d :: ds) e ↔
      ∃ a es, e = a :: es ∧ a ∈ successors legal prev ∧ LegalFor legal (some a) ds es := by
  constructor
  · rintro ⟨hlen, hpath⟩
    obtain _ | ⟨a, es⟩ := e
    · simp at hlen
    · obtain ⟨ha, hes⟩ := legalPath_cons.1 hpath
      exact ⟨a, es, rfl, ha, Nat.succ.inj hlen, hes⟩
  · rintro ⟨a, es, rfl, ha, hlen, hes⟩
    exact ⟨congrArg Nat.succ hlen, legalPath_cons.2 ⟨ha, hes⟩⟩

/-! ### The Viterbi recursion -/

theorem minOf_eq_min? (l : List Nat) : minOf l = l.min? := by
  cases l <;> rfl

/-- The table's entry of a preceding dibit is the minimum cost after it. -/
theorem costTable_getD (legal : Dibit → Dibit → Bool) (ds : List Dibit) (p : Dibit) :
    (costTable legal ds).getD p.toNat none = minCost legal (some p) ds := by
  cases ds with
  | nil => exact getD_map_allDibits (fun _ => some 0) p
  | cons d ds => exact getD_map_allDibits (fun p => minCost legal (some p) (d :: ds)) p

theorem costVia_eq (legal : Dibit → Dibit → Bool) (d : Dibit) (ds : List Dibit) (a : Dibit) :
    costVia legal d ds a = (minCost legal (some a) ds).map (dibitWeight (d ^^^ a) + ·) := by
  rw [costVia, costTable_getD]

section Viterbi
variable {legal : Dibit → Dibit → Bool} {prev : Option Dibit} {d : Dibit} {ds : List Dibit}

/-- A minimum cost is the least over the first dibits. -/
theorem minCost_cons_eq_some_iff {c : Nat} :
    minCost legal prev (d :: ds) = some c ↔ (∃ a ∈ successors legal prev, costVia legal d ds a = some c) ∧
      ∀ a ∈ successors legal prev, ∀ c', costVia legal d ds a = some c' → c ≤ c' := by
  rw [minCost, minOf_eq_min?, List.min?_eq_some_iff, List.mem_filterMap]
  refine and_congr_right fun _ => ⟨fun h a ha c' hc' => h c' (List.mem_filterMap.2 ⟨a, ha, hc'⟩), fun h c' hc' => ?_⟩
  obtain ⟨a, ha, hvia⟩ := List.mem_filterMap.1 hc'
  exact h a ha c' hvia

/-- Where one first dibit has a cost there is a minimum cost, and it is no greater. -/
theorem exists_minCost_cons_le {a : Dibit} (ha : a ∈ successors legal prev) {c : Nat}
    (hc : costVia legal d ds a = some c) : ∃ m, minCost legal prev (d :: ds) = some m ∧ m ≤ c := by
  have hmem : c ∈ (successors legal prev).filterMap (costVia legal d ds) := List.mem_filterMap.2 ⟨a, ha, hc⟩
  cases hm : minCost legal prev (d :: ds) with
  | none =>
    rw [minCost, minOf_eq_min?, List.min?_eq_none_iff] at hm
    simp [hm] at hmem
  | some m => exact ⟨m, rfl, (minCost_cons_eq_some_iff.1 hm).2 a ha c hc⟩

end Viterbi

/-- R335: no legal sequence costs less than the minimum cost. -/
theorem exists_minCost_le {legal : Dibit → Dibit → Bool} {prev : Option Dibit} {d e : List Dibit}
    (h : LegalFor legal prev d e) : ∃ c, minCost legal prev d = some c ∧ c ≤ pathCost d e := by
  induction d generalizing prev e with
  | nil => exact ⟨0, rfl, Nat.zero_le _⟩
  | cons d ds ih =>
    obtain ⟨a, es, rfl, ha, hes⟩ := legalFor_cons.1 h
    obtain ⟨c, hc, hle⟩ := ih hes
    have hvia : costVia legal d ds a = some (dibitWeight (d ^^^ a) + c) := by rw [costVia_eq, hc, Option.map_some]
    obtain ⟨m, hm, hmle⟩ := exists_minCost_cons_le ha hvia
    exact ⟨m, hm, hmle.trans (Nat.add_le_add_left hle _)⟩

/-! ### The sequences the ties lead to -/

theorem mem_of_pickTie {tie : Nat} {es : List Dibit} {e : Dibit} (h : pickTie tie es = some e) : e ∈ es := by
  unfold pickTie at h
  split at h
  case h_1 => simp at h
  case h_2 a => simpa using h.symm
  case h_3 => exact List.mem_of_getElem? h

theorem pickTie_isSome (tie : Nat) {es : List Dibit} (h : es ≠ []) : ∃ e, pickTie tie es = some e := by
  unfold pickTie
  split
  case h_1 => exact absurd rfl h
  case h_2 a => exact ⟨a, rfl⟩
  case h_3 => exact ⟨_, List.getElem?_eq_getElem (Nat.mod_lt _ (List.length_pos_iff.2 h))⟩

/-- Every candidate is some tie's choice. -/
theorem exists_pickTie {es : List Dibit} {e : Dibit} (h : e ∈ es) : ∃ tie, pickTie tie es = some e := by
  obtain ⟨k, hk, rfl⟩ := List.mem_iff_getElem.1 h
  refine ⟨k, ?_⟩
  unfold pickTie
  split
  case h_1 => simp at hk
  case h_2 a => simp
  case h_3 => rw [Nat.mod_eq_of_lt hk, List.getElem?_eq_getElem hk]

/-- The first dibits of the minimum-cost legal sequences. -/
def bestFirst (legal : Dibit → Dibit → Bool) (prev : Option Dibit) (d : Dibit) (ds : List Dibit) : List Dibit :=
  (successors legal prev).filter fun e =>
    (costVia legal d ds e).isSome && costVia legal d ds e == minCost legal prev (d :: ds)

theorem mem_bestFirst {legal : Dibit → Dibit → Bool} {prev : Option Dibit} {d a : Dibit} {ds : List Dibit} {c : Nat}
    (hc : minCost legal prev (d :: ds) = some c) :
    a ∈ bestFirst legal prev d ds ↔ a ∈ successors legal prev ∧ costVia legal d ds a = some c := by
  rw [bestFirst, List.mem_filter, hc, Bool.and_eq_true, beq_iff_eq]
  exact and_congr_right fun _ => and_iff_right_of_imp fun h => h ▸ rfl

theorem bestPath_cons {legal : Dibit → Dibit → Bool} {tie : Nat → Nat} {prev : Option Dibit} {i : Nat} {d a : Dibit}
    {ds : List Dibit} (h : pickTie (tie i) (bestFirst legal prev d ds) = some a) :
    bestPath legal tie prev i (d :: ds) = a :: bestPath legal tie (some a) (i + 1) ds := by
  rw [bestFirst] at h
  rw [bestPath, h]

/-- The choices before position `i` do not matter from there on. -/
theorem bestPath_congr {legal : Dibit → Dibit → Bool} {tie tie' : Nat → Nat} {i : Nat}
    (h : ∀ j, i ≤ j → tie j = tie' j) (prev : Option Dibit) (d : List Dibit) :
    bestPath legal tie prev i d = bestPath legal tie' prev i d := by
  induction d generalizing prev i with
  | nil => rfl
  | cons d ds ih =>
    have htail (a : Dibit) := ih (fun j hj => h j (Nat.le_of_succ_le hj)) (some a)
    simp only [bestPath, h i le_rfl, htail]

/-- R336: whatever the ties, the decoder's sequence is legal and of minimum cost. -/
theorem bestPath_legalFor {legal : Dibit → Dibit → Bool} {prev : Option Dibit} {d : List Dibit} {c : Nat}
    (hc : minCost legal prev d = some c) (tie : Nat → Nat) (i : Nat) :
    LegalFor legal prev d (bestPath legal tie prev i d) ∧ pathCost d (bestPath legal tie prev i d) = c := by
  induction d generalizing prev i c with
  | nil => exact ⟨legalFor_nil.2 rfl, Option.some.inj hc⟩
  | cons d ds ih =>
    obtain ⟨⟨a, ha, hvia⟩, -⟩ := minCost_cons_eq_some_iff.1 hc
    obtain ⟨b, hb⟩ := pickTie_isSome (tie i) (List.ne_nil_of_mem ((mem_bestFirst hc).2 ⟨ha, hvia⟩))
    obtain ⟨hbmem, hbvia⟩ := (mem_bestFirst hc).1 (mem_of_pickTie hb)
    rw [costVia_eq, Option.map_eq_some_iff] at hbvia
    obtain ⟨c', hc', rfl⟩ := hbvia
    obtain ⟨hlegal, hcost⟩ := ih hc' (i + 1)
    rw [bestPath_cons hb]
    exact ⟨legalFor_cons.2 ⟨b, _, rfl, hbmem, hlegal⟩, by rw [pathCost_cons, hcost]⟩

/-- R336: every legal sequence of minimum cost is the result of some ties. -/
theorem exists_bestPath_eq {legal : Dibit → Dibit → Bool} {prev : Option Dibit} {d e : List Dibit}
    (hc : minCost legal prev d = some (pathCost d e)) (he : LegalFor legal prev d e) (i : Nat) :
    ∃ tie, bestPath legal tie prev i d = e := by
  induction d generalizing prev i e with
  | nil => exact ⟨fun _ => 0, (legalFor_nil.1 he).symm⟩
  | cons d ds ih =>
    obtain ⟨a, es, rfl, ha, hes⟩ := legalFor_cons.1 he
    obtain ⟨c, hmin, hle⟩ := exists_minCost_le hes
    have hvia : costVia legal d ds a = some (dibitWeight (d ^^^ a) + c) := by rw [costVia_eq, hmin, Option.map_some]
    have hge := (minCost_cons_eq_some_iff.1 hc).2 a ha _ hvia
    rw [pathCost_cons] at hc hge
    obtain rfl : c = pathCost ds es := by omega
    obtain ⟨tie, htie⟩ := ih hmin hes (i + 1)
    obtain ⟨k, hk⟩ := exists_pickTie ((mem_bestFirst hc).2 ⟨ha, hvia⟩)
    refine ⟨Function.update tie i k, ?_⟩
    rw [bestPath_cons (a := a) (by rw [Function.update_self, hk]), ← htie]
    exact congrArg _ (bestPath_congr (fun j hj => Function.update_of_ne (Nat.ne_of_gt hj) _ _) _ _)

/-- Settles O41: the minimum cost is that of the sequence the decoder takes, and bounds the cost of every other. -/
theorem viterbiCostIsTheMinimum : Obligations.ViterbiCostIsTheMinimum := by
  intro legal start d
  refine ⟨fun c hc => ⟨?_, fun e hlen hpath => ?_⟩, fun hnone e hlen hpath => ?_⟩
  · obtain ⟨⟨hlen, hpath⟩, hcost⟩ := bestPath_legalFor hc (fun _ => 0) 0
    exact ⟨_, hlen, hpath, hcost⟩
  · obtain ⟨m, hm, hle⟩ := exists_minCost_le (d := d) ⟨hlen, hpath⟩
    rw [hc] at hm
    exact Option.some.inj hm ▸ hle
  · obtain ⟨m, hm, -⟩ := exists_minCost_le (d := d) ⟨hlen, hpath⟩
    rw [hnone] at hm
    cases hm

/-! ### The decoder -/

theorem trellisDecode_of_minCost_none {cfg : Cfg} {pos : List Nat} {start : Option Dibit} {bits : List Bool}
    {d : List Dibit} (hd : d = dibitsOf (bitsAt bits pos)) (hc : minCost cfg.legal start d = none)
    (failAbove : Option Nat) :
    trellisDecode cfg pos start failAbove bits = ⟨.failed, 0, violations cfg.legal start d, bits⟩ := by
  subst hd
  simp only [trellisDecode, hc, outcomeFailed]

section TrellisDecode
variable {cfg : Cfg} {pos : List Nat} {start : Option Dibit} {failAbove : Option Nat} {bits : List Bool}
  {d : List Dibit} {c : Nat} (hd : d = dibitsOf (bitsAt bits pos)) (hc : minCost cfg.legal start d = some c)
include hd hc

theorem trellisDecode_of_above {a : Nat} (ha : failAbove = some a) (h : a < c) :
    trellisDecode cfg pos start failAbove bits = ⟨.failed, 0, violations cfg.legal start d, bits⟩ := by
  subst hd ha
  simp [trellisDecode, hc, outcomeFailed, h]

theorem trellisDecode_of_zero (h0 : c = 0) :
    trellisDecode cfg pos start failAbove bits = ⟨.passed, 0, violations cfg.legal start d, bits⟩ := by
  subst hd h0
  simp [trellisDecode, hc, outcomePassed]

/-- R336: a legal sequence of minimum cost is written back. -/
theorem trellisDecode_of_pos (h : ∀ a, failAbove = some a → c ≤ a) (h0 : c ≠ 0) :
    ∃ e, LegalFor cfg.legal start d e ∧ pathCost d e = c ∧
      trellisDecode cfg pos start failAbove bits =
        ⟨.corrected, c, violations cfg.legal start d, writeBits bits pos (e.flatMap dibitBits)⟩ := by
  obtain ⟨hlegal, hcost⟩ := bestPath_legalFor hc (Config.trellisTie cfg d start) 0
  refine ⟨_, hlegal, hcost, ?_⟩
  have hany : ¬ (failAbove.any fun a => decide (c > a)) = true := by
    simpa [Option.any_eq_true] using h
  subst hd
  simp only [trellisDecode, hc, if_neg hany, if_neg h0, outcomeCorrected]

end TrellisDecode

/-- Settles O42: `bestPath_legalFor` and `exists_bestPath_eq` are the two directions; the check's verdicts are the
decoder's cases. -/
theorem trellisPathsAreTheMinimumCostPaths : Obligations.TrellisPathsAreTheMinimumCostPaths := by
  refine ⟨fun legal start d e c hc => ⟨?_, ?_⟩, ?_⟩
  · rintro ⟨tie, rfl⟩
    obtain ⟨⟨hlen, hpath⟩, hcost⟩ := bestPath_legalFor hc tie 0
    exact ⟨hlen, hpath, hcost⟩
  · rintro ⟨hlen, hpath, rfl⟩
    exact exists_bestPath_eq hc ⟨hlen, hpath⟩ 0
  · rintro cfg pos start failAbove bits d c o hd hc rfl
    refine ⟨fun a ha h => trellisDecode_of_above hd hc ha h, fun _ h0 => trellisDecode_of_zero hd hc h0, fun h h0 => ?_⟩
    obtain ⟨e, ⟨hlen, hpath⟩, hcost, hdec⟩ := trellisDecode_of_pos hd hc h h0
    exact ⟨e, hlen, hpath, hcost, hdec⟩

end Sys2Proof.Machine

/-! What a check's verdict says of the frame's bits (42_error_correction.md R301), for the checks of every kind. -/

namespace Sys2Proof.Machine

/-- R301: only CORRECTED(n) changes bits, exactly n of them, at least one, at the check's positions. -/
structure CorrectsExactly (pos : List Nat) (bits : List Bool) (o : CheckOutcome) : Prop where
  length : o.bits.length = bits.length
  unchanged : o.verdict ≠ .corrected → o.bits = bits ∧ o.n = 0
  corrected : o.verdict = .corrected →
    hamming bits o.bits = o.n ∧ 1 ≤ o.n ∧ ∀ q, q ∉ pos → bitAt o.bits q = bitAt bits q

/-- PASSED and FAILED leave the frame as it is. -/
theorem correctsExactly_of_unchanged {v : Verdict} (hv : v ≠ .corrected) (pos : List Nat) (bits : List Bool)
    (viol : Nat) : CorrectsExactly pos bits ⟨v, 0, viol, bits⟩ :=
  ⟨rfl, fun _ => ⟨rfl, rfl⟩, fun h => absurd h hv⟩

/-- A correction written at the check's positions, with its number of changed bits. -/
theorem correctsExactly_of_writeBits {pos : List Nat} {bits vals : List Bool} {n : Nat}
    (hn : hamming bits (writeBits bits pos vals) = n) (hpos : 1 ≤ n) (viol : Nat) :
    CorrectsExactly pos bits ⟨.corrected, n, viol, writeBits bits pos vals⟩ :=
  ⟨length_writeBits bits pos vals, fun h => absurd rfl h,
    fun _ => ⟨hn, hpos, fun _ hq => bitAt_writeBits_of_notMem hq bits vals⟩⟩

theorem crcCheck_correctsExactly (w poly init xorout : Nat) (data recv pos : List Nat) (bits : List Bool) :
    CorrectsExactly pos bits (crcCheck w poly init xorout data recv bits) := by
  obtain ⟨-, h⟩ | ⟨-, h⟩ := crcCheck_cases w poly init xorout data recv bits <;> rw [h]
  · exact correctsExactly_of_unchanged (by decide) pos bits 0
  · exact correctsExactly_of_unchanged (by decide) pos bits 0

theorem blockDecode_correctsExactly {code : LinearCode} (hvalid : code.valid = true) {pos : List Nat} (hnd : pos.Nodup)
    (hlen : pos.length = code.n) {bits : List Bool} (hin : ∀ p ∈ pos, p < bits.length) :
    CorrectsExactly pos bits (blockDecode code pos bits) := by
  obtain h | h | ⟨v, hl, hpos, h⟩ := blockDecode_cases hvalid hlen bits <;> rw [h]
  · exact correctsExactly_of_unchanged (by decide) pos bits 0
  · exact correctsExactly_of_unchanged (by decide) pos bits 0
  · have hsub := selected_sublist pos v
    refine ⟨length_flipBits bits _, fun hne => absurd rfl hne, fun _ => ⟨?_, hpos, fun q hq =>
      bitAt_flipBits_of_notMem (hsub.nodup hnd) (fun hmem => hq (hsub.mem hmem)) bits⟩⟩
    rw [hamming_flipBits (hsub.nodup hnd) fun p hp => hin p (hsub.mem hp), length_selected (hl.trans hlen.symm)]

theorem rsDecode_correctsExactly {m n : Nat} {pos : List Nat} (hnd : pos.Nodup) (hlen : pos.length = n * m)
    {bits : List Bool} (hin : ∀ p ∈ pos, p < bits.length) (prim k fcr : Nat) :
    CorrectsExactly pos bits (rsDecode m prim n k fcr pos bits) := by
  obtain ⟨-, h⟩ | ⟨hno, z, out, hz, -, rfl, hread, h⟩ | ⟨-, h, -⟩ := rsDecode_cases hnd hlen hin prim k fcr <;> rw [h]
  · exact correctsExactly_of_unchanged (by decide) pos bits 0
  · refine correctsExactly_of_writeBits rfl (Nat.one_le_iff_ne_zero.2 fun h0 => ?_) 0
    have hsame := eq_of_hamming_eq_zero (length_writeBits bits pos _).symm h0
    rw [← hsame] at hread
    rw [hread, hz.codeword] at hno
    exact Bool.noConfusion hno
  · exact correctsExactly_of_unchanged (by decide) pos bits 0

theorem trellisDecode_correctsExactly {pos : List Nat} (hnd : pos.Nodup) (heven : pos.length % 2 = 0)
    {bits : List Bool} (hin : ∀ p ∈ pos, p < bits.length) (cfg : Cfg) (start : Option Dibit) (failAbove : Option Nat) :
    CorrectsExactly pos bits (trellisDecode cfg pos start failAbove bits) := by
  have hbits : (dibitsOf (bitsAt bits pos)).flatMap dibitBits = bitsAt bits pos :=
    flatMap_dibitsOf (by rw [length_bitsAt, heven])
  cases hc : minCost cfg.legal start (dibitsOf (bitsAt bits pos)) with
  | none =>
    rw [trellisDecode_of_minCost_none rfl hc]
    exact correctsExactly_of_unchanged (by decide) pos bits _
  | some c =>
    by_cases habove : ∃ a, failAbove = some a ∧ a < c
    · obtain ⟨a, ha, hlt⟩ := habove
      rw [trellisDecode_of_above rfl hc ha hlt]
      exact correctsExactly_of_unchanged (by decide) pos bits _
    obtain h0 | h0 := eq_or_ne c 0
    · rw [trellisDecode_of_zero rfl hc h0]
      exact correctsExactly_of_unchanged (by decide) pos bits _
    · have hle : ∀ a, failAbove = some a → c ≤ a := fun a ha => Nat.not_lt.1 fun hlt => habove ⟨a, ha, hlt⟩
      obtain ⟨e, he, hcost, hdec⟩ := trellisDecode_of_pos rfl hc hle h0
      have hlen : (e.flatMap dibitBits).length = pos.length := by
        rw [length_flatMap_dibitBits, he.length, ← length_flatMap_dibitBits, hbits, length_bitsAt]
      rw [hdec]
      refine correctsExactly_of_writeBits ?_ (Nat.one_le_iff_ne_zero.2 h0) _
      rw [hamming_writeBits hnd hin hlen, ← hcost, pathCost_eq_hamming he.length.symm, hbits]

theorem blockValid_of_vCheck {par : Params} {code : LinearCode} {pos : List Nat}
    (h : vCheck par (.block code pos) = true) : pos.Nodup ∧ pos.length = code.n ∧ code.valid = true := by
  simp only [vCheck, Check.posLists, distinct, Bool.and_eq_true, List.all_cons, decide_eq_true_eq, beq_iff_eq] at h
  obtain ⟨⟨-, hnd, -⟩, hlen, hvalid⟩ := h
  exact ⟨hnd, hlen, hvalid⟩

theorem trellisValid_of_vCheck {par : Params} {pos : List Nat} {start : Option Dibit} {failAbove : Option Nat}
    (h : vCheck par (.trellis pos start failAbove) = true) : pos.Nodup ∧ pos.length % 2 = 0 := by
  simp only [vCheck, Check.posLists, distinct, Bool.and_eq_true, List.all_cons, decide_eq_true_eq, beq_iff_eq] at h
  obtain ⟨⟨-, hnd, -⟩, heven, -⟩ := h
  exact ⟨hnd, heven⟩

/-- R301 for every valid check. -/
theorem applyCheck_correctsExactly {par : Params} {c : Check} (hv : vCheck par c = true) (cfg : Cfg)
    (bits : List Bool) : CorrectsExactly c.positions bits (applyCheck cfg c bits) := by
  by_cases hshort : ∃ p ∈ c.positions, bits.length ≤ p
  · obtain ⟨p, hp, hlen⟩ := hshort
    rw [applyCheck_of_short hp hlen]
    exact correctsExactly_of_unchanged (by decide) _ bits 0
  have hin : ∀ p ∈ c.positions, p < bits.length := fun p hp => Nat.not_le.1 fun hle => hshort ⟨p, hp, hle⟩
  rw [applyCheck_of_inside hin]
  cases c with
  | crc w poly init xorout data recv => exact crcCheck_correctsExactly w poly init xorout data recv _ bits
  | block code pos =>
    obtain ⟨hnd, hlen, hvalid⟩ := blockValid_of_vCheck hv
    rw [positions_block] at hin ⊢
    exact blockDecode_correctsExactly hvalid hnd hlen hin
  | rs m prim n k fcr pos =>
    obtain ⟨hnd, hlen⟩ := rsValid_of_vCheck hv
    rw [positions_rs] at hin ⊢
    exact rsDecode_correctsExactly hnd hlen hin prim k fcr
  | trellis pos start failAbove =>
    obtain ⟨hnd, heven⟩ := trellisValid_of_vCheck hv
    rw [positions_trellis] at hin ⊢
    exact trellisDecode_correctsExactly hnd heven hin cfg start failAbove

/-- Settles O44: `applyCheck_correctsExactly`, and the frame after one check records what it answered. -/
theorem verdictsChangeExactlyTheCorrectedBits : Obligations.VerdictsChangeExactlyTheCorrectedBits := by
  rintro cfg par c bits o hv rfl
  obtain ⟨hlength, hunchanged, hcorrected⟩ := applyCheck_correctsExactly hv cfg bits
  refine ⟨hlength, hunchanged, hcorrected, ?_⟩
  rintro f s rfl rfl
  exact ⟨rfl, rfl⟩

end Sys2Proof.Machine

/-! The message factory (43_dispatch.md R350 to R353, R380): a message's fields, its variant, and its way into the
output queue. -/

namespace Sys2Proof.Machine

/-! ### The output queue -/

theorem emit_of_room {s : State} (h : s.outq.length < s.par.outqDepth) (m : Message) :
    emit m s = { s with outq := s.outq ++ [m], ctr := s.ctr.add .msgEnqueued 1 } := if_pos h

/-- R380: OUTQ_OVERFLOW is bit 4 of ERR. -/
theorem emit_of_full {s : State} (h : s.par.outqDepth ≤ s.outq.length) (m : Message) :
    emit m s = { s with err := s.err ||| 0x10, ctr := s.ctr.add .msgDropped 1 } := if_neg (Nat.not_lt.2 h)

/-- Settles O50: the two branches of `emit`. -/
theorem fullQueueDropsTheNewest : Obligations.FullQueueDropsTheNewest :=
  fun m _ => ⟨fun h => emit_of_room h m, fun h => emit_of_full h m⟩

/-! ### The variant -/

theorem countUnknown_of_some {h : Frame} {s : State} {v : U16} (hv : variantOf? s.cfg h = some v) :
    countUnknown h s = s := by
  simp only [countUnknown, hv]

theorem countUnknown_of_none {h : Frame} {s : State} (hv : variantOf? s.cfg h = none) :
    countUnknown h s = { s with ctr := s.ctr.add .unknownMsg 1 } := by
  simp only [countUnknown, hv]
  rfl

/-- R352: the message's own vendor and opcode select its variant. -/
theorem variantOf?_eq_lookup (cfg : Cfg) (h : Frame) (blocks : List Frame) :
    variantOf? cfg h =
      if (buildMessage cfg h blocks).vendor = cfg.standardVendor then
        cfg.primary.lookup ((buildMessage cfg h blocks).du, (buildMessage cfg h blocks).opcode)
      else cfg.secondary.lookup
        ((buildMessage cfg h blocks).du, (buildMessage cfg h blocks).vendor, (buildMessage cfg h blocks).opcode) := rfl

theorem buildMessage_variant (cfg : Cfg) (h : Frame) (blocks : List Frame) :
    (buildMessage cfg h blocks).variant = (variantOf? cfg h).getD 0xFFFF := rfl

/-- Settles O49: the entry is `variantOf?`, by which the message has its variant and UNKNOWN_MSG counts. -/
theorem variantLookup : Obligations.VariantLookup := by
  rintro s h blocks m entry rfl hentry
  rw [← variantOf?_eq_lookup] at hentry
  refine ⟨fun v hv => ?known, fun hnone => ?unknown⟩
  case known =>
    have hvar : variantOf? s.cfg h = some v := hentry.symm.trans hv
    exact ⟨by rw [buildMessage_variant, hvar, Option.getD_some], by rw [emitFrames, countUnknown_of_some hvar]⟩
  case unknown =>
    have hvar : variantOf? s.cfg h = none := hentry.symm.trans hnone
    exact ⟨by rw [buildMessage_variant, hvar, Option.getD_none], by rw [emitFrames, countUnknown_of_none hvar]⟩

/-! ### The value of a field -/

theorem field_lt (bits : List Bool) (x : Field) : field bits x < 2 ^ x.width := by
  simpa [field] using msbValue_lt (bitsAt bits (List.range' x.off x.width))

/-- R104: a field's bits are those from its offset on, the first most significant. -/
theorem field_eq_sum (bits : List Bool) (x : Field) :
    field bits x =
      ((List.range x.width).map fun i => (bits.getD (x.off + i) false).toNat * 2 ^ (x.width - 1 - i)).sum := by
  rw [field, msbValue_eq_sum, length_bitsAt, List.length_range']
  refine congrArg List.sum (List.map_congr_left fun i hi => ?_)
  have hi : i < x.width := List.mem_range.1 hi
  have hget : (bitsAt bits (List.range' x.off x.width)).getD i false = bits.getD (x.off + i) false := by
    simp [bitsAt, bitAt, List.getD_eq_getElem?_getD, hi]
  rw [hget]

/-! ### The discriminators -/

theorem discriminator_of_du {cfg : Cfg} {f : Frame} {d : DuCfg} (hd : cfg.du? f.du = some d)
    (pick : DuCfg → Option Field) : discriminator cfg f pick = (pick d).map (field32 f.bits) := by
  rw [discriminator, hd, Option.bind_some]

theorem opcodeOf_of_du {cfg : Cfg} {f : Frame} {d : DuCfg} (hd : cfg.du? f.du = some d) :
    opcodeOf cfg f = (d.opcode.map (field32 f.bits)).getD 0 := by
  rw [opcodeOf, discriminator_of_du hd]

theorem vendorOf_of_du {cfg : Cfg} {f : Frame} {d : DuCfg} (hd : cfg.du? f.du = some d) :
    vendorOf cfg f = (d.vendor.map (field32 f.bits)).getD cfg.standardVendor := by
  rw [vendorOf, discriminator_of_du hd]

theorem vendorPresent_of_du {cfg : Cfg} {f : Frame} {d : DuCfg} (hd : cfg.du? f.du = some d) :
    vendorPresent cfg f = d.vendor.isSome := by
  rw [vendorPresent, discriminator_of_du hd, Option.isSome_map]

/-! ### A choice of two, folded over a list -/

section FoldlChoice

variable {α : Type} {choice : α → α → α}

theorem foldl_mem_of_choice (h : ∀ a b, choice a b = a ∨ choice a b = b) (a : α) (l : List α) :
    l.foldl choice a ∈ a :: l := by
  induction l generalizing a with
  | nil => exact List.mem_singleton_self a
  | cons b l ih =>
    rw [List.foldl_cons, List.mem_cons, List.mem_cons]
    obtain hfirst | hmem := List.mem_cons.1 (ih (choice a b))
    · rw [hfirst, ← or_assoc]
      exact .inl (h a b)
    · exact .inr (.inr hmem)

theorem foldl_rel_of_choice {r : α → α → Prop} (hrefl : ∀ a, r a a) (htrans : ∀ a b c, r a b → r b c → r a c)
    (h : ∀ a b, r (choice a b) a ∧ r (choice a b) b) {a x : α} {l : List α} (hx : x ∈ a :: l) :
    r (l.foldl choice a) x := by
  induction l generalizing a x with
  | nil =>
    rw [List.mem_singleton.1 hx]
    exact hrefl a
  | cons b l ih =>
    have hfirst : r (l.foldl choice (choice a b)) (choice a b) := ih List.mem_cons_self
    obtain ⟨ha, hb⟩ := h a b
    simp only [List.mem_cons] at hx
    obtain rfl | rfl | hmem := hx
    · exact htrans _ _ _ hfirst ha
    · exact htrans _ _ _ hfirst hb
    · exact ih (List.mem_cons_of_mem _ hmem)

end FoldlChoice

/-! ### The validity of several frames -/

theorem severity_le_worse (a b : Validity) :
    a.severity ≤ (worse a b).severity ∧ b.severity ≤ (worse a b).severity := by
  rw [worse]
  split <;> omega

theorem worse_eq_or (a b : Validity) : worse a b = a ∨ worse a b = b := by
  rw [worse]
  split
  · exact .inr rfl
  · exact .inl rfl

@[simp] theorem worse_valid_left (a : Validity) : worse .valid a = a := by
  cases a <;> rfl

/-- R350: the fold starts at the header's validity, VALID being the least severe. -/
theorem buildMessage_validity (cfg : Cfg) (h : Frame) (blocks : List Frame) :
    (buildMessage cfg h blocks).validity =
      (blocks.map fun f => validityOf f.results).foldl worse (validityOf h.results) := by
  simp only [buildMessage, List.map_cons, List.foldl_cons, worse_valid_left]

theorem severity_le_buildMessage_validity (cfg : Cfg) {h f : Frame} {blocks : List Frame} (hf : f ∈ h :: blocks) :
    (validityOf f.results).severity ≤ (buildMessage cfg h blocks).validity.severity := by
  rw [buildMessage_validity]
  exact foldl_rel_of_choice (r := fun a b => b.severity ≤ a.severity) (fun _ => Nat.le_refl _)
    (fun _ _ _ hab hbc => Nat.le_trans hbc hab) severity_le_worse
    (List.mem_map_of_mem (f := fun f : Frame => validityOf f.results) hf)

theorem exists_buildMessage_validity_eq (cfg : Cfg) (h : Frame) (blocks : List Frame) :
    ∃ f ∈ h :: blocks, (buildMessage cfg h blocks).validity = validityOf f.results := by
  have hmem : (buildMessage cfg h blocks).validity ∈ (h :: blocks).map fun f => validityOf f.results := by
    rw [buildMessage_validity]
    exact foldl_mem_of_choice worse_eq_or _ _
  obtain ⟨f, hf, he⟩ := List.mem_map.1 hmem
  exact ⟨f, hf, he.symm⟩

/-! ### The message -/

/-- Settles O48: the discriminators by the header's type, the validity by the fold of `worse`; the other fields are
those `buildMessage` writes. -/
theorem messageFields : Obligations.MessageFields := by
  refine ⟨fun bits x _ => ⟨field_lt bits x, field_eq_sum bits x⟩, ?_⟩
  rintro cfg h blocks d m hd rfl
  have hopcode : (buildMessage cfg h blocks).opcode = (d.opcode.map (field32 h.bits)).getD 0 := opcodeOf_of_du hd
  have hvendor : (buildMessage cfg h blocks).vendor = (d.vendor.map (field32 h.bits)).getD cfg.standardVendor :=
    vendorOf_of_du hd
  have hpresent : (buildMessage cfg h blocks).vendorPresent = d.vendor.isSome := vendorPresent_of_du hd
  refine ⟨rfl, rfl, rfl, rfl, fun x hx => ?opcode, fun hx => ?noOpcode, fun x hx => ?vendor, fun hx => ?noVendor,
    List.sum_cons, List.sum_cons, rfl, ?bits, ?results,
    fun f hf => severity_le_buildMessage_validity cfg hf, exists_buildMessage_validity_eq cfg h blocks⟩
  case opcode => rw [hopcode, hx, Option.map_some, Option.getD_some, field32]
  case noOpcode => rw [hopcode, hx, Option.map_none, Option.getD_none]
  case vendor =>
    rw [hvendor, hpresent, hx, Option.map_some, Option.getD_some, field32]
    exact ⟨rfl, rfl⟩
  case noVendor =>
    rw [hvendor, hpresent, hx, Option.map_none, Option.getD_none]
    exact ⟨rfl, rfl⟩
  case bits => exact List.flatMap_cons.trans (congrArg _ (List.flatMap_def ..))
  case results => exact List.flatMap_def ..

end Sys2Proof.Machine

/-! Reassembly (43_dispatch.md R370 to R379): the table operations on a table split at one entry, what a header frame
and a block frame do to it, and the timeout sweep. -/

namespace Sys2Proof.Machine

/-! ### Frames by the role of their type -/

section HandleFrame

variable {f : Frame} {s : State} {d : DuCfg} {cls : U8} {kf : List Field}

theorem handleFrame_of_single (hd : s.cfg.du? f.du = some d) (hr : d.role = .single) (now : U64) :
    handleFrame f now s = emitFrames f [] s := by
  simp only [handleFrame, hd, hr]

theorem handleFrame_of_header {cf : Field} (hd : s.cfg.du? f.du = some d) (hr : d.role = .header cls kf cf)
    (now : U64) : handleFrame f now s = headerFrame f cls kf cf now s := by
  simp only [handleFrame, hd, hr]

theorem handleFrame_of_block {xf : Option Field} (hd : s.cfg.du? f.du = some d) (hr : d.role = .block cls kf xf)
    (now : U64) : handleFrame f now s = blockFrame f cls kf xf now s := by
  simp only [handleFrame, hd, hr]

end HandleFrame

/-! ### Header frames dispatched alone -/

section HeaderFrame

variable {f : Frame} {s : State} {cf : Field}

theorem headerFrame_of_rejected (h : validityOf f.results ≠ .valid ∨ s.par.maxBlocks < field f.bits cf) (cls : U8)
    (kf : List Field) (now : U64) :
    headerFrame f cls kf cf now s = emitFrames f [] { s with ctr := s.ctr.add .seqRejected 1 } := if_pos h

/-- R379: a header of no blocks is never above B. -/
theorem headerFrame_of_empty (hv : validityOf f.results = .valid) (h0 : field f.bits cf = 0) (cls : U8)
    (kf : List Field) (now : U64) : headerFrame f cls kf cf now s = emitFrames f [] s := by
  obtain ⟨hne | hgt, -⟩ | ⟨-, -, he⟩ | ⟨-, hpos, -⟩ := headerFrame_cases f cls kf cf now s
  · exact absurd hv hne
  · omega
  · exact he
  · omega

theorem headerFrame_of_opens (hv : validityOf f.results = .valid) (hpos : 1 ≤ field f.bits cf)
    (hle : field f.bits cf ≤ s.par.maxBlocks) (cls : U8) (kf : List Field) (now : U64) :
    headerFrame f cls kf cf now s = openSequence f (seqKey f cls kf) (field f.bits cf) now s := by
  obtain ⟨hne | hgt, -⟩ | ⟨-, h0, -⟩ | ⟨-, -, -, he⟩ := headerFrame_cases f cls kf cf now s
  · exact absurd hv hne
  · omega
  · omega
  · exact he

end HeaderFrame

/-- Settles O51: the roles by `handleFrame`, the two headers that open nothing by `headerFrame`. -/
theorem framesDispatchedAlone : Obligations.FramesDispatchedAlone := by
  refine fun f now s d hd => ⟨fun hr => handleFrame_of_single hd hr now, fun cls kf cf hr => ?_⟩
  rw [handleFrame_of_header hd hr]
  exact ⟨fun h => headerFrame_of_rejected h cls kf now, fun hv h0 => ⟨headerFrame_of_empty hv h0 cls kf now, rfl⟩⟩

/-! ### The table, split at one entry -/

@[simp] theorem hasKey_iff {k : U8 × List U32} {e : SeqEntry} : hasKey k e = true ↔ e.key = k := beq_iff_eq

theorem findSeq_eq_none {seqs : List SeqEntry} {k : U8 × List U32} (h : ∀ e ∈ seqs, e.key ≠ k) :
    findSeq seqs k = none :=
  List.find?_eq_none.2 fun e he hk => h e he (hasKey_iff.1 hk)

section SplitTable

variable {k : U8 × List U32} {pre : List SeqEntry} {e : SeqEntry}

theorem findSeq_split (hpre : ∀ e' ∈ pre, e'.key ≠ k) (hk : e.key = k) (post : List SeqEntry) :
    findSeq (pre ++ e :: post) k = some e := by
  rw [findSeq, List.find?_append, List.find?_cons_of_pos (hasKey_iff.2 hk)]
  exact congrArg (·.or (some e)) (findSeq_eq_none hpre)

theorem removeSeq_split (hpre : ∀ e' ∈ pre, e'.key ≠ k) (hk : e.key = k) (post : List SeqEntry) :
    removeSeq (pre ++ e :: post) k = pre ++ post := by
  rw [removeSeq, List.eraseP_append_right _ fun e' he' hk' => hpre e' he' (hasKey_iff.1 hk'),
    List.eraseP_cons_of_pos (hasKey_iff.2 hk)]

theorem replaceSeq_split (hpre : ∀ e' ∈ pre, e'.key ≠ k) (hk : e.key = k) (post : List SeqEntry) (new : SeqEntry) :
    replaceSeq (pre ++ e :: post) k new = pre ++ new :: post := by
  induction pre with
  | nil => exact if_pos (hasKey_iff.2 hk)
  | cons p pre ih =>
    obtain ⟨hp, hpre⟩ := List.forall_mem_cons.1 hpre
    rw [List.cons_append, replaceSeq, if_neg (mt hasKey_iff.1 hp), ih hpre, List.cons_append]

end SplitTable

/-! ### The entry a full table loses -/

/-- The entry `oldestSeq` keeps of two, the first of them where both were joined at once (R373; log 7). -/
def earlier (best x : SeqEntry) : SeqEntry := if x.last < best.last then x else best

theorem oldestSeq_cons (e : SeqEntry) (es : List SeqEntry) : oldestSeq (e :: es) = some (es.foldl earlier e) := rfl

theorem earlier_eq_or (e x : SeqEntry) : earlier e x = e ∨ earlier e x = x := by
  rw [earlier]
  split
  · exact .inr rfl
  · exact .inl rfl

theorem earlier_last_le (e x : SeqEntry) : (earlier e x).last ≤ e.last ∧ (earlier e x).last ≤ x.last := by
  rw [earlier]
  split <;> constructor <;> bv_omega

/-- R373: an entry whose `last` is below every other is the one evicted. -/
theorem oldestSeq_split {pre post : List SeqEntry} {old : SeqEntry} (h : ∀ e ∈ pre ++ post, old.last < e.last) :
    oldestSeq (pre ++ old :: post) = some old := by
  obtain ⟨x, xs, hsplit⟩ := List.exists_cons_of_ne_nil (l := pre ++ old :: post) (by simp)
  have hmem : xs.foldl earlier x ∈ x :: xs := foldl_mem_of_choice earlier_eq_or x xs
  have hold : old ∈ x :: xs := by simp [← hsplit]
  have hle : (xs.foldl earlier x).last ≤ old.last :=
    foldl_rel_of_choice (r := fun a b : SeqEntry => a.last ≤ b.last) (fun _ => BitVec.le_refl _)
      (fun _ _ _ => BitVec.le_trans) earlier_last_le hold
  rw [← hsplit, List.mem_append, List.mem_cons, or_left_comm, ← List.mem_append] at hmem
  rw [hsplit, oldestSeq_cons]
  obtain heq | hother := hmem
  · rw [heq]
  · exact absurd (h _ hother) (BitVec.not_lt.2 hle)

theorem evictOldest_split {pre post : List SeqEntry} {old : SeqEntry} (h : ∀ e ∈ pre ++ post, old.last < e.last) :
    evictOldest (pre ++ old :: post) = pre ++ post := by
  have hpre : old ∉ pre := fun hmem => BitVec.lt_irrefl _ (h old (List.mem_append_left _ hmem))
  simp only [evictOldest, oldestSeq_split h]
  rw [List.erase_append_right _ hpre, List.erase_cons_head]

/-! ### Opening a sequence -/

theorem abandonSeq_of_absent {k : U8 × List U32} {s : State} (h : ∀ e ∈ s.seqs, e.key ≠ k) : abandonSeq k s = s := by
  obtain ⟨-, he⟩ | ⟨⟨e, hmem, hk⟩, -⟩ := abandonSeq_cases k s
  · exact he
  · exact absurd hk (h e hmem)

/-- R374: the entry of the key leaves the table. -/
theorem abandonSeq_of_split {k : U8 × List U32} {s : State} {pre post : List SeqEntry} {old : SeqEntry}
    (hs : s.seqs = pre ++ old :: post) (hk : old.key = k) (hpre : ∀ e ∈ pre, e.key ≠ k) :
    abandonSeq k s = { s with seqs := pre ++ post, ctr := s.ctr.add .seqAbandoned 1 } := by
  obtain ⟨habsent, -⟩ | ⟨-, he⟩ := abandonSeq_cases k s
  · exact absurd hk (habsent old (by simp [hs]))
  · rw [he, hs, removeSeq_split hpre hk]
    rfl

theorem makeRoom_of_room {s : State} (h : s.seqs.length ≠ s.par.maxPending) : makeRoom s = s := if_neg h

/-- R373, R375: a full table loses the entry of the least `last`. -/
theorem makeRoom_of_split {s : State} {pre post : List SeqEntry} {old : SeqEntry} (hs : s.seqs = pre ++ old :: post)
    (hfull : s.seqs.length = s.par.maxPending) (hleast : ∀ e ∈ pre ++ post, old.last < e.last) :
    makeRoom s = { s with seqs := pre ++ post, ctr := s.ctr.add .seqEvicted 1 } := by
  obtain ⟨hne, -⟩ | ⟨-, he⟩ := makeRoom_cases s
  · exact absurd hfull hne
  · rw [he, hs, evictOldest_split hleast]
    rfl

/-- R373: the new entry behind the table that has room for it. -/
theorem openSequence_eq {k : U8 × List U32} {s t : State} (ht : makeRoom (abandonSeq k s) = t) (f : Frame)
    (count : Nat) (now : U64) :
    openSequence f k count now s = { t with
      seqs := t.seqs ++ [{ key := k, header := f, blocks := [], expected := count, last := now }]
      ctr := t.ctr.add .seqStarted 1 } := by
  subst ht
  rfl

/-- Settles O52: the table that `abandonSeq` and `makeRoom` leave, in each of the three cases. -/
theorem headerOpensASequence : Obligations.HeaderOpensASequence := by
  rintro f now s d cls kf cf k new hd hr hv hpos hle hk rfl
  obtain rfl : k = seqKey f cls kf := hk
  rw [handleFrame_of_header hd hr, headerFrame_of_opens hv hpos hle]
  refine ⟨fun habsent hroom => ?room, fun pre old post hs hkey hpre hlen => ?abandon,
    fun pre old post hs habsent hfull hleast => ?evict⟩
  case room =>
    refine openSequence_eq ?_ _ _ _
    rw [abandonSeq_of_absent habsent, makeRoom_of_room hroom]
  case abandon =>
    refine openSequence_eq (t := { s with seqs := pre ++ post, ctr := s.ctr.add .seqAbandoned 1 }) ?_ _ _ _
    have hroom : (pre ++ post).length ≠ s.par.maxPending := by
      simp only [hs, List.length_append, List.length_cons] at hlen ⊢
      omega
    rw [abandonSeq_of_split hs hkey hpre, makeRoom_of_room hroom]
  case evict =>
    refine openSequence_eq (t := { s with seqs := pre ++ post, ctr := s.ctr.add .seqEvicted 1 }) ?_ _ _ _
    rw [abandonSeq_of_absent habsent, makeRoom_of_split hs hfull hleast]

/-! ### Block frames -/

theorem blockFrame_of_absent {f : Frame} {cls : U8} {kf : List Field} {s : State}
    (h : ∀ e ∈ s.seqs, e.key ≠ seqKey f cls kf) (xf : Option Field) (now : U64) :
    blockFrame f cls kf xf now s = { s with ctr := s.ctr.add .blockOrphan 1 } := by
  simp only [blockFrame, findSeq_eq_none h]
  rfl

/-- R377: a block whose key has an entry, by its index and the number of blocks expected. -/
theorem blockFrame_of_findSeq {f : Frame} {cls : U8} {kf : List Field} {s : State} {e : SeqEntry}
    (h : findSeq s.seqs (seqKey f cls kf) = some e) (xf : Option Field) (now : U64) :
    blockFrame f cls kf xf now s =
      if outOfOrder f xf e then s.count .blockOutOfOrder 1
      else if e.blocks.length + 1 = e.expected then
        completeSequence (extended e f now) (s.setSeqs (replaceSeq s.seqs (seqKey f cls kf) (extended e f now)))
      else s.setSeqs (replaceSeq s.seqs (seqKey f cls kf) (extended e f now)) := by
  simp only [blockFrame, h, extended, List.length_append, List.length_singleton]

theorem outOfOrder_eq_false_iff {f : Frame} {xf : Option Field} {e : SeqEntry} :
    outOfOrder f xf e = false ↔ ∀ x, xf = some x → field f.bits x = e.blocks.length := by
  cases xf <;> simp [outOfOrder]

/-- R378: the entry that is complete leaves the table as its message is emitted. -/
theorem completeSequence_of_split {s : State} {pre post : List SeqEntry} {e : SeqEntry}
    (hs : s.seqs = pre ++ e :: post) (hpre : ∀ e' ∈ pre, e'.key ≠ e.key) :
    completeSequence e s =
      emitFrames e.header e.blocks { s with seqs := pre ++ post, ctr := s.ctr.add .seqCompleted 1 } := by
  rw [completeSequence, hs, removeSeq_split hpre rfl]
  rfl

/-- Settles O53: the entry of the block's key is found, replaced and removed at its place in the table. -/
theorem blockJoinsItsSequence : Obligations.BlockJoinsItsSequence := by
  intro f now s d cls kf xf k hd hr hk
  obtain rfl : k = seqKey f cls kf := hk
  rw [handleFrame_of_block hd hr]
  refine ⟨fun habsent => blockFrame_of_absent habsent xf now, fun pre e post hs hkey hpre => ?_⟩
  have hreplace : replaceSeq s.seqs (seqKey f cls kf) (extended e f now) = pre ++ extended e f now :: post :=
    hs ▸ replaceSeq_split hpre hkey post _
  rw [blockFrame_of_findSeq (hs ▸ findSeq_split hpre hkey post), hreplace]
  refine ⟨fun x hx hne => ?disorder, fun hin => ⟨fun hmore => ?join, fun hlast => ?complete⟩⟩
  case disorder =>
    have hout : outOfOrder f xf e = true :=
      Bool.of_not_eq_false fun h => hne (outOfOrder_eq_false_iff.1 h x hx)
    rw [if_pos hout]
    rfl
  case join =>
    rw [if_neg (Bool.eq_false_iff.1 (outOfOrder_eq_false_iff.2 hin)), if_neg hmore]
    rfl
  case complete =>
    rw [if_neg (Bool.eq_false_iff.1 (outOfOrder_eq_false_iff.2 hin)), if_pos hlast]
    exact completeSequence_of_split (s := s.setSeqs (pre ++ extended e f now :: post)) rfl
      fun e' he' hk' => hpre e' he' (hk'.trans hkey)

/-! ### The timeout sweep -/

theorem sweepTimeouts_seqs (now : U64) (s : State) :
    (sweepTimeouts now s).seqs = s.seqs.filter fun e => decide (age now e ≤ s.par.seqTimeout) := by
  rw [sweepTimeouts_eq]
  rfl

/-- Settles O54: the sweep filters the table by age, and `surviving` is the table it leaves to an accepted unit. -/
theorem timeoutSweepRemovesStaleEntries : Obligations.TimeoutSweepRemovesStaleEntries := by
  refine fun now s => ⟨?sublist, fun e => ?mem, ?frame, fun i u => ?admitted⟩
  case sublist =>
    rw [sweepTimeouts_seqs]
    exact List.filter_sublist
  case mem => rw [sweepTimeouts_seqs, List.mem_filter, decide_eq_true_eq, age]
  case frame =>
    rw [sweepTimeouts_seqs]
    exact sweepTimeouts_eq now s
  case admitted => exact (sweepTimeouts_seqs s.unitCount s).symm

end Sys2Proof.Machine

/-! The control commands (44_control.md): NOP, RESET, POP, RDCSR and WRCSR as the next state they give, and the words of
their opcodes that are no command. -/

namespace Sys2Proof

/-! ### Words that hold a reserved bit -/

/-- A word other than the bare command word of its opcode has a 1 outside OPC (30_encoding.md R150). -/
theorem field_ne_zero_of_ne_cmdWord {w : Word} (h : w ≠ cmdWord (opcOf w) 0 0) :
    rsvdOf w ≠ 0 ∨ csrOf w ≠ 0 ∨ dataOf w ≠ 0 := by
  contrapose! h
  obtain ⟨hrsvd, hcsr, hdata⟩ := h
  calc w = cmdWord (opcOf w) (csrOf w) (dataOf w) := (cmdWord_of_fields w hrsvd).symm
    _ = cmdWord (opcOf w) 0 0 := by rw [hcsr, hdata]

/-- The opcodes of NOP, RESET and POP are assigned and use neither CSR nor DATA (R154, R155). -/
theorem opcAssigned_and_uses_no_field {opc : U8} (h : opc ∈ ([0x00, 0x08, 0x10] : List U8)) :
    opcAssigned opc = true ∧ usesCsr opc = false ∧ usedData opc = 0 := by
  revert opc
  decide

/-- Every bit outside OPC is reserved in the words of NOP, RESET and POP. -/
theorem reservedNonzero_of_ne_cmdWord {w : Word} (hopc : opcOf w ∈ ([0x00, 0x08, 0x10] : List U8))
    (hne : w ≠ cmdWord (opcOf w) 0 0) : reservedNonzero w = true := by
  obtain ⟨-, hcsrFree, hdataFree⟩ := opcAssigned_and_uses_no_field hopc
  obtain hrsvd | hcsr | hdata := field_ne_zero_of_ne_cmdWord hne
  · exact reservedNonzero_iff.2 (.inl hrsvd)
  · exact reservedNonzero_iff.2 (.inr (.inl ⟨hcsrFree, hcsr⟩))
  · exact reservedNonzero_of_data (k := 0) (n := 32) (by decide) (by rw [hdataFree]; decide) hdata

end Sys2Proof

namespace Sys2Proof.Machine

/-- R161: a word of an assigned opcode with a reserved bit is ignored as RSVD_NONZERO, with the response of its opcode. -/
theorem runWord_of_reservedNonzero {w : Word} {opc : U8} (hassigned : opcAssigned opc = true) (hw : opcOf w = opc)
    (h : reservedNonzero w = true) (s : State) :
    runWord w s =
      .next { s with err := s.err ||| 0x4, ctr := s.ctr.add .illegalCmd 1, resp := ignoredResp opc } := by
  subst hw
  rw [runWord_of_decode_error (decode_of_reservedNonzero hassigned h), rejectWord_reserved]

/-- Of the words of NOP, RESET and POP all but the bare command word are ignored as RSVD_NONZERO. -/
theorem runWord_of_ne_cmdWord {w : Word} {opc : U8} (hopc : opc ∈ ([0x00, 0x08, 0x10] : List U8)) (hw : opcOf w = opc)
    (hne : w ≠ cmdWord opc 0 0) (s : State) :
    runWord w s =
      .next { s with err := s.err ||| 0x4, ctr := s.ctr.add .illegalCmd 1, resp := ignoredResp opc } := by
  obtain ⟨hassigned, -, -⟩ := opcAssigned_and_uses_no_field hopc
  subst hw
  exact runWord_of_reservedNonzero hassigned rfl (reservedNonzero_of_ne_cmdWord hopc hne) s

/-! ### NOP -/

theorem exec_nop (s : State) : exec .nop s = .next { s with resp := .none } := rfl

/-- Settles O12: NOP only responds, and 0 is the command word of its opcode, so any other word holds a reserved bit. -/
theorem nopChangesNothing : Obligations.NopChangesNothing :=
  ⟨exec_nop, by decide, fun w s hw hne => runWord_of_ne_cmdWord (by decide) hw hne s⟩

/-! ### RESET -/

theorem resetPipeline_eq (s : State) : resetPipeline s = { s with lock := .searching, window := [], seqs := [] } := rfl

theorem exec_reset (s : State) :
    exec .reset s = .next ((if s.cfgOk then resetPipeline s else s).respond .none) := rfl

theorem exec_reset_of_cfgOk {s : State} (h : s.cfgOk = true) :
    exec .reset s = .next { s with lock := .searching, window := [], seqs := [], resp := .none } := by
  rw [exec_reset, if_pos h, resetPipeline_eq]
  rfl

theorem exec_reset_of_inert {s : State} (h : s.cfgOk = false) : exec .reset s = .next { s with resp := .none } := by
  rw [exec_reset, if_neg (by simp [h])]
  rfl

/-- Settles O13: by the two cases of `cfgOk`; a word of opcode 0x08 other than its command word holds a reserved bit. -/
theorem resetClearsThePipeline : Obligations.ResetClearsThePipeline :=
  ⟨fun s => exec_reset_of_cfgOk, fun s => exec_reset_of_inert, by decide,
    fun w s hw hne => runWord_of_ne_cmdWord (by decide) hw hne s⟩

/-! ### POP -/

theorem popMessage_of_nil {s : State} (h : s.outq = []) : popMessage s = s.respond (.msg none) := by
  simp only [popMessage, h]

theorem popMessage_of_cons {s : State} {m : Message} {rest : List Message} (h : s.outq = m :: rest) :
    popMessage s = { s with outq := rest, resp := .msg (some m) } := by
  simp only [popMessage, h]
  rfl

theorem exec_pop_of_cfgOk {s : State} (h : s.cfgOk = true) : exec .pop s = .next (popMessage s) :=
  congrArg Host.Outcome.next (if_pos h)

theorem exec_pop_of_inert {s : State} (h : s.cfgOk = false) : exec .pop s = .next { s with resp := .msg none } :=
  congrArg Host.Outcome.next (if_neg (by simp [h]))

/-- Settles O14: by the cases of `cfgOk` and of the queue; a word of opcode 0x10 other than its command word holds a
reserved bit. -/
theorem popTakesTheOldestMessage : Obligations.PopTakesTheOldestMessage := by
  refine ⟨fun s m rest hok hq => ?cons, fun s hok hq => ?nil, fun s => exec_pop_of_inert, by decide,
    fun w s hw hne => runWord_of_ne_cmdWord (by decide) hw hne s⟩
  case cons => rw [exec_pop_of_cfgOk hok, popMessage_of_cons hq]
  case nil =>
    rw [exec_pop_of_cfgOk hok, popMessage_of_nil hq]
    rfl

/-! ### The CSR map -/

/-- R60: the gaps of the map, behind WINDOW_LEN, behind UNIT_COUNT_HI and behind the last of the 22 counters. -/
theorem csrOfNum_eq_none_iff {n : CsrNum} :
    csrOfNum n = none ↔ (0x009 ≤ n ∧ n ≤ 0x00F) ∨ (0x012 ≤ n ∧ n ≤ 0x01F) ∨ 0x036 ≤ n := by
  have hcounters (k : Nat) : counterNames[k - 0x020]? = none ↔ 22 ≤ k - 0x020 := List.getElem?_eq_none_iff
  simp only [BitVec.le_def, BitVec.reduceToNat]
  unfold csrOfNum
  split
  case h_12 =>
    split
    · rw [Option.map_eq_none_iff, hcounters]
      omega
    · simp only [true_iff, imp_false] at *
      omega
  all_goals
    simp only [reduceCtorEq, false_iff]
    omega

/-- R60: CTRL is the register of number 0 and of no other. -/
theorem csrOfNum_eq_ctrl_iff {n : CsrNum} : csrOfNum n = some .ctrl ↔ n = 0x000 := by
  refine ⟨fun h => ?_, fun h => h ▸ rfl⟩
  unfold csrOfNum at h
  split at h
  case h_1 hn => exact BitVec.eq_of_toNat_eq hn
  case h_12 =>
    split at h
    · obtain ⟨name, -, hname⟩ := Option.map_eq_some_iff.1 h
      cases hname
    · cases h
  all_goals cases h

/-- BAD_CSR is bit 5 of ERR (R62). -/
theorem reportError_badCsr (r : Resp) (s : State) :
    reportError .badCsr r s = { s with err := s.err ||| 0x20, ctr := s.ctr.add .illegalCmd 1, resp := r } := rfl

/-! ### RDCSR -/

theorem exec_rdcsr_unassigned {n : CsrNum} (h : csrOfNum n = none) (s : State) :
    exec (.rdcsr n) s = .next { s with err := s.err ||| 0x20, ctr := s.ctr.add .illegalCmd 1, resp := .csr 0 } := by
  rw [← reportError_badCsr]
  simp only [exec, execRdcsr, h]

/-- Settles O17: a read depends on the map alone, whose gaps are the unassigned numbers; RDCSR uses the CSR field but no
DATA bit. -/
theorem readOfCsr : Obligations.ReadOfCsr := by
  refine ⟨fun s n c h => exec_rdcsr_assigned h s,
    fun s n h => exec_rdcsr_unassigned (csrOfNum_eq_none_iff.2 h) s,
    fun n => csrOfNum_eq_none_iff, fun w s hw hbits => ?_⟩
  change opcOf w = 0x20 at hw
  have hreserved : reservedNonzero w = true := by
    obtain hrsvd | hdata := hbits
    · exact reservedNonzero_iff.2 (.inl hrsvd)
    · exact reservedNonzero_of_data (by decide) (by rw [hw]; decide) hdata
  exact runWord_of_reservedNonzero (by decide) hw hreserved s

/-! ### WRCSR -/

/-- R63: the two strobes touch different state elements. -/
theorem writeCtrl_eq (v : U32) (s : State) :
    writeCtrl v s = { s with
      ctr := if v.getLsbD 0 then Counters.zero else s.ctr
      err := if v.getLsbD 1 then s.err &&& 0x1 else s.err } := by
  unfold writeCtrl
  cases v.getLsbD 0 <;> cases v.getLsbD 1 <;> rfl

theorem exec_wrcsr_ctrl (v : U32) (s : State) : exec (.wrcsr 0x000 v) s = .next ((writeCtrl v s).respond .none) := rfl

/-- R440: read-only and unassigned numbers alike. -/
theorem exec_wrcsr_of_ne_ctrl {n : CsrNum} (h : csrOfNum n ≠ some .ctrl) (v : U32) (s : State) :
    exec (.wrcsr n v) s = .next { s with err := s.err ||| 0x20, ctr := s.ctr.add .illegalCmd 1, resp := .none } := by
  refine congrArg Host.Outcome.next ?_
  split
  · contradiction
  · rfl

/-- Settles O19: CTRL is number 0 alone, so a write is the two strobes there and BAD_CSR at every other number. -/
theorem writeOfCsr : Obligations.WriteOfCsr := by
  refine ⟨fun s v => ?ctrl, Counters.get_zero, exec_rdcsr_assigned (csrOfNum_eq_ctrl_iff.2 rfl),
    fun s n v hn => exec_wrcsr_of_ne_ctrl (mt csrOfNum_eq_ctrl_iff.1 hn) v s, fun w s hw hrsvd => ?reserved⟩
  case ctrl =>
    rw [exec_wrcsr_ctrl, writeCtrl_eq]
    rfl
  case reserved => exact runWord_of_reservedNonzero (by decide) hw (reservedNonzero_iff.2 (.inl hrsvd)) s

end Sys2Proof.Machine

/-! The inert core (60_exceptions.md R455): what each command does without `cfg_ok`, and that every step keeps the
power-on values. -/

namespace Sys2Proof.Machine

/-! ### The bits of ERR (10_state.md R62) -/

theorem ErrBit.code_lt (e : ErrBit) : e.code < 6 := by
  cases e <;> decide

/-- Recording an error sets the bit of its code and keeps the others. -/
theorem State.setErr_err_getLsbD (s : State) (e : ErrBit) (k : Nat) :
    (s.setErr e).err.getLsbD k = (s.err.getLsbD k || decide (e.code = k)) := by
  have hcode : e.code < 32 := e.code_lt.trans (by decide)
  have hbit : ((1 : U32) <<< e.code).getLsbD k = decide (e.code = k) :=
    (BitVec.getLsbD_twoPow e.code k).trans (by simp [hcode])
  rw [State.setErr_err, BitVec.getLsbD_or, hbit]

/-- CLR_ERR keeps bit 0 and clears the others (R63). -/
theorem clearErrors_err_getLsbD (s : State) (k : Nat) :
    (clearErrors s).err.getLsbD k = (s.err.getLsbD k && decide (k = 0)) := by
  have hbit : (1 : U32).getLsbD k = decide (k = 0) := by simp [BitVec.getLsbD_one]
  exact (BitVec.getLsbD_and (x := s.err)).trans (congrArg (s.err.getLsbD k && ·) hbit)

/-! ### The commands of an inert core -/

theorem pushCommand_of_inert {s : State} (h : s.cfgOk = false) (kind : UnitKind) (accepted : State → State) :
    pushCommand kind accepted s = { s with resp := .none } := by
  obtain ⟨-, he⟩ | ⟨hok, -⟩ | ⟨hok, -⟩ := pushCommand_cases kind accepted s
  · exact he
  · exact absurd hok (by simp [h])
  · exact absurd hok (by simp [h])

theorem exec_pushBit_of_inert {s : State} (h : s.cfgOk = false) (b : Bool) :
    exec (.pushBit b) s = .next { s with resp := .none } := congrArg Host.Outcome.next (pushCommand_of_inert h _ _)

theorem exec_pushDibit_of_inert {s : State} (h : s.cfgOk = false) (d : Dibit) :
    exec (.pushDibit d) s = .next { s with resp := .none } := congrArg Host.Outcome.next (pushCommand_of_inert h _ _)

theorem exec_pushSoft_of_inert {s : State} (h : s.cfgOk = false) (v : Binary32) :
    exec (.pushSoft v) s = .next { s with resp := .none } := congrArg Host.Outcome.next (pushCommand_of_inert h _ _)

/-- A command of an inert core only responds, or is a BAD_CSR, or writes CTRL. -/
theorem exec_cases_of_inert {s : State} (h : s.cfgOk = false) (i : Instr) :
    (∃ r, exec i s = .next (s.respond r)) ∨ (∃ r, exec i s = .next (reportError .badCsr r s)) ∨
      ∃ v, exec i s = .next ((writeCtrl v s).respond .none) := by
  cases i with
  | nop => exact .inl ⟨_, exec_nop s⟩
  | pushBit b => exact .inl ⟨_, exec_pushBit_of_inert h b⟩
  | pushDibit d => exact .inl ⟨_, exec_pushDibit_of_inert h d⟩
  | pushSoft v => exact .inl ⟨_, exec_pushSoft_of_inert h v⟩
  | reset => exact .inl ⟨_, exec_reset_of_inert h⟩
  | pop => exact .inl ⟨_, exec_pop_of_inert h⟩
  | rdcsr n =>
    cases hn : csrOfNum n with
    | none => exact .inr (.inl ⟨_, exec_rdcsr_unassigned hn s⟩)
    | some c => exact .inl ⟨_, exec_rdcsr_assigned hn s⟩
  | wrcsr n v =>
    by_cases hn : csrOfNum n = some .ctrl
    · obtain rfl := csrOfNum_eq_ctrl_iff.1 hn
      exact .inr (.inr ⟨v, exec_wrcsr_ctrl v s⟩)
    · exact .inr (.inl ⟨_, exec_wrcsr_of_ne_ctrl hn v s⟩)

/-! ### What keeps the power-on values -/

theorem inertInv_of_cfgOk {s : State} (h : s.cfgOk = true) : InertInv s :=
  fun hinert => absurd h (by simp [hinert])

/-- R455 says nothing of the response. -/
theorem respond_inertInv {s : State} (hs : InertInv s) (r : Resp) : InertInv (s.respond r) := hs

/-- R455 says nothing of the commands the host has issued. -/
theorem setCmds_inertInv {s : State} (hs : InertInv s) (ws : List Word) : InertInv (s.setCmds ws) := hs

/-- The codes are below 6, and bit 0 is set already; the counter is ILLEGAL_CMD. -/
theorem reportError_inertInv {s : State} (hs : InertInv s) (e : ErrBit) (r : Resp) :
    InertInv (reportError e r s) := by
  intro hinert
  obtain ⟨hlock, hwindow, hseqs, houtq, hcount, hbit0, hhigh, hctr⟩ := hs hinert
  refine ⟨hlock, hwindow, hseqs, houtq, hcount, ?_, fun k hk => ?_, fun name hname => ?_⟩
  · exact (s.setErr_err_getLsbD e 0).trans (by simp [hbit0])
  · exact (s.setErr_err_getLsbD e k).trans (by simp [hhigh k hk, (e.code_lt.trans_le hk).ne])
  · exact (s.ctr.get_add_ne hname 1).trans (hctr name hname)

theorem clearCounters_inertInv {s : State} (hs : InertInv s) : InertInv (clearCounters s) := by
  intro hinert
  obtain ⟨hlock, hwindow, hseqs, houtq, hcount, hbit0, hhigh, -⟩ := hs hinert
  exact ⟨hlock, hwindow, hseqs, houtq, hcount, hbit0, hhigh, fun name _ => Counters.get_zero name⟩

theorem clearErrors_inertInv {s : State} (hs : InertInv s) : InertInv (clearErrors s) := by
  intro hinert
  obtain ⟨hlock, hwindow, hseqs, houtq, hcount, hbit0, hhigh, hctr⟩ := hs hinert
  refine ⟨hlock, hwindow, hseqs, houtq, hcount, ?_, fun k hk => ?_, hctr⟩
  · rw [clearErrors_err_getLsbD, hbit0]
    rfl
  · rw [clearErrors_err_getLsbD, hhigh k hk, Bool.false_and]

theorem writeCtrl_inertInv {s : State} (hs : InertInv s) (v : U32) : InertInv (writeCtrl v s) := by
  unfold writeCtrl
  split <;> split
  · exact clearErrors_inertInv (clearCounters_inertInv hs)
  · exact clearCounters_inertInv hs
  · exact clearErrors_inertInv hs
  · exact hs

theorem rejectWord_inertInv {s : State} (hs : InertInv s) (r : Reject) : InertInv (rejectWord r s) := by
  cases r with
  | illegal => exact reportError_inertInv hs _ _
  | reserved => exact reportError_inertInv hs _ _

/-! ### Every command and every step -/

theorem exec_inertInv {i : Instr} {s t : State} (hs : InertInv s) (h : exec i s = .next t) : InertInv t := by
  cases hok : s.cfgOk with
  | true => exact inertInv_of_cfgOk ((exec_sameConfig h).cfgOk.trans hok)
  | false =>
    obtain ⟨r, he⟩ | ⟨r, he⟩ | ⟨v, he⟩ := exec_cases_of_inert hok i <;>
      obtain rfl := Host.Outcome.next.inj (he.symm.trans h)
    · exact respond_inertInv hs r
    · exact reportError_inertInv hs _ r
    · exact respond_inertInv (writeCtrl_inertInv hs v) _

theorem runWord_inertInv {w : Word} {s t : State} (hs : InertInv s) (h : runWord w s = .next t) : InertInv t := by
  obtain ⟨i, -, hrun⟩ | ⟨r, -, hrun⟩ := runWord_cases w s <;> rw [hrun] at h
  · exact exec_inertInv hs h
  · obtain rfl := Host.Outcome.next.inj h
    exact rejectWord_inertInv hs r

theorem step_inertInv {s t : State} (hs : InertInv s) (h : step s = .next t) : InertInv t := by
  obtain ⟨-, hstep⟩ | ⟨w, rest, -, hstep⟩ := step_cases s <;> rw [hstep] at h
  · obtain rfl := Host.Outcome.next.inj h
    exact hs
  · exact runWord_inertInv (setCmds_inertInv hs rest) h

/-- Settles O23: the effect of each command without `cfg_ok`, and `InertInv` kept by the few operations that a step of
an inert core is made of. -/
theorem inertCoreIgnoresCommands : Obligations.InertCoreIgnoresCommands := by
  refine ⟨fun s hinert => ⟨exec_pushBit_of_inert hinert, exec_pushDibit_of_inert hinert, exec_pushSoft_of_inert hinert,
    exec_reset_of_inert hinert, exec_pop_of_inert hinert, exec_nop s, exec_rdcsr_assigned (c := .err) rfl s, ?ctrl⟩,
    fun s t => step_inertInv⟩
  case ctrl =>
    rw [exec_wrcsr_ctrl, writeCtrl_eq]
    rfl

end Sys2Proof.Machine

/-! Encoding and decoding (30_encoding.md R152 to R167): the words that decode, each as the encoding of its command, and
the row of the opcode table that covers it. -/

namespace Sys2Proof

/-! ### The words that decode -/

/-- R155: what a word without a reserved bit leaves to its operands. -/
theorem reservedNonzero_eq_false_iff {w : Word} :
    reservedNonzero w = false ↔ rsvdOf w = 0 ∧ (usesCsr (opcOf w) = false → csrOf w = 0) ∧
      dataOf w &&& ~~~ (usedData (opcOf w)) = 0 := by
  rw [← Bool.not_eq_true, reservedNonzero_iff]
  push Not
  rfl

/-- R152: a word of an assigned opcode without a reserved bit decodes to the command of its opcode. -/
theorem decode_of_assemble {w : Word} {i : Instr} (hopc : opcAssigned (opcOf w) = true)
    (hres : reservedNonzero w = false) (h : assemble w = some i) : decode w = .ok i := by
  simp [decode, hopc, hres, h]

/-- R152: and no other word decodes. -/
theorem decode_eq_ok {w : Word} {i : Instr} (h : decode w = .ok i) :
    opcAssigned (opcOf w) = true ∧ reservedNonzero w = false ∧ assemble w = some i := by
  cases hopc : opcAssigned (opcOf w) with
  | false => simp [decode_of_unassigned hopc] at h
  | true =>
    cases hres : reservedNonzero w with
    | true => simp [decode_of_reservedNonzero hopc hres] at h
    | false =>
      cases ha : assemble w with
      | none => simp [decode, hopc, hres, ha] at h
      | some j =>
        rw [decode_of_assemble hopc hres ha] at h
        exact ⟨rfl, rfl, congrArg some (Except.ok.inj h)⟩

/-- R154: every assigned opcode has a command. -/
theorem assemble_isSome {w : Word} (h : opcAssigned (opcOf w) = true) : ∃ i, assemble w = some i := by
  rw [opcAssigned_iff] at h
  simp only [List.mem_cons, List.not_mem_nil, or_false] at h
  rcases h with h | h | h | h | h | h | h | h <;> exact ⟨_, by simp only [assemble, h]; rfl⟩

/-- R152, R167: the words that decode. -/
theorem exists_decode_eq_ok_iff {w : Word} :
    (∃ i, decode w = .ok i) ↔ opcAssigned (opcOf w) = true ∧ reservedNonzero w = false := by
  constructor
  · rintro ⟨i, h⟩
    obtain ⟨hopc, hres, -⟩ := decode_eq_ok h
    exact ⟨hopc, hres⟩
  · rintro ⟨hopc, hres⟩
    obtain ⟨i, hi⟩ := assemble_isSome hopc
    exact ⟨i, decode_of_assemble hopc hres hi⟩

/-! ### Encoding, then decoding -/

/-- R155: a command word has no reserved bit when its fields hold none. -/
theorem reservedNonzero_cmdWord {opc : U8} {csrn : CsrNum} {data : U32} (hcsr : usesCsr opc = false → csrn = 0)
    (hdata : data &&& ~~~ (usedData opc) = 0) : reservedNonzero (cmdWord opc csrn data) = false :=
  reservedNonzero_eq_false_iff.2 (by simpa using ⟨hcsr, hdata⟩)

/-- R155: no field of a command's word holds a bit its opcode does not use. -/
theorem reservedNonzero_encode (i : Instr) : reservedNonzero (encode i) = false := by
  cases i with
  | nop | reset | pop => rfl
  | pushBit b => cases b <;> rfl
  | pushDibit d => exact reservedNonzero_cmdWord (fun _ => rfl) (by revert d; decide)
  | pushSoft v => exact reservedNonzero_cmdWord (fun _ => rfl) (by simp [usedData])
  | rdcsr n => exact reservedNonzero_cmdWord (fun h => absurd h (by decide)) (by decide)
  | wrcsr n v => exact reservedNonzero_cmdWord (fun h => absurd h (by decide)) (by simp [usedData])

/-- R165: the opcode of each command's word is assigned. -/
theorem opcAssigned_encode (i : Instr) : opcAssigned (opcOf (encode i)) = true := by
  cases i <;> rw [encode, opcOf_cmdWord] <;> rfl

/-- R156, R165: each operand is read where the encoding puts it. -/
theorem assemble_encode (i : Instr) : assemble (encode i) = some i := by
  cases i with
  | nop | reset | pop => rfl
  | pushBit b => simp [assemble, encode]
  | pushDibit d =>
    have hd : (d.setWidth 32).extractLsb' 0 2 = d := by revert d; decide
    simp [assemble, encode, hd]
  | pushSoft v => simp [assemble, encode]
  | rdcsr n => simp [assemble, encode]
  | wrcsr n v => simp [assemble, encode]

theorem decode_encode (i : Instr) : decode (encode i) = .ok i :=
  decode_of_assemble (opcAssigned_encode i) (reservedNonzero_encode i) (assemble_encode i)

/-- Settles O1: the word of a command has its opcode and no reserved bit, and its operands stand in their fields. -/
theorem decodeOfEncode : Obligations.DecodeOfEncode := decode_encode

/-- Settles O3: the eight command words are the encodings of what they decode to; the others fail the first and the
second check of R152. -/
theorem commandWordsDecode : Obligations.CommandWordsDecode :=
  ⟨decode_encode .nop, decode_encode (.pushBit true), decode_encode (.pushDibit 2),
    decode_encode (.pushSoft 0x40200000), decode_encode .reset, decode_encode .pop, decode_encode (.rdcsr 0x7FF),
    decode_encode (.wrcsr 0x000 3), decode_of_unassigned (by decide), decode_of_reservedNonzero (by decide) (by decide)⟩

/-! ### Decoding, then encoding -/

/-- R155: a bit outside the used ones of a word without a reserved bit. -/
theorem getLsbD_eq_false_of_unused {data used : U32} {k i : Nat} (hused : used.toNat < 2 ^ k)
    (h : data &&& ~~~ used = 0) (hi : k ≤ i) : data.getLsbD i = false := by
  by_cases h32 : i < 32
  · have hfree : used.getLsbD i = false :=
      Nat.testBit_lt_two_pow (hused.trans_le (Nat.pow_le_pow_right Nat.zero_lt_two hi))
    have hbit : (data &&& ~~~ used).getLsbD i = false := by rw [h]; exact BitVec.getLsbD_zero
    rwa [BitVec.getLsbD_and, BitVec.getLsbD_not, hfree, decide_eq_true h32, Bool.not_false, Bool.and_true,
      Bool.and_true] at hbit
  · exact BitVec.getLsbD_of_ge _ _ (Nat.le_of_not_lt h32)

/-- A DATA field whose bits from `k` on are zero, by its `k` low bits. -/
theorem setWidth_extractLsb'_of_low {data : U32} {k : Nat} (h : ∀ i, k ≤ i → data.getLsbD i = false) :
    (data.extractLsb' 0 k).setWidth 32 = data := by
  refine BitVec.eq_of_getLsbD_eq fun i hi => ?_
  by_cases hk : i < k
  · simp [hi, hk]
  · simp [hk, h i (Nat.le_of_not_lt hk)]

theorem ofBool_getLsbD_zero (data : U32) : BitVec.ofBool (data.getLsbD 0) = data.extractLsb' 0 1 := by
  refine BitVec.eq_of_getLsbD_eq fun i hi => ?_
  obtain rfl : i = 0 := by omega
  simp

theorem eq_setWidth_ofBool_of_low {data : U32} (h : ∀ i, 1 ≤ i → data.getLsbD i = false) :
    data = (BitVec.ofBool (data.getLsbD 0)).setWidth 32 := by
  rw [ofBool_getLsbD_zero, setWidth_extractLsb'_of_low h]

/-- R155: an opcode that uses no DATA bit. -/
theorem eq_zero_of_unused {data : U32} (h : data &&& ~~~ (0x00000000 : U32) = 0) : data = 0 := by
  rwa [BitVec.ofNat_eq_ofNat, BitVec.not_zero, BitVec.and_allOnes] at h

/-- A word without a reserved bit, by the fields its opcode uses. -/
theorem encode_eq_of_fields {w : Word} {i : Instr} {csrn : CsrNum} {data : U32}
    (hi : encode i = cmdWord (opcOf w) csrn data) (hrsvd : rsvdOf w = 0) (hcsr : csrOf w = csrn)
    (hdata : dataOf w = data) : encode i = w := by
  rw [hi, ← hcsr, ← hdata, cmdWord_of_fields w hrsvd]

/-- R167: a word that decodes is the encoding of its command. -/
theorem encode_of_decode {w : Word} {i : Instr} (h : decode w = .ok i) : encode i = w := by
  obtain ⟨hopc, hres, hi⟩ := decode_eq_ok h
  obtain ⟨hrsvd, hcsr, hdata⟩ := reservedNonzero_eq_false_iff.1 hres
  rw [opcAssigned_iff] at hopc
  simp only [List.mem_cons, List.not_mem_nil, or_false] at hopc
  rcases hopc with ho | ho | ho | ho | ho | ho | ho | ho <;>
    (simp only [assemble, ho] at hi; obtain rfl := Option.some.inj hi; rw [ho] at hcsr hdata)
  · exact encode_eq_of_fields (by rw [ho]; rfl) hrsvd (hcsr rfl) (eq_zero_of_unused hdata)
  · exact encode_eq_of_fields (by rw [ho]; rfl) hrsvd (hcsr rfl)
      (eq_setWidth_ofBool_of_low fun _ => getLsbD_eq_false_of_unused (by decide) hdata)
  · exact encode_eq_of_fields (by rw [ho]; rfl) hrsvd (hcsr rfl) 
      (setWidth_extractLsb'_of_low fun _ => getLsbD_eq_false_of_unused (by decide) hdata).symm
  · exact encode_eq_of_fields (by rw [ho]; rfl) hrsvd (hcsr rfl) rfl
  · exact encode_eq_of_fields (by rw [ho]; rfl) hrsvd (hcsr rfl) (eq_zero_of_unused hdata)
  · exact encode_eq_of_fields (by rw [ho]; rfl) hrsvd (hcsr rfl) (eq_zero_of_unused hdata)
  · exact encode_eq_of_fields (by rw [ho]; rfl) hrsvd rfl (eq_zero_of_unused hdata)
  · exact encode_eq_of_fields (by rw [ho]; rfl) hrsvd rfl rfl

/-! ### The opcode table -/

theorem opcOf_and (v w : Word) : opcOf (v &&& w) = opcOf v &&& opcOf w := BitVec.extractLsb'_and
theorem rsvdOf_and (v w : Word) : rsvdOf (v &&& w) = rsvdOf v &&& rsvdOf w := BitVec.extractLsb'_and
theorem csrOf_and (v w : Word) : csrOf (v &&& w) = csrOf v &&& csrOf w := BitVec.extractLsb'_and
theorem dataOf_and (v w : Word) : dataOf (v &&& w) = dataOf v &&& dataOf w := BitVec.extractLsb'_and

/-- R154, R155: a row's pattern holds the opcode alone, and its mask leaves out exactly the bits the opcode uses. -/
structure RowOfOpcode (r : OpcodeRow) (opc : U8) : Prop where
  pattern : r.pattern = cmdWord opc 0 0
  opcMask : opcOf r.mask = BitVec.allOnes 8
  rsvdMask : rsvdOf r.mask = BitVec.allOnes 12
  csrMask : usesCsr opc = false → csrOf r.mask = BitVec.allOnes 12
  dataMask : dataOf r.mask = ~~~ (usedData opc)

/-- A word a row covers has the row's opcode and no reserved bit. -/
theorem RowOfOpcode.of_covers {r : OpcodeRow} {opc : U8} (hr : RowOfOpcode r opc) {w : Word} (h : r.covers w = true) :
    opcOf w = opc ∧ reservedNonzero w = false := by
  have hw : w &&& r.mask = cmdWord opc 0 0 := (beq_iff_eq.1 h).trans hr.pattern
  have hopc : opcOf w = opc := by
    rw [← opcOf_cmdWord opc 0 0, ← hw, opcOf_and, hr.opcMask, BitVec.and_allOnes]
  have hrsvd : rsvdOf w = 0 := by
    rw [← rsvdOf_cmdWord opc 0 0, ← hw, rsvdOf_and, hr.rsvdMask, BitVec.and_allOnes]
  have hdata : dataOf w &&& ~~~ (usedData opc) = 0 := by
    rw [← dataOf_cmdWord opc 0 0, ← hw, dataOf_and, hr.dataMask]
  refine ⟨hopc, reservedNonzero_eq_false_iff.2 ⟨hrsvd, fun hu => ?_, hopc ▸ hdata⟩⟩
  rw [← csrOf_cmdWord opc 0 0, ← hw, csrOf_and, hr.csrMask (hopc ▸ hu), BitVec.and_allOnes]

theorem exists_rowOfOpcode {r : OpcodeRow} (h : r ∈ opcodeTable) :
    ∃ opc, opcAssigned opc = true ∧ RowOfOpcode r opc := by
  simp only [opcodeTable, List.mem_cons, List.not_mem_nil, or_false] at h
  rcases h with rfl | rfl | rfl | rfl | rfl | rfl | rfl | rfl
  · exact ⟨0x00, by decide, by constructor <;> decide⟩
  · exact ⟨0x01, by decide, by constructor <;> decide⟩
  · exact ⟨0x02, by decide, by constructor <;> decide⟩
  · exact ⟨0x03, by decide, by constructor <;> decide⟩
  · exact ⟨0x08, by decide, by constructor <;> decide⟩
  · exact ⟨0x10, by decide, by constructor <;> decide⟩
  · exact ⟨0x20, by decide, by constructor <;> decide⟩
  · exact ⟨0x21, by decide, by constructor <;> decide⟩

/-- Every instruction's word is covered by the instruction's row. -/
theorem wellFormed_encode (i : Instr) : WellFormed (encode i) = true := by
  have h : Laws.EncodesInItsRow.Statement i := by
    cases i with
    | nop => exact Laws.EncodesInItsRow.nop
    | pushBit b => exact Laws.EncodesInItsRow.pushBit b
    | pushDibit d => exact Laws.EncodesInItsRow.pushDibit d
    | pushSoft v => exact Laws.EncodesInItsRow.pushSoft v
    | reset => exact Laws.EncodesInItsRow.reset
    | pop => exact Laws.EncodesInItsRow.pop
    | rdcsr n => exact Laws.EncodesInItsRow.rdcsr n
    | wrcsr n v => exact Laws.EncodesInItsRow.wrcsr n v
  obtain ⟨hmem, hcovers⟩ := h
  exact List.any_eq_true.2 ⟨i.row, hmem, hcovers⟩

/-- Settles O2: a word that a row covers has an assigned opcode and no reserved bit, so it decodes; one that decodes is
the encoding of its command, which the command's row covers. -/
theorem decodableWordsAreTheTablesWords : Obligations.DecodableWordsAreTheTablesWords := by
  refine fun w => ⟨⟨fun h => ?_, ?_⟩, fun i => encode_of_decode⟩
  · obtain ⟨r, hr, hcovers⟩ := List.any_eq_true.1 h
    obtain ⟨opc, hassigned, hrow⟩ := exists_rowOfOpcode hr
    obtain ⟨rfl, hres⟩ := hrow.of_covers hcovers
    exact exists_decode_eq_ok_iff.2 ⟨hassigned, hres⟩
  · rintro ⟨i, hi⟩
    exact encode_of_decode hi ▸ wellFormed_encode i

end Sys2Proof

namespace Sys2Proof.Machine

/-! ### Running a command word -/

/-- A word that decodes runs its command (R152). -/
theorem runWord_of_decode_ok {w : Word} {i : Instr} (h : decode w = .ok i) (s : State) : runWord w s = exec i s := by
  simp only [runWord, h]

/-- R165: the word that encodes a command runs it. -/
theorem runWord_of_encode {w : Word} {i : Instr} (h : encode i = w) (s : State) : runWord w s = exec i s :=
  runWord_of_decode_ok (h ▸ decode_encode i) s

/-- Zero bits of a word, one by one. -/
theorem getLsbD_eq_false_of_extractLsb' {w : Word} {a n i : Nat} (h : w.extractLsb' a n = 0) (ha : a ≤ i)
    (hn : i < a + n) : w.getLsbD i = false := by
  have hbit : (w.extractLsb' a n).getLsbD (i - a) = false := by rw [h]; exact BitVec.getLsbD_zero
  rwa [BitVec.getLsbD_extractLsb', decide_eq_true (show i - a < n by omega), Bool.true_and,
    Nat.add_sub_cancel' ha] at hbit

/-- A field of a word that lies within zero bits of it. -/
theorem extractLsb'_eq_zero_of_within {w : Word} {a n b k : Nat} (h : w.extractLsb' a n = 0) (ha : a ≤ b)
    (hn : b + k ≤ a + n) : w.extractLsb' b k = 0 := by
  refine BitVec.eq_of_getLsbD_eq fun i hi => ?_
  rw [BitVec.getLsbD_extractLsb', getLsbD_eq_false_of_extractLsb' h (by omega) (by omega)]
  simp

/-- The DATA bits from `k` on of a word whose bits from `k` to the CSR field are zero. -/
theorem dataOf_low_of_extractLsb' {w : Word} {k : Nat} (h : w.extractLsb' k (44 - k) = 0) (i : Nat) (hi : k ≤ i) :
    (dataOf w).getLsbD i = false := by
  by_cases h32 : i < 32
  · rw [dataOf, BitVec.getLsbD_extractLsb', Nat.zero_add, getLsbD_eq_false_of_extractLsb' h hi (by omega),
      Bool.and_false]
  · exact BitVec.getLsbD_of_ge _ _ (Nat.le_of_not_lt h32)

/-- Settles O6: a word with zero reserved bits is the encoding of the command its opcode names. -/
theorem opcodeSelectsTheCommand : Obligations.OpcodeSelectsTheCommand := by
  intro w s hrsvd
  have hzero (i : Instr) (hi : encode i = cmdWord (opcOf w) 0 0) (h : w.extractLsb' 0 44 = 0) :
      runWord w s = exec i s :=
    runWord_of_encode (encode_eq_of_fields hi hrsvd (extractLsb'_eq_zero_of_within h (by decide) (by decide))
      (extractLsb'_eq_zero_of_within h (by decide) (by decide))) s
  refine ⟨fun ho h => ?_, fun ho h => ?_, fun ho h => ?_, fun ho h => ?_, fun ho h => ?_, fun ho h => ?_,
    fun ho h => ?_, fun ho => ?_⟩ <;> change opcOf w = _ at ho
  · exact hzero .nop (by rw [ho]; rfl) h
  · have hbit : dataOf w = (BitVec.ofBool (w.getLsbD 0)).setWidth 32 := by
      simpa [dataOf] using eq_setWidth_ofBool_of_low (dataOf_low_of_extractLsb' h)
    exact runWord_of_encode (encode_eq_of_fields (by rw [ho]; rfl) hrsvd
      (extractLsb'_eq_zero_of_within h (by decide) (by decide)) hbit) s
  · have hdibit : dataOf w = (w.extractLsb' 0 2).setWidth 32 := by
      simpa [dataOf] using (setWidth_extractLsb'_of_low (dataOf_low_of_extractLsb' h)).symm
    exact runWord_of_encode (encode_eq_of_fields (by rw [ho]; rfl) hrsvd
      (extractLsb'_eq_zero_of_within h (by decide) (by decide)) hdibit) s
  · exact runWord_of_encode (encode_eq_of_fields (by rw [ho]; rfl) hrsvd h rfl) s
  · exact hzero .reset (by rw [ho]; rfl) h
  · exact hzero .pop (by rw [ho]; rfl) h
  · exact runWord_of_encode (encode_eq_of_fields (by rw [ho]; rfl) hrsvd rfl h) s
  · exact runWord_of_encode (encode_eq_of_fields (by rw [ho]; rfl) hrsvd rfl rfl) s

end Sys2Proof.Machine

/-! Commands and steps: what a command can do, said once; what an invariant has to survive to be kept by every step; and
the sticky error bits (10_state.md R62). -/

namespace Sys2Proof.Machine

/-! ### What a command can do -/

/-- The state an accepted PUSH leaves before its response (40_sync_detector.md R201). -/
def afterPush (i : Instr) (u : InputUnit) (s : State) : State :=
  framerStep (detection s.cfg (windowWith s u)) (unitBits u) s.unitCount
    (countDetection (detection s.cfg (windowWith s u)) (admitted i u s))

theorem exec_push {i : Instr} {u : InputUnit} {s : State} (hok : s.cfgOk = true) (hu : pushedUnit s i = some u) :
    exec i s = .next ((afterPush i u s).respond .none) := exec_of_pushedUnit hok hu

theorem afterPush_base (i : Instr) (u : InputUnit) (s : State) : SameBase (admitted i u s) (afterPush i u s) :=
  (countDetection_base _ _).trans (framerStep_base _ _ _ _)

theorem afterPush_output (i : Instr) (u : InputUnit) (s : State) : Output (admitted i u s) (afterPush i u s) :=
  .of_quiet_left (countDetection_quiet _ _) (countDetection_base _ _).par (framerStep_output _ _ _ _)

/-- What a command can do: respond, record an error, accept a unit, clear the pipeline, pop a message, or write CTRL. -/
inductive ExecOutcome (s : State) : Instr → State → Prop
  | respond (i : Instr) (r : Resp) : ExecOutcome s i (s.respond r)
  | error (i : Instr) {e : ErrBit} (he : e ≠ .cfgInvalid) (r : Resp) : ExecOutcome s i (reportError e r s)
  | push {i : Instr} {u : InputUnit} (hok : s.cfgOk = true) (hu : pushedUnit s i = some u) :
      ExecOutcome s i ((afterPush i u s).respond .none)
  | reset (hok : s.cfgOk = true) : ExecOutcome s .reset ((resetPipeline s).respond .none)
  | pop {m : Message} {rest : List Message} (hok : s.cfgOk = true) (hq : s.outq = m :: rest) :
      ExecOutcome s .pop ((s.setOutq rest).respond (.msg (some m)))
  | ctrl (v : U32) : ExecOutcome s (.wrcsr 0x000 v) ((writeCtrl v s).respond .none)

/-- The three PUSHes alike: ignored, a mismatch, or accepted (R200). -/
theorem execOutcome_of_pushCommand {i : Instr} {kind : UnitKind} {accepted : State → State} {s t : State}
    (hi : exec i s = .next (pushCommand kind accepted s))
    (hu : s.cfg.unitKind = kind → ∃ u, pushedUnit s i = some u) (h : exec i s = .next t) : ExecOutcome s i t := by
  obtain ⟨-, he⟩ | ⟨-, -, he⟩ | ⟨hok, hk, -⟩ := pushCommand_cases kind accepted s
  · obtain rfl := Host.Outcome.next.inj ((he ▸ hi).symm.trans h)
    exact .respond i _
  · obtain rfl := Host.Outcome.next.inj ((he ▸ hi).symm.trans h)
    exact .error i (by decide) _
  · obtain ⟨u, hu⟩ := hu hk
    obtain rfl := Host.Outcome.next.inj ((exec_push hok hu).symm.trans h)
    exact .push hok hu

theorem exec_outcome {i : Instr} {s t : State} (h : exec i s = .next t) : ExecOutcome s i t := by
  cases i with
  | nop =>
    obtain rfl := Host.Outcome.next.inj h
    exact .respond _ _
  | pushBit b => exact execOutcome_of_pushCommand rfl (fun hk => ⟨_, if_pos hk⟩) h
  | pushDibit d => exact execOutcome_of_pushCommand rfl (fun hk => ⟨_, if_pos hk⟩) h
  | pushSoft v => exact execOutcome_of_pushCommand rfl (fun hk => ⟨_, if_pos hk⟩) h
  | reset =>
    obtain rfl := Host.Outcome.next.inj h
    split
    · exact .reset ‹_›
    · exact .respond _ _
  | pop =>
    cases hok : s.cfgOk with
    | false =>
      obtain rfl := Host.Outcome.next.inj ((exec_pop_of_inert hok).symm.trans h)
      exact .respond _ _
    | true =>
      obtain rfl := Host.Outcome.next.inj ((exec_pop_of_cfgOk hok).symm.trans h)
      cases hq : s.outq with
      | nil => exact popMessage_of_nil hq ▸ .respond _ _
      | cons m rest => exact popMessage_of_cons hq ▸ .pop hok hq
  | rdcsr n =>
    cases hn : csrOfNum n with
    | none =>
      obtain rfl := Host.Outcome.next.inj ((exec_rdcsr_unassigned hn s).symm.trans h)
      exact .error (e := .badCsr) _ (by decide) _
    | some c =>
      obtain rfl := Host.Outcome.next.inj ((exec_rdcsr_assigned hn s).symm.trans h)
      exact .respond _ _
  | wrcsr n v =>
    by_cases hn : csrOfNum n = some .ctrl
    · obtain rfl := csrOfNum_eq_ctrl_iff.1 hn
      obtain rfl := Host.Outcome.next.inj ((exec_wrcsr_ctrl v s).symm.trans h)
      exact .ctrl v
    · obtain rfl := Host.Outcome.next.inj ((exec_wrcsr_of_ne_ctrl hn v s).symm.trans h)
      exact .error (e := .badCsr) _ (by decide) _

theorem exec_next (i : Instr) (s : State) : ∃ t, exec i s = .next t := by
  cases i <;> exact ⟨_, rfl⟩

theorem runWord_next (w : Word) (s : State) : ∃ t, runWord w s = .next t := by
  obtain ⟨i, -, hrun⟩ | ⟨r, -, hrun⟩ := runWord_cases w s <;> rw [hrun]
  · exact exec_next i s
  · exact ⟨_, rfl⟩

/-- Settles O8: the arms of `exec`, `rejectWord` and the idle step all answer a next state. -/
theorem everyStepCompletes : Obligations.EveryStepCompletes := by
  refine ⟨fun s => ?_, runWord_next⟩
  obtain ⟨-, hstep⟩ | ⟨w, rest, -, hstep⟩ := step_cases s <;> rw [hstep]
  · exact ⟨s, rfl⟩
  · exact runWord_next w _

/-- A step with a command pending runs it at the state without it. -/
theorem step_of_cmds {s : State} {w : Word} {rest : List Word} (h : s.cmds = w :: rest) :
    step s = runWord w (s.setCmds rest) := by
  simp only [step, fetch, h]

/-- Settles O7: the step takes the head of the stream, and the decoder's answer settles what runs. -/
theorem stepRunsTheNextCommand : Obligations.StepRunsTheNextCommand := by
  refine fun s w rest => ⟨fun hc i hi => ?_, fun hc r hr => ?_, fun hc => ?_⟩
  · rw [step_of_cmds hc, runWord_of_decode_ok hi]
    rfl
  · rw [step_of_cmds hc, runWord_of_decode_error hr]
    rfl
  · simp only [step, fetch, hc]

/-! ### What an invariant has to survive -/

/-- A property of states that every operation a step is made of keeps. -/
structure KeptByOperations (Inv : State → Prop) : Prop where
  cmds : ∀ (s : State) (ws : List Word), Inv s → Inv (s.setCmds ws)
  respond : ∀ (s : State) (r : Resp), Inv s → Inv (s.respond r)
  error : ∀ (s : State) (e : ErrBit) (r : Resp), e ≠ .cfgInvalid → Inv s → Inv (reportError e r s)
  push : ∀ (s : State) (i : Instr) (u : InputUnit), s.cfgOk = true → pushedUnit s i = some u → Inv s →
    Inv (afterPush i u s)
  reset : ∀ s : State, Inv s → Inv (resetPipeline s)
  pop : ∀ (s : State) (m : Message) (rest : List Message), s.outq = m :: rest → Inv s → Inv (s.setOutq rest)
  ctrl : ∀ (s : State) (v : U32), Inv s → Inv (writeCtrl v s)

section KeptByOperations

variable {Inv : State → Prop} (hkept : KeptByOperations Inv)
include hkept

theorem KeptByOperations.exec {i : Instr} {s t : State} (hs : Inv s) (h : exec i s = .next t) : Inv t := by
  cases exec_outcome h with
  | respond _ r => exact hkept.respond _ r hs
  | error _ he r => exact hkept.error _ _ r he hs
  | push hok hu => exact hkept.respond _ _ (hkept.push _ _ _ hok hu hs)
  | reset => exact hkept.respond _ _ (hkept.reset _ hs)
  | pop _ hq => exact hkept.respond _ _ (hkept.pop _ _ _ hq hs)
  | ctrl v => exact hkept.respond _ _ (hkept.ctrl _ v hs)

theorem KeptByOperations.rejectWord {s : State} (hs : Inv s) (r : Reject) : Inv (rejectWord r s) := by
  cases r with
  | illegal => exact hkept.error _ _ _ (by decide) hs
  | reserved => exact hkept.error _ _ _ (by decide) hs

theorem KeptByOperations.step {s t : State} (hs : Inv s) (h : step s = .next t) : Inv t := by
  obtain ⟨-, hstep⟩ | ⟨w, rest, -, hstep⟩ := step_cases s <;> rw [hstep] at h
  · obtain rfl := Host.Outcome.next.inj h
    exact hs
  · have hs' := hkept.cmds s rest hs
    obtain ⟨i, -, hrun⟩ | ⟨r, -, hrun⟩ := runWord_cases w (s.setCmds rest) <;> rw [hrun] at h
    · exact hkept.exec hs' h
    · obtain rfl := Host.Outcome.next.inj h
      exact hkept.rejectWord hs' r

end KeptByOperations

/-! ### The error bits -/

/-- R380: a PUSH sets no error bit but OUTQ_OVERFLOW. -/
theorem Output.err_eq_or {s t : State} (h : Output s t) : t.err = s.err ∨ t.err = (s.setErr .outqOverflow).err := by
  obtain ⟨-, he⟩ | ⟨m, -, -, he⟩ | ⟨-, -, he⟩ := h
  · exact .inl he
  · exact .inl he
  · exact .inr he

theorem afterPush_err_eq_or (i : Instr) (u : InputUnit) (s : State) :
    (afterPush i u s).err = s.err ∨ (afterPush i u s).err = (s.setErr .outqOverflow).err :=
  (afterPush_output i u s).err_eq_or

/-- Recording an error clears no bit. -/
theorem State.setErr_err_of_getLsbD {s : State} {k : Nat} (h : s.err.getLsbD k = true) (e : ErrBit) :
    (s.setErr e).err.getLsbD k = true := by
  rw [s.setErr_err_getLsbD, h, Bool.true_or]

/-- R63: of the error bits a write of CTRL clears all but CFG_INVALID, with CLR_ERR alone. -/
theorem writeCtrl_err (v : U32) (s : State) :
    (writeCtrl v s).err = if v.getLsbD 1 then (clearErrors s).err else s.err := by
  rw [writeCtrl_eq]
  rfl

/-- Settles O20: a command leaves ERR alone or sets a bit of it, but for the strobe CLR_ERR, which keeps bit 0. -/
theorem errorBitsAreSticky : Obligations.ErrorBitsAreSticky := by
  intro i s t k h hk
  cases exec_outcome h with
  | respond | reset | pop => exact .inl hk
  | error _ _ r => exact .inl (State.setErr_err_of_getLsbD hk _)
  | push =>
    obtain he | he := afterPush_err_eq_or i _ s
    · exact .inl ((congrArg (fun e : U32 => e.getLsbD k) he).trans hk)
    · exact .inl ((congrArg (fun e : U32 => e.getLsbD k) he).trans (State.setErr_err_of_getLsbD hk _))
  | ctrl v =>
    by_cases hclr : v.getLsbD 1 = true ∧ k ≠ 0
    · exact .inr ⟨v, rfl, hclr⟩
    · refine .inl ?_
      rw [State.respond_err, writeCtrl_err]
      split
      · have h0 : k = 0 := by tauto
        rw [clearErrors_err_getLsbD, hk, decide_eq_true h0]
        rfl
      · exact hk

/-- The two properties of R62 see nothing of the state but ERR and `cfg_ok`. -/
theorem errInv_of_eq {s t : State} (hs : ErrInv s) (hok : t.cfgOk = s.cfgOk) (he : t.err = s.err) : ErrInv t := by
  rwa [ErrInv, hok, he]

theorem ErrBit.code_eq_zero_iff (e : ErrBit) : e.code = 0 ↔ e = .cfgInvalid := by
  cases e <;> decide

/-- Bits 1 to 5 may be set. -/
theorem setErr_errInv {s : State} (hs : ErrInv s) {e : ErrBit} (he : e ≠ .cfgInvalid) : ErrInv (s.setErr e) := by
  obtain ⟨hhigh, hbit0⟩ := hs
  have hcode : e.code ≠ 0 := mt e.code_eq_zero_iff.1 he
  refine ⟨fun k hk => ?_, ?_⟩
  · rw [s.setErr_err_getLsbD, hhigh k hk, decide_eq_false (e.code_lt.trans_le hk).ne, Bool.or_false]
  · rw [s.setErr_err_getLsbD, hbit0, decide_eq_false hcode, Bool.or_false, State.setErr_cfgOk]

theorem clearErrors_errInv {s : State} (hs : ErrInv s) : ErrInv (clearErrors s) := by
  obtain ⟨hhigh, hbit0⟩ := hs
  refine ⟨fun k hk => ?_, ?_⟩
  · rw [clearErrors_err_getLsbD, hhigh k hk, Bool.false_and]
  · rw [clearErrors_err_getLsbD, hbit0, decide_eq_true rfl, Bool.and_true, clearErrors_cfgOk]

theorem errInv_kept : KeptByOperations ErrInv where
  cmds _ _ hs := hs
  respond _ _ hs := hs
  error _ _ _ he hs := setErr_errInv hs he
  push s i u _ _ hs := by
    have hok : (afterPush i u s).cfgOk = s.cfgOk := (afterPush_base i u s).cfgOk
    obtain he | he := afterPush_err_eq_or i u s
    · exact errInv_of_eq hs hok he
    · exact errInv_of_eq (setErr_errInv hs (e := .outqOverflow) (by decide)) hok he
  reset _ hs := hs
  pop _ _ _ _ hs := hs
  ctrl s v hs := by
    have hok : (writeCtrl v s).cfgOk = s.cfgOk := (writeCtrl_sameConfig v s).cfgOk
    have he := writeCtrl_err v s
    split at he
    · exact errInv_of_eq (clearErrors_errInv hs) hok he
    · exact errInv_of_eq hs hok he

/-- Settles O60: only error bits 1 to 5 are ever set, and CLR_ERR keeps bit 0. -/
theorem stepKeepsErrWellFormed : Obligations.StepKeepsErrWellFormed := fun _ _ hs h => errInv_kept.step hs h

end Sys2Proof.Machine

/-! The host interface (log 2, log 3): no command reads the pending words or the old response, so every operation
commutes with writing other ones there. -/

namespace Sys2Proof.Machine

/-- The state with other pending words and another last response. -/
def State.withHost (s : State) (ws : List Word) (r : Resp) : State := { s with cmds := ws, resp := r }

@[simp] theorem State.withHost_cfg (s : State) (ws : List Word) (r : Resp) : (s.withHost ws r).cfg = s.cfg := rfl
@[simp] theorem State.withHost_par (s : State) (ws : List Word) (r : Resp) : (s.withHost ws r).par = s.par := rfl
@[simp] theorem State.withHost_cfgOk (s : State) (ws : List Word) (r : Resp) : (s.withHost ws r).cfgOk = s.cfgOk := rfl
@[simp] theorem State.withHost_lock (s : State) (ws : List Word) (r : Resp) : (s.withHost ws r).lock = s.lock := rfl
@[simp] theorem State.withHost_seqs (s : State) (ws : List Word) (r : Resp) : (s.withHost ws r).seqs = s.seqs := rfl

/-- An operation that neither reads nor writes the host interface. -/
def HostFree (op : State → State) : Prop := ∀ s ws r, op (s.withHost ws r) = (op s).withHost ws r

theorem HostFree.comp {op op' : State → State} (h' : HostFree op') (h : HostFree op) : HostFree (fun s => op' (op s)) :=
  fun s ws r => (congrArg op' (h s ws r)).trans (h' (op s) ws r)

/-- Two operations between which a part of the state outside the host interface decides. -/
theorem HostFree.ite {c : State → Prop} [∀ s, Decidable (c s)] (hc : ∀ s ws r, c (s.withHost ws r) ↔ c s)
    {op op' : State → State} (h : HostFree op) (h' : HostFree op') : HostFree fun s => if c s then op s else op' s := by
  intro s ws r
  by_cases hs : c s
  · simp only [if_pos hs, if_pos ((hc s ws r).2 hs), h s ws r]
  · simp only [if_neg hs, if_neg (mt (hc s ws r).1 hs), h' s ws r]

theorem hostFree_count (name : CounterName) (k : Nat) : HostFree fun s => s.count name k := fun _ _ _ => rfl

/-! ### The message factory -/

theorem emit_hostFree (m : Message) : HostFree (emit m) :=
  .ite (fun _ _ _ => .rfl) (fun _ _ _ => rfl) (fun _ _ _ => rfl)

theorem countUnknown_hostFree (h : Frame) : HostFree (countUnknown h) := by
  intro s ws r
  cases hv : variantOf? s.cfg h with
  | none => rw [countUnknown_of_none hv, countUnknown_of_none (s := s.withHost ws r) hv]; rfl
  | some v => rw [countUnknown_of_some hv, countUnknown_of_some (s := s.withHost ws r) hv]

theorem emitFrames_hostFree (h : Frame) (blocks : List Frame) : HostFree (emitFrames h blocks) := fun s ws r =>
  (congrArg (emit (buildMessage s.cfg h blocks)) (countUnknown_hostFree h s ws r)).trans (emit_hostFree _ _ ws r)

theorem abandonSeq_hostFree (k : U8 × List U32) : HostFree (abandonSeq k) :=
  .ite (fun _ _ _ => .rfl) (fun _ _ _ => rfl) (fun _ _ _ => rfl)

theorem makeRoom_hostFree : HostFree makeRoom := .ite (fun _ _ _ => .rfl) (fun _ _ _ => rfl) (fun _ _ _ => rfl)

theorem openSequence_hostFree (f : Frame) (k : U8 × List U32) (count : Nat) (now : U64) :
    HostFree (openSequence f k count now) := by
  intro s ws r
  simp only [openSequence, abandonSeq_hostFree k s ws r, makeRoom_hostFree _ ws r]
  rfl

theorem headerFrame_hostFree (f : Frame) (cls : U8) (kf : List Field) (cf : Field) (now : U64) :
    HostFree (headerFrame f cls kf cf now) :=
  .ite (fun _ _ _ => .rfl) ((emitFrames_hostFree f []).comp (hostFree_count _ _))
    (.ite (fun _ _ _ => .rfl) (emitFrames_hostFree f []) (openSequence_hostFree f _ _ now))

theorem completeSequence_hostFree (e : SeqEntry) : HostFree (completeSequence e) := fun s ws r =>
  emitFrames_hostFree e.header e.blocks ((s.setSeqs (removeSeq s.seqs e.key)).count .seqCompleted 1) ws r

theorem blockFrame_hostFree (f : Frame) (cls : U8) (kf : List Field) (xf : Option Field) (now : U64) :
    HostFree (blockFrame f cls kf xf now) := by
  intro s ws r
  cases he : findSeq s.seqs (seqKey f cls kf) with
  | none => simp only [blockFrame, State.withHost_seqs, he]; rfl
  | some e =>
    rw [blockFrame_of_findSeq he, blockFrame_of_findSeq (s := s.withHost ws r) he]
    split
    · rfl
    · split
      · exact completeSequence_hostFree _ (s.setSeqs _) ws r
      · rfl

theorem handleFrame_hostFree (f : Frame) (now : U64) : HostFree (handleFrame f now) := by
  intro s ws r
  cases hd : s.cfg.du? f.du with
  | none => simp only [handleFrame, State.withHost_cfg, hd]
  | some d =>
    have hd' : (s.withHost ws r).cfg.du? f.du = some d := hd
    cases hr : d.role with
    | single =>
      rw [handleFrame_of_single hd hr, handleFrame_of_single hd' hr, emitFrames_hostFree]
    | header cls kf cf =>
      rw [handleFrame_of_header hd hr, handleFrame_of_header hd' hr, headerFrame_hostFree]
    | block cls kf xf =>
      rw [handleFrame_of_block hd hr, handleFrame_of_block hd' hr, blockFrame_hostFree]

/-! ### The framer -/

theorem countCheck_hostFree (o : CheckOutcome) : HostFree (countCheck o) := by
  intro s ws r
  rw [countCheck_eq, countCheck_eq]
  rfl

theorem runChecks_withHost (cs : List Check) (f : Frame) (s : State) (ws : List Word) (r : Resp) :
    runChecks cs f (s.withHost ws r) = ((runChecks cs f s).1, (runChecks cs f s).2.withHost ws r) := by
  induction cs generalizing f s with
  | nil => rfl
  | cons c cs ih =>
    calc runChecks (c :: cs) f (s.withHost ws r)
      _ = runChecks cs (recordCheck (checkKind c) (applyCheck s.cfg c f.bits) f)
          (countCheck (applyCheck s.cfg c f.bits) (s.withHost ws r)) := rfl
      _ = _ := by rw [countCheck_hostFree, ih]; rfl

theorem completeFrame_hostFree (f : Frame) (now : U64) : HostFree (completeFrame f now) := by
  intro s ws r
  have hrun := runChecks_withHost (checksOf s.cfg f.du) f ((s.setLock .searching).count .frameComplete 1) ws r
  calc completeFrame f now (s.withHost ws r)
    _ = handleFrame
        (runChecks (checksOf s.cfg f.du) f (((s.setLock .searching).count .frameComplete 1).withHost ws r)).1 now
        (runChecks (checksOf s.cfg f.du) f (((s.setLock .searching).count .frameComplete 1).withHost ws r)).2 := rfl
    _ = _ := by rw [hrun, handleFrame_hostFree]; rfl

theorem completeIfFull_hostFree (f : Frame) (now : U64) : HostFree (completeIfFull f now) :=
  .ite (fun _ _ _ => .rfl) (completeFrame_hostFree f now) (fun _ _ _ => rfl)

theorem readHeader_hostFree (f : Frame) (hdrBits : Nat) (lenField : Field) (hdrChecks : List Check) (map : LenMap)
    (now : U64) : HostFree (readHeader f hdrBits lenField hdrChecks map now) := by
  intro s ws r
  simp only [readHeader, runChecks_withHost, State.withHost_cfg, State.withHost_par]
  split
  · rfl
  · split
    · rfl
    · exact completeIfFull_hostFree _ now _ ws r

theorem frameProgress_hostFree (f : Frame) (now : U64) : HostFree (frameProgress f now) := by
  refine .ite (fun _ _ _ => .rfl) (completeIfFull_hostFree f now) fun s ws r => ?_
  rw [State.withHost_cfg]
  split
  · split
    · rfl
    · exact readHeader_hostFree _ _ _ _ _ now s ws r
  · rfl

theorem framerStep_hostFree (res : Detection) (bits : List Bool) (now : U64) : HostFree (framerStep res bits now) := by
  intro s ws r
  cases hl : s.lock with
  | searching =>
    cases res with
    | found p => simp only [framerStep, State.withHost_lock, hl]; rfl
    | none | ambiguous => simp only [framerStep, State.withHost_lock, hl]
  | synchronized f =>
    cases res with
    | found p => simp only [framerStep, State.withHost_lock, hl]; rfl
    | none | ambiguous =>
      simp only [framerStep, State.withHost_lock, hl]
      exact frameProgress_hostFree _ now s ws r

/-! ### The commands -/

theorem countDetection_hostFree (res : Detection) : HostFree (countDetection res) := by
  cases res <;> exact fun _ _ _ => rfl

theorem admitUnit_hostFree (u : InputUnit) : HostFree (admitUnit u) := by
  intro s ws r
  rw [admitUnit_eq, admitUnit_eq]
  rfl

theorem acceptUnit_hostFree (u : InputUnit) : HostFree (acceptUnit u) := by
  intro s ws r
  have hdetect : detection (s.withHost ws r).cfg (windowWith (s.withHost ws r) u) = detection s.cfg (windowWith s u) :=
    rfl
  rw [acceptUnit_eq, acceptUnit_eq, hdetect, admitUnit_hostFree, countDetection_hostFree, framerStep_hostFree]
  rfl

theorem countNaN_hostFree (v : Binary32) : HostFree (countNaN v) :=
  .ite (c := fun _ => isNaN v = true) (fun _ _ _ => .rfl) (fun _ _ _ => rfl) (fun _ _ _ => rfl)

/-- R204: the quantizer is the configuration's. -/
theorem acceptSoft_hostFree (v : Binary32) :
    HostFree fun t => acceptUnit (.soft v (quantize t.cfg.quantizer v)) (countNaN v t) := by
  intro s ws r
  simp only [State.withHost_cfg, countNaN_hostFree v s ws r, acceptUnit_hostFree _ _ ws r]

/-- A PUSH answers alike with another host interface, and leaves the pending words of it. -/
theorem pushCommand_withHost {accepted : State → State} (h : HostFree accepted) (kind : UnitKind) (s : State)
    (ws : List Word) (r : Resp) :
    pushCommand kind accepted (s.withHost ws r) = (pushCommand kind accepted s).setCmds ws := by
  simp only [pushCommand, State.withHost_cfgOk, State.withHost_cfg, h s ws r]
  split
  · rfl
  · split <;> rfl

theorem csrValue_withHost (s : State) (ws : List Word) (r : Resp) (c : Csr) :
    csrValue (s.withHost ws r) c = csrValue s c := by
  cases c <;> rfl

/-- Every command responds itself, so what it leaves has its own response and the other pending words. -/
theorem exec_withHost {i : Instr} {s t : State} (h : exec i s = .next t) (ws : List Word) (r : Resp) :
    exec i (s.withHost ws r) = .next (t.setCmds ws) := by
  cases i with
  | nop =>
    obtain rfl := Host.Outcome.next.inj h
    rfl
  | pushBit b =>
    obtain rfl := Host.Outcome.next.inj h
    exact congrArg _ (pushCommand_withHost (acceptUnit_hostFree _) _ s ws r)
  | pushDibit d =>
    obtain rfl := Host.Outcome.next.inj h
    exact congrArg _ (pushCommand_withHost (acceptUnit_hostFree _) _ s ws r)
  | pushSoft v =>
    obtain rfl := Host.Outcome.next.inj h
    exact congrArg _ (pushCommand_withHost (acceptSoft_hostFree v) _ s ws r)
  | reset =>
    cases hok : s.cfgOk with
    | false =>
      obtain rfl := Host.Outcome.next.inj ((exec_reset_of_inert hok).symm.trans h)
      exact exec_reset_of_inert (s := s.withHost ws r) hok
    | true =>
      obtain rfl := Host.Outcome.next.inj ((exec_reset_of_cfgOk hok).symm.trans h)
      exact exec_reset_of_cfgOk (s := s.withHost ws r) hok
  | pop =>
    cases hok : s.cfgOk with
    | false =>
      obtain rfl := Host.Outcome.next.inj ((exec_pop_of_inert hok).symm.trans h)
      exact exec_pop_of_inert (s := s.withHost ws r) hok
    | true =>
      obtain rfl := Host.Outcome.next.inj ((exec_pop_of_cfgOk hok).symm.trans h)
      rw [exec_pop_of_cfgOk (s := s.withHost ws r) hok]
      cases hq : s.outq with
      | nil => rw [popMessage_of_nil hq, popMessage_of_nil (s := s.withHost ws r) hq]; rfl
      | cons m rest => rw [popMessage_of_cons hq, popMessage_of_cons (s := s.withHost ws r) hq]; rfl
  | rdcsr n =>
    cases hn : csrOfNum n with
    | none =>
      obtain rfl := Host.Outcome.next.inj ((exec_rdcsr_unassigned hn s).symm.trans h)
      exact exec_rdcsr_unassigned hn (s.withHost ws r)
    | some c =>
      obtain rfl := Host.Outcome.next.inj ((exec_rdcsr_assigned hn s).symm.trans h)
      rw [exec_rdcsr_assigned hn, csrValue_withHost]
      rfl
  | wrcsr n v =>
    by_cases hn : csrOfNum n = some .ctrl
    · obtain rfl := csrOfNum_eq_ctrl_iff.1 hn
      obtain rfl := Host.Outcome.next.inj ((exec_wrcsr_ctrl v s).symm.trans h)
      rw [exec_wrcsr_ctrl, writeCtrl_eq, writeCtrl_eq]
      rfl
    · obtain rfl := Host.Outcome.next.inj ((exec_wrcsr_of_ne_ctrl hn v s).symm.trans h)
      exact exec_wrcsr_of_ne_ctrl hn v (s.withHost ws r)

theorem exec_cmds {i : Instr} {s t : State} (h : exec i s = .next t) : t.cmds = s.cmds := by
  cases exec_outcome h with
  | respond | error | reset | pop => rfl
  | push => exact (afterPush_base i _ s).cmds
  | ctrl v =>
    rw [State.respond_cmds, writeCtrl_eq]

/-- Settles O9: every operation a command is made of commutes with writing the host interface, and the command's own
response overwrites the old one. -/
theorem pendingCommandsAndOldResponseDoNotMatter : Obligations.PendingCommandsAndOldResponseDoNotMatter :=
  fun _ _ _ ws r h => ⟨exec_cmds h, exec_withHost h ws r⟩

end Sys2Proof.Machine

/-! Power-on (70_reset_and_hazards.md R501) and the registers that are views of the state (10_state.md R60, R64). -/

namespace Sys2Proof.Machine

/-! ### The views of the state -/

/-- Settles O15: the map names the register of each number, and a read answers its value. -/
theorem readOfAssignedCsr : Obligations.ReadOfAssignedCsr := by
  have hread (s : State) (n : CsrNum) (c : Csr) (hn : csrOfNum n = some c) (v : U32) (hv : v = csrValue s c) :
      exec (.rdcsr n) s = .next { s with resp := .csr v } := hv ▸ exec_rdcsr_assigned hn s
  intro s n v h
  rcases h with ⟨rfl, hv⟩ | ⟨rfl, hv⟩ | ⟨rfl, hv⟩ | ⟨rfl, hv⟩ | ⟨rfl, hv⟩ | ⟨rfl, hv⟩ | ⟨rfl, hv⟩ | ⟨rfl, hv⟩ |
    ⟨rfl, hv⟩ | ⟨rfl, hv⟩ | ⟨rfl, hv⟩
  · exact hread s _ .ctrl rfl v hv
  · exact hread s _ .status rfl v hv
  · exact hread s _ .err rfl v hv
  · exact hread s _ .frameFill rfl v (hv.trans (by rw [csrValue]; cases s.lock <;> rfl))
  · exact hread s _ .frameTarget rfl v (hv.trans (by rw [csrValue]; cases s.lock <;> rfl))
  · exact hread s _ .windowFill rfl v hv
  · exact hread s _ .outqLevel rfl v hv
  · exact hread s _ .pendingSeq rfl v hv
  · exact hread s _ .windowLen rfl v hv
  · exact hread s _ .unitCountLo rfl v hv
  · exact hread s _ .unitCountHi rfl v hv

/-! ### Power-on -/

theorem powerOn_status (cfg : Cfg) (par : Params) :
    (State.powerOn cfg par).status = if cfgValid cfg par then 0 else 0x10 := by
  rw [State.status_of_searching_of_outq_nil (s := State.powerOn cfg par) rfl rfl]
  cases hv : cfgValid cfg par <;> simp [State.errAny, State.powerOn, hv]

/-- Settles O21: every element as `State.powerOn` writes it, and each view of it. -/
theorem powerOnValues : Obligations.PowerOnValues := by
  rintro cfg par s rfl
  refine ⟨rfl, rfl, rfl, rfl, rfl, rfl, rfl, rfl, rfl, Counters.get_zero, powerOn_status cfg par, rfl,
    fun c hstatus herr hlen => ?_⟩
  cases c with
  | status => exact absurd rfl hstatus
  | err => exact absurd rfl herr
  | windowLen => exact absurd rfl hlen
  | counter name => exact Counters.get_zero name
  | ctrl | frameFill | frameTarget | windowFill | outqLevel | pendingSeq | unitCountLo => rfl
  | unitCountHi => exact (by decide : (0 : U64).extractLsb' 32 32 = 0)

theorem powerOn_errInv (cfg : Cfg) (par : Params) : ErrInv (State.powerOn cfg par) := by
  cases hv : cfgValid cfg par with
  | true => exact ⟨fun k _ => by simp [State.powerOn, hv], by simp [State.powerOn, hv]⟩
  | false =>
    refine ⟨fun k hk => ?_, by simp [State.powerOn, hv]⟩
    have hk0 : k ≠ 0 := by omega
    simp [State.powerOn, hv, BitVec.getLsbD_one, hk0]

theorem powerOn_inertInv (cfg : Cfg) (par : Params) : InertInv (State.powerOn cfg par) := by
  intro hinert
  obtain ⟨hhigh, hbit0⟩ := powerOn_errInv cfg par
  exact ⟨rfl, rfl, rfl, rfl, rfl, by rw [hbit0, hinert]; rfl, hhigh, fun name _ => Counters.get_zero name⟩

/-- Settles O22: nothing is in the window, the table, the queue or assembly, and ERR is what validation gives. -/
theorem powerOnMeetsTheInvariants : Obligations.PowerOnMeetsTheInvariants := by
  rintro cfg par s rfl
  refine ⟨rfl, powerOn_errInv cfg par, ⟨Nat.zero_le _, Nat.zero_le _, Nat.zero_le _⟩, ?window, ?frame,
    ⟨List.nodup_nil, ?table⟩, ⟨List.nodup_nil, ?times⟩, powerOn_inertInv cfg par⟩
  case window => exact List.forall_mem_nil _
  case frame => exact fun f hf => Lock.noConfusion hf
  case table => exact List.forall_mem_nil _
  case times => exact List.forall_mem_nil _

end Sys2Proof.Machine

/-! binary32 (00_scope.md R25, 30_encoding.md R156): rounding to nearest, ties to even, and what the operations and the
comparisons are on values of each kind. -/

namespace Sys2Proof

/-! ### Rounding -/

theorem lt_two_pow_bitLength (n : Nat) : n < 2 ^ bitLength n := by
  unfold bitLength
  split
  · omega
  · exact Nat.lt_log2_self

/-- The quotient and the remainder that rounding looks at. -/
theorem roundHalfEven_cases (n k : Nat) :
    ∃ q r, n = q * 2 ^ k + r ∧ r < 2 ^ k ∧
      ((roundHalfEven n k = q ∧ (2 * r < 2 ^ k ∨ 2 * r = 2 ^ k ∧ q % 2 = 0)) ∨
        (roundHalfEven n k = q + 1 ∧ (2 ^ k < 2 * r ∨ 2 * r = 2 ^ k ∧ q % 2 = 1))) := by
  refine ⟨n / 2 ^ k, n % 2 ^ k, (Nat.div_add_mod' n (2 ^ k)).symm, Nat.mod_lt _ (Nat.two_pow_pos k), ?_⟩
  unfold roundHalfEven
  dsimp only
  split <;> omega

/-- The rounded integer is within half a unit of the exact value, and even at a tie. -/
theorem roundHalfEven_nearest (n k : Nat) :
    2 * (roundHalfEven n k * 2 ^ k - n) ≤ 2 ^ k ∧ 2 * (n - roundHalfEven n k * 2 ^ k) ≤ 2 ^ k ∧
      (2 * (roundHalfEven n k * 2 ^ k - n) = 2 ^ k ∨ 2 * (n - roundHalfEven n k * 2 ^ k) = 2 ^ k →
        roundHalfEven n k % 2 = 0) := by
  obtain ⟨q, r, rfl, hr, ⟨h, hhalf⟩ | ⟨h, hhalf⟩⟩ := roundHalfEven_cases n k <;> rw [h]
  · omega
  · rw [Nat.add_one_mul q]
    omega

theorem roundHalfEven_le {n k m : Nat} (h : n < m * 2 ^ k) : roundHalfEven n k ≤ m := by
  obtain ⟨q, r, rfl, -, hround⟩ := roundHalfEven_cases n k
  have hq : q < m := Nat.lt_of_mul_lt_mul_right (Nat.lt_of_le_of_lt (Nat.le_add_right _ r) h)
  omega

/-- What the format can hold: 24 significant bits. -/
theorem roundHalfEven_le_of_drop {n drop : Nat} (h : bitLength n - 24 ≤ drop) : roundHalfEven n drop ≤ 2 ^ 24 := by
  refine roundHalfEven_le ((lt_two_pow_bitLength n).trans_le ?_)
  rw [← Nat.pow_add]
  exact Nat.pow_le_pow_right Nat.zero_lt_two (by omega)

/-! ### The operations -/

theorem roundF32_of_overflow {n k : Nat} (h : 2 ^ 128 * 2 ^ 149 ≤ roundMag n k) (neg : Bool) :
    roundF32 neg n k = .inf neg := if_pos h

theorem roundF32_of_lt {n k : Nat} (h : roundMag n k < 2 ^ 128 * 2 ^ 149) (neg : Bool) :
    roundF32 neg n k = .fin (signed neg (roundMag n k)) := if_neg (Nat.not_le.2 h)

theorem signed_decide (c : Prop) [Decidable c] (m : Nat) :
    signed (decide c) m = if c then -(m : Int) else (m : Int) := by
  simp [signed]

theorem natAbs_signed (neg : Bool) (m : Nat) : (signed neg m).natAbs = m := by
  cases neg <;> simp [signed]

/-! ### The comparisons -/

theorem F32.gt_iff (x y : F32) :
    x.gt y = true ↔ (∃ a b, x = .fin a ∧ y = .fin b ∧ b < a) ∨ (x = .inf false ∧ y ≠ .inf false ∧ y ≠ .nan) ∨
      (y = .inf true ∧ x ≠ .inf true ∧ x ≠ .nan) := by
  cases x with
  | nan => cases y <;> simp [F32.gt]
  | fin a => cases y <;> simp [F32.gt]
  | inf s =>
    cases y with
    | nan | fin => simp [F32.gt]
    | inf t => cases s <;> cases t <;> simp [F32.gt]

theorem F32.eq_iff (x y : F32) : x.eq y = true ↔ x = y ∧ x ≠ .nan := by
  cases x <;> cases y <;> simp [F32.eq]

theorem F32.ge_iff (x y : F32) : x.ge y = true ↔ x.gt y = true ∨ x.eq y = true := by
  simp [F32.ge]

/-! ### The value of a bit pattern -/

theorem F32.ofBits_of_inf {v : Binary32} (he : binary32Exp v = 255) (hf : binary32Frac v = 0) :
    F32.ofBits v = .inf (v.getLsbD 31) := by
  rw [F32.ofBits, if_pos he, if_pos hf, binary32Sign]

theorem F32.ofBits_of_nan {v : Binary32} (he : binary32Exp v = 255) (hf : binary32Frac v ≠ 0) :
    F32.ofBits v = .nan := by
  rw [F32.ofBits, if_pos he, if_neg hf]

/-- The magnitude of a finite pattern: the subnormals have no hidden bit. -/
def binary32Mag (e f : Nat) : Nat := if e = 0 then f else (2 ^ 23 + f) * 2 ^ (e - 1)

theorem F32.ofBits_of_finite {v : Binary32} (he : binary32Exp v ≠ 255) :
    F32.ofBits v = .fin (signed (v.getLsbD 31) (binary32Mag (binary32Exp v) (binary32Frac v))) := by
  rw [F32.ofBits, if_neg he, binary32Mag, binary32Sign]
  split <;> rfl

theorem F32.ofBits_of_isNaN {v : Binary32} (h : isNaN v = true) : F32.ofBits v = .nan := by
  obtain ⟨he, hf⟩ : binary32Exp v = 255 ∧ binary32Frac v ≠ 0 := by simpa [isNaN] using h
  exact F32.ofBits_of_nan he hf

/-- R207: a NaN is at or above no threshold. -/
theorem F32.nan_ge (x : F32) : F32.nan.ge x = false := rfl

/-! ### The order of the values -/

/-- The place of a binary32 that is no NaN: the infinities are below and above every finite value. -/
def F32.rank : F32 → WithBot (WithTop Int)
  | .nan => ⊥
  | .inf neg => if neg then ⊥ else ⊤
  | .fin q => ((q : WithTop Int) : WithBot (WithTop Int))

theorem F32.gt_iff_rank {x y : F32} (hx : x ≠ .nan) (hy : y ≠ .nan) : x.gt y = true ↔ y.rank < x.rank := by
  cases x with
  | nan => exact absurd rfl hx
  | fin a =>
    cases y with
    | nan => exact absurd rfl hy
    | fin b => simp [F32.gt, F32.rank]
    | inf t => cases t <;> simp [F32.gt, F32.rank]
  | inf s =>
    cases y with
    | nan => exact absurd rfl hy
    | fin b =>
      cases s with
      | true => simp [F32.gt, F32.rank]
      | false => simpa [F32.gt, F32.rank] using WithBot.coe_lt_coe.2 (WithTop.coe_lt_top b)
    | inf t => cases s <;> cases t <;> simp [F32.gt, F32.rank]

theorem F32.rank_eq_iff {x y : F32} (hx : x ≠ .nan) (hy : y ≠ .nan) : x.rank = y.rank ↔ x = y := by
  cases x with
  | nan => exact absurd rfl hx
  | fin a =>
    cases y with
    | nan => exact absurd rfl hy
    | fin b => simp [F32.rank]
    | inf t => cases t <;> simp [F32.rank]
  | inf s =>
    cases y with
    | nan => exact absurd rfl hy
    | fin b => cases s <;> simp [F32.rank]
    | inf t => cases s <;> cases t <;> simp [F32.rank]

/-- Settles O28: the rounding by its quotient and remainder, the operations and comparisons by the kinds of their
operands. -/
theorem roundingIsToNearestEven : Obligations.RoundingIsToNearestEven := by
  refine ⟨fun n k => ?round, fun a b m hm => ?add, fun a b m hm => ?mul, fun x s t a => ?special,
    fun x y => ⟨x.gt_iff y, x.eq_iff y, x.ge_iff y⟩, fun v e f he hf => ?bits⟩
  case round =>
    obtain ⟨hup, hdown, htie⟩ := roundHalfEven_nearest n (max k (bitLength n - 24))
    exact ⟨_, _, rfl, rfl, roundHalfEven_le_of_drop (le_max_right _ _), hup, hdown, htie⟩
  case add =>
    rw [hm]
    exact ⟨fun h => by rw [fadd32, roundF32_of_overflow h], fun h => by rw [fadd32, roundF32_of_lt h, signed_decide]⟩
  case mul =>
    rw [hm]
    exact ⟨fun h => by rw [fmul32, roundF32_of_overflow h], fun h => by rw [fmul32, roundF32_of_lt h, signed_decide]⟩
  case special =>
    refine ⟨rfl, by cases x <;> rfl, rfl, by cases x <;> rfl, rfl, rfl, rfl, ?_, ?_, ?_⟩
    · cases s <;> cases t <;> rfl
    · rintro rfl
      exact ⟨rfl, rfl⟩
    · intro ha
      exact ⟨if_neg ha, (if_neg ha).trans (congrArg F32.inf (Bool.xor_comm _ _))⟩
  case bits =>
    change e = binary32Exp v at he
    change f = binary32Frac v at hf
    subst he hf
    refine ⟨F32.ofBits_of_inf, F32.ofBits_of_nan, fun he => ⟨_, F32.ofBits_of_finite he, natAbs_signed _ _,
      fun hsign => ?_, fun hsign => ?_⟩⟩ <;> rw [hsign]
    · exact Int.neg_nonpos_of_nonneg (Int.natCast_nonneg _)
    · exact Int.natCast_nonneg _

end Sys2Proof

/-! The window, the quantizer and the detection (40_sync_detector.md R206 to R219). -/

namespace Sys2Proof.Machine

/-! ### The window -/

/-- R209: from a window of at most `len` units. -/
theorem pushWindow_eq_drop {len : Nat} {window : List InputUnit} (h : window.length ≤ len) (u : InputUnit) :
    pushWindow len window u = (window ++ [u]).drop (window.length + 1 - len) := by
  unfold pushWindow
  dsimp only
  split
  · rename_i hlt
    rw [List.length_append, List.length_singleton] at hlt
    rw [show window.length + 1 - len = 1 by omega, List.drop_one]
  · rename_i hle
    rw [List.length_append, List.length_singleton] at hle
    rw [show window.length + 1 - len = 0 by omega, List.drop_zero]

/-- R209: the window never outgrows `len`. -/
theorem length_pushWindow_le {len : Nat} {window : List InputUnit} (h : window.length ≤ len) (u : InputUnit) :
    (pushWindow len window u).length ≤ len := by
  rw [pushWindow_eq_drop h, List.length_drop, List.length_append, List.length_singleton]
  omega

/-- R209: no unit enters but the new one. -/
theorem mem_pushWindow {len : Nat} {window : List InputUnit} {u v : InputUnit} (h : v ∈ pushWindow len window u) :
    v ∈ window ∨ v = u := by
  have hmem : v ∈ window ++ [u] := by
    unfold pushWindow at h
    dsimp only at h
    split at h
    · exact List.mem_of_mem_tail h
    · exact h
  simpa using hmem

/-- Settles O26: the push drops at most the oldest unit, which with W at least 1 is not the new one. -/
theorem windowKeepsTheNewestUnits : Obligations.WindowKeepsTheNewestUnits := by
  intro s u hlen hpos
  have hdrop : windowWith s u = (s.window ++ [u]).drop (s.window.length + 1 - s.cfg.windowLen) :=
    pushWindow_eq_drop hlen u
  refine ⟨hdrop, ?_, ?_⟩
  · rw [hdrop, List.length_drop, List.length_append, List.length_singleton]
    omega
  · rw [hdrop, List.drop_append_of_le_length (by omega), List.getLast?_concat]

/-! ### The quantizer -/

/-- Settles O27: the region is the number of comparisons that hold. -/
theorem quantizerCountsThresholds : Obligations.QuantizerCountsThresholds := by
  rintro q v x y z rfl rfl rfl
  have hmap (r : Nat) (h : region q v = r) : quantize q v = regionMap q r := h ▸ rfl
  refine ⟨hmap 0, hmap 1, hmap 2, hmap 3, fun he hf => hmap 0 ?_⟩
  have hnan : F32.ofBits v = .nan := F32.ofBits_of_isNaN ((isNaN_iff v).2 ⟨he, hf⟩)
  simp only [region, hnan, F32.nan_ge, Bool.toNat_false]

/-! ### Scores and their order -/

/-- The score has a place in the order of R213: a count of bits, or a binary32 that is no NaN. -/
def Score.Proper (kind : UnitKind) : Score → Prop
  | .hard _ => kind ≠ .soft
  | .soft x => kind = .soft ∧ x ≠ .nan

/-- The place of a score. -/
def Score.rank : Score → WithBot (WithTop Int)
  | .hard n => (((n : Int) : WithTop Int) : WithBot (WithTop Int))
  | .soft x => x.rank

theorem Score.gt_iff_rank {kind : UnitKind} {a b : Score} (ha : a.Proper kind) (hb : b.Proper kind) :
    a.gt b = true ↔ b.rank < a.rank := by
  cases a with
  | hard m =>
    cases b with
    | hard n => simp [Score.gt, Score.rank]
    | soft y => exact absurd hb.1 ha
  | soft x =>
    cases b with
    | hard n => exact absurd ha.1 hb
    | soft y => exact F32.gt_iff_rank ha.2 hb.2

theorem Score.eq_iff_rank {kind : UnitKind} {a b : Score} (ha : a.Proper kind) (hb : b.Proper kind) :
    a.eq b = true ↔ a.rank = b.rank := by
  cases a with
  | hard m =>
    cases b with
    | hard n => simp [Score.eq, Score.rank]
    | soft y => exact absurd hb.1 ha
  | soft x =>
    cases b with
    | hard n => exact absurd ha.1 hb
    | soft y => exact (x.eq_iff y).trans ((and_iff_left ha.2).trans (F32.rank_eq_iff ha.2 hb.2).symm)

/-- A score above the threshold is no NaN. -/
theorem score_proper {cfg : Cfg} {window : List InputUnit} {p : Pattern}
    (h : (score cfg.unitKind window p).gt (threshold cfg) = true) :
    (score cfg.unitKind window p).Proper cfg.unitKind := by
  unfold score threshold at *
  cases hk : cfg.unitKind with
  | bit | dibit => simp [Score.Proper]
  | soft =>
    refine ⟨rfl, fun hnan => ?_⟩
    simp [hk, Score.gt, hnan, F32.gt] at h

/-- `maxScore` is one of the scores and no other is above it. -/
theorem maxScore_spec {kind : UnitKind} {s : Score} {rest : List (Pattern × Score)} (hs : s.Proper kind)
    (hrest : ∀ c ∈ rest, c.2.Proper kind) :
    (maxScore s rest = s ∨ ∃ c ∈ rest, maxScore s rest = c.2) ∧ s.rank ≤ (maxScore s rest).rank ∧
      ∀ c ∈ rest, c.2.rank ≤ (maxScore s rest).rank := by
  induction rest generalizing s with
  | nil => exact ⟨.inl rfl, le_rfl, by simp⟩
  | cons c rest ih =>
    obtain ⟨hc, hrest⟩ := List.forall_mem_cons.1 hrest
    have hstep : maxScore s (c :: rest) = maxScore (if c.2.gt s then c.2 else s) rest := rfl
    rw [hstep]
    split
    · rename_i hgt
      obtain ⟨hmem, hle, hall⟩ := ih hc hrest
      have hlt := (Score.gt_iff_rank hc hs).1 hgt
      refine ⟨.inr ?_, hlt.le.trans hle, List.forall_mem_cons.2 ⟨hle, hall⟩⟩
      obtain hmem | ⟨d, hd, hmem⟩ := hmem
      · exact ⟨c, List.mem_cons_self, hmem⟩
      · exact ⟨d, List.mem_cons_of_mem _ hd, hmem⟩
    · rename_i hgt
      obtain ⟨hmem, hle, hall⟩ := ih hs hrest
      have hcs := not_lt.1 (mt (Score.gt_iff_rank hc hs).2 hgt)
      refine ⟨hmem.imp_right ?_, hle, List.forall_mem_cons.2 ⟨hcs.trans hle, hall⟩⟩
      rintro ⟨d, hd, hmem⟩
      exact ⟨d, List.mem_cons_of_mem _ hd, hmem⟩

/-! ### The detection -/

theorem mem_candidates {cfg : Cfg} {window : List InputUnit} {c : Pattern × Score} :
    c ∈ candidates cfg window ↔ c.1 ∈ cfg.patterns ∧ patternLength cfg.unitKind c.1 ≤ window.length ∧
      c.2 = score cfg.unitKind window c.1 ∧ (score cfg.unitKind window c.1).gt (threshold cfg) = true := by
  obtain ⟨p, s⟩ := c
  simp only [candidates, List.mem_filter, List.mem_map, evaluable, decide_eq_true_eq, Prod.mk.injEq]
  constructor
  · rintro ⟨⟨q, ⟨hq, hlen⟩, rfl, rfl⟩, hgt⟩
    exact ⟨hq, hlen, rfl, hgt⟩
  · rintro ⟨hp, hlen, rfl, hgt⟩
    exact ⟨⟨p, ⟨hp, hlen⟩, rfl, rfl⟩, hgt⟩

theorem nodup_candidates {cfg : Cfg} (h : cfg.patterns.Nodup) (window : List InputUnit) :
    (candidates cfg window).Nodup :=
  ((h.filter _).map fun _ _ he => congrArg Prod.fst he).filter _

theorem candidates_proper {cfg : Cfg} {window : List InputUnit} {c : Pattern × Score}
    (h : c ∈ candidates cfg window) : c.2.Proper cfg.unitKind := by
  obtain ⟨-, -, hs, hgt⟩ := mem_candidates.1 h
  exact hs ▸ score_proper hgt

/-- The elements of a list without repetition that satisfy a test are one exactly when that one satisfies it alone. -/
theorem filter_eq_singleton_iff {α : Type} {l : List α} (hl : l.Nodup) {q : α → Bool} {a : α} :
    l.filter q = [a] ↔ (a ∈ l ∧ q a = true) ∧ ∀ b ∈ l, q b = true → b = a := by
  constructor
  · intro h
    have hmem (b : α) : b ∈ l ∧ q b = true ↔ b = a := by rw [← List.mem_filter, h, List.mem_singleton]
    exact ⟨(hmem a).2 rfl, fun b hb hq => (hmem b).1 ⟨hb, hq⟩⟩
  · rintro ⟨ha, huniq⟩
    refine List.perm_singleton.1 ((List.perm_ext_iff_of_nodup (hl.filter q) (List.nodup_singleton a)).2 fun b => ?_)
    rw [List.mem_filter, List.mem_singleton]
    exact ⟨fun ⟨hb, hq⟩ => huniq b hb hq, fun h => h ▸ ha⟩

/-- R213: NONE exactly when there is no candidate. -/
theorem detection_eq_none_iff_candidates {cfg : Cfg} {window : List InputUnit} :
    detection cfg window = .none ↔ candidates cfg window = [] := by
  unfold detection
  split
  · rename_i h
    simp [h]
  · rename_i h
    rw [h]
    split <;> simp

/-- R213: the greatest of the candidates' scores. -/
theorem exists_maxScore {cfg : Cfg} {window : List InputUnit} {c : Pattern × Score} {rest : List (Pattern × Score)}
    (h : candidates cfg window = c :: rest) :
    ∃ d ∈ candidates cfg window, maxScore c.2 rest = d.2 ∧ ∀ b ∈ candidates cfg window, b.2.rank ≤ d.2.rank := by
  have hproper : ∀ b ∈ c :: rest, b.2.Proper cfg.unitKind := fun b hb => candidates_proper (h ▸ hb)
  obtain ⟨hc, hrest⟩ := List.forall_mem_cons.1 hproper
  obtain ⟨hmem, hle, hall⟩ := maxScore_spec hc hrest
  rw [h]
  obtain hmem | ⟨d, hd, hmem⟩ := hmem
  · exact ⟨c, List.mem_cons_self, hmem, List.forall_mem_cons.2 ⟨le_rfl, fun b hb => hmem ▸ hall b hb⟩⟩
  · exact ⟨d, List.mem_cons_of_mem _ hd, hmem, List.forall_mem_cons.2 ⟨hmem ▸ hle, fun b hb => hmem ▸ hall b hb⟩⟩

/-- R213: the candidate found is the only one of the greatest score. -/
theorem detection_eq_found_iff_filter {cfg : Cfg} {window : List InputUnit} {c : Pattern × Score}
    {rest : List (Pattern × Score)} (h : candidates cfg window = c :: rest) {p : Pattern} :
    detection cfg window = .found p ↔
      ∃ s, ((candidates cfg window).filter fun d => d.2.eq (maxScore c.2 rest)) = [(p, s)] := by
  unfold detection
  rw [h]
  dsimp only
  split
  · rename_i d hd
    rw [hd]
    obtain ⟨q, s⟩ := d
    simp
  · rename_i hne
    refine ⟨fun hf => Detection.noConfusion hf, ?_⟩
    rintro ⟨s, hs⟩
    exact absurd hs (hne (p, s))

/-- R213: the detected pattern's score is above that of every other candidate. -/
theorem detection_eq_found_iff_candidates {cfg : Cfg} (hnd : cfg.patterns.Nodup) {window : List InputUnit}
    {p : Pattern} :
    detection cfg window = .found p ↔
      ∃ s, (p, s) ∈ candidates cfg window ∧ ∀ c ∈ candidates cfg window, c ≠ (p, s) → s.gt c.2 = true := by
  cases hC : candidates cfg window with
  | nil =>
    rw [detection_eq_none_iff_candidates.2 hC]
    simp
  | cons c rest =>
    obtain ⟨d, hd, hmax, hall⟩ := exists_maxScore hC
    rw [detection_eq_found_iff_filter hC, ← hC, hmax]
    refine exists_congr fun s => ?_
    rw [filter_eq_singleton_iff (nodup_candidates hnd window), and_assoc]
    refine and_congr_right fun hps => ?_
    have heq (b : Pattern × Score) (hb : b ∈ candidates cfg window) : b.2.eq d.2 = true ↔ b.2.rank = d.2.rank :=
      Score.eq_iff_rank (candidates_proper hb) (candidates_proper hd)
    have hgt (b : Pattern × Score) (hb : b ∈ candidates cfg window) : s.gt b.2 = true ↔ b.2.rank < s.rank :=
      Score.gt_iff_rank (candidates_proper hps) (candidates_proper hb)
    constructor
    · rintro ⟨hs, huniq⟩ b hb hne
      have hrank : s.rank = d.2.rank := (heq _ hps).1 hs
      refine (hgt b hb).2 (hrank ▸ (hall b hb).lt_of_ne fun he => hne (huniq b hb ((heq b hb).2 he)))
    · intro hbest
      have hds : d = (p, s) := by
        by_contra hne
        exact absurd ((hgt d hd).1 (hbest d hd hne)) (not_lt.2 (hall _ hps))
      subst hds
      refine ⟨(heq _ hd).2 rfl, fun b hb hb' => ?_⟩
      by_contra hne
      exact absurd ((heq b hb).1 hb') ((hgt b hb).1 (hbest b hb hne)).ne

/-- R213, over the patterns: the detected one is evaluable and above the threshold, and above every other that is. -/
theorem detection_eq_found_iff {cfg : Cfg} (hnd : cfg.patterns.Nodup) {window : List InputUnit} {p : Pattern} :
    detection cfg window = .found p ↔
      p ∈ cfg.patterns ∧ patternLength cfg.unitKind p ≤ window.length ∧
        (score cfg.unitKind window p).gt (threshold cfg) = true ∧
        ∀ q ∈ cfg.patterns, q ≠ p → patternLength cfg.unitKind q ≤ window.length →
          (score cfg.unitKind window q).gt (threshold cfg) = true →
          (score cfg.unitKind window p).gt (score cfg.unitKind window q) = true := by
  rw [detection_eq_found_iff_candidates hnd]
  simp only [mem_candidates]
  constructor
  · rintro ⟨s, ⟨hp, hlen, rfl, hgt⟩, hbest⟩
    refine ⟨hp, hlen, hgt, fun q hq hne hqlen hqgt => ?_⟩
    exact hbest (q, score cfg.unitKind window q) ⟨hq, hqlen, rfl, hqgt⟩ fun he => hne (congrArg Prod.fst he)
  · rintro ⟨hp, hlen, hgt, hbest⟩
    refine ⟨_, ⟨hp, hlen, rfl, hgt⟩, ?_⟩
    rintro ⟨q, s⟩ ⟨hq, hqlen, hs, hqgt⟩ hne
    obtain rfl : s = score cfg.unitKind window q := hs
    exact hbest q hq (fun he => hne (by rw [he])) hqlen hqgt

/-- R213, over the patterns: NONE. -/
theorem detection_eq_none_iff {cfg : Cfg} {window : List InputUnit} :
    detection cfg window = .none ↔ ∀ q ∈ cfg.patterns, patternLength cfg.unitKind q ≤ window.length →
      (score cfg.unitKind window q).gt (threshold cfg) = false := by
  rw [detection_eq_none_iff_candidates, List.eq_nil_iff_forall_not_mem]
  simp only [mem_candidates, not_and, Prod.forall, Bool.not_eq_true]
  exact ⟨fun h q hq hlen => h q _ hq hlen rfl, fun h q _ hq hlen _ => h q hq hlen⟩

/-- A detection names a pattern of the configuration. -/
theorem mem_patterns_of_found {cfg : Cfg} {window : List InputUnit} {p : Pattern}
    (h : detection cfg window = .found p) : p ∈ cfg.patterns := by
  cases hC : candidates cfg window with
  | nil =>
    rw [detection_eq_none_iff_candidates.2 hC] at h
    cases h
  | cons c rest =>
    obtain ⟨s, hs⟩ := (detection_eq_found_iff_filter hC).1 h
    have hmem : (p, s) ∈ candidates cfg window := (List.mem_filter.1 (hs ▸ List.mem_singleton_self _)).1
    exact (mem_candidates.1 hmem).1

/-! ### Hard protocols -/

/-- R211, position by position. -/
theorem countP_zip_eq_countP_range (bits pattern : List Bool) :
    ((bits.zip pattern).countP fun ub => ub.1 == ub.2) =
      (List.range pattern.length).countP fun k => decide (bits[k]? = pattern[k]?) := by
  induction pattern generalizing bits with
  | nil => simp
  | cons b pattern ih =>
    rw [List.length_cons, List.range_succ_eq_map, List.countP_cons, List.countP_map]
    cases bits with
    | nil => simp [Function.comp_def, eq_comm (a := 0), List.countP_eq_zero]
    | cons a bits =>
      rw [List.zip_cons_cons, List.countP_cons, ih]
      simp [Function.comp_def]

theorem score_of_hard {kind : UnitKind} (hk : kind ≠ .soft) (window : List InputUnit) (p : Pattern) :
    score kind window p = .hard (hardScore (span window (patternLength kind p)) p) := by
  cases kind with
  | soft => exact absurd rfl hk
  | bit | dibit => rfl

theorem threshold_of_hard {cfg : Cfg} (hk : cfg.unitKind ≠ .soft) : threshold cfg = .hard cfg.hardThreshold := by
  unfold threshold
  cases h : cfg.unitKind with
  | soft => exact absurd h hk
  | bit | dibit => rfl

theorem Score.hard_gt (m n : Nat) : (Score.hard m).gt (.hard n) = decide (n < m) := rfl

/-- R213 for a hard protocol. -/
theorem detection_hard_eq_found_iff {cfg : Cfg} (hk : cfg.unitKind ≠ .soft) (hnd : cfg.patterns.Nodup)
    {window : List InputUnit} {agree : Pattern → Nat}
    (hagree : ∀ p, hardScore (span window (patternLength cfg.unitKind p)) p = agree p) {p : Pattern} :
    detection cfg window = .found p ↔
      p ∈ cfg.patterns ∧ patternLength cfg.unitKind p ≤ window.length ∧ cfg.hardThreshold < agree p ∧
        ∀ q ∈ cfg.patterns, q ≠ p → patternLength cfg.unitKind q ≤ window.length → agree q < agree p := by
  simp only [detection_eq_found_iff hnd, score_of_hard hk, threshold_of_hard hk, Score.hard_gt, decide_eq_true_eq,
    hagree]
  refine and_congr_right fun _ => and_congr_right fun _ => and_congr_right fun hgt => ?_
  refine forall₄_congr fun q _ _ _ => ⟨fun h => ?_, fun h _ => h⟩
  by_cases hq : cfg.hardThreshold < agree q
  · exact h hq
  · omega

theorem detection_hard_eq_none_iff {cfg : Cfg} (hk : cfg.unitKind ≠ .soft) {window : List InputUnit}
    {agree : Pattern → Nat} (hagree : ∀ p, hardScore (span window (patternLength cfg.unitKind p)) p = agree p) :
    detection cfg window = .none ↔
      ∀ q ∈ cfg.patterns, patternLength cfg.unitKind q ≤ window.length → agree q ≤ cfg.hardThreshold := by
  simp only [detection_eq_none_iff, score_of_hard hk, threshold_of_hard hk, Score.hard_gt, decide_eq_false_iff_not,
    hagree, not_lt]

/-- R211: a pattern agrees in no more bits than it has. -/
theorem hardScore_le (units : List InputUnit) (p : Pattern) : hardScore units p ≤ p.bits.length := by
  refine List.countP_le_length.trans ?_
  rw [List.length_zip]
  exact Nat.min_le_right _ _

/-- R211: a pattern agrees with its own bits in all of them. -/
theorem hardScore_of_bits_eq {units : List InputUnit} {p : Pattern} (h : units.flatMap unitBits = p.bits) :
    hardScore units p = p.bits.length := by
  rw [hardScore, h, countP_zip_eq_countP_range]
  simp

/-- Settles O30: every bit of the span agrees, and a shorter pattern has fewer bits to agree in. -/
theorem exactPatternIsDetected : Obligations.ExactPatternIsDetected := by
  rintro cfg window older newest p hk hnd hp rfl hlen hbits hthr hshort
  have hspan : span (older ++ newest) (patternLength cfg.unitKind p) = newest := by
    rw [span, ← hlen, List.length_append, Nat.add_sub_cancel, List.drop_left]
  have hfull : hardScore (span (older ++ newest) (patternLength cfg.unitKind p)) p = p.bits.length := by
    rw [hspan, hardScore_of_bits_eq hbits]
  refine (detection_hard_eq_found_iff hk hnd fun _ => rfl).2
    ⟨hp, by rw [List.length_append]; omega, hfull ▸ hthr, fun q hq hne _ => ?_⟩
  rw [hfull]
  exact (hardScore_le _ q).trans_lt (hshort q hq hne)

/-! ### Soft protocols -/

theorem score_of_soft (window : List InputUnit) (p : Pattern) :
    score .soft window p = .soft (softScore (span window p.ideal.length) p) := rfl

theorem threshold_of_soft {cfg : Cfg} (hk : cfg.unitKind = .soft) :
    threshold cfg = .soft (F32.ofBits cfg.softThreshold) := by
  unfold threshold
  rw [hk]

/-- R212: the score by its partial sums. -/
theorem softScore_eq_of_acc {units : List InputUnit} {p : Pattern} {acc : Nat → F32} (h0 : acc 0 = .fin 0)
    (hstep : ∀ j u x, units[j]? = some u → p.ideal[j]? = some x →
      acc (j + 1) = fadd32 (acc j) (fmul32 (unitValue u) (F32.ofBits x)))
    (hlen : units.length = p.ideal.length) : softScore units p = acc p.ideal.length := by
  have hpartial (j : Nat) (hj : j ≤ p.ideal.length) :
      ((units.zip p.ideal).take j).foldl
        (fun acc ui => fadd32 acc (fmul32 (unitValue ui.1) (F32.ofBits ui.2))) (.fin 0) = acc j := by
    induction j with
    | zero => exact h0.symm
    | succ j ih =>
      have hu : units[j]? = some units[j] := List.getElem?_eq_getElem (hlen ▸ hj)
      have hx : p.ideal[j]? = some p.ideal[j] := List.getElem?_eq_getElem hj
      have hux : (units.zip p.ideal)[j]? = some (units[j], p.ideal[j]) := List.getElem?_zip_eq_some.2 ⟨hu, hx⟩
      rw [List.take_add_one, hux, List.foldl_append, ih (Nat.le_of_lt hj), hstep j _ _ hu hx]
      rfl
  have hall := hpartial _ le_rfl
  rwa [List.take_of_length_le (by rw [List.length_zip, hlen, Nat.min_self])] at hall

theorem InputUnit.exists_of_kind_soft {u : InputUnit} (h : u.kind = .soft) : ∃ v d, u = .soft v d := by
  cases u with
  | soft v d => exact ⟨v, d, rfl⟩
  | bit | dib => cases h

/-- The span's units are the newest of the window (R210). -/
theorem getElem?_span (window : List InputUnit) (len j : Nat) :
    (span window len)[j]? = window[window.length - len + j]? := List.getElem?_drop

theorem length_span {window : List InputUnit} {len : Nat} (h : len ≤ window.length) :
    (span window len).length = len := by
  rw [span, List.length_drop]
  omega

/-- R212 over a window of soft units: the score of an evaluable pattern by its partial sums. -/
theorem softScore_span_eq_of_acc {window : List InputUnit} {p : Pattern} {acc : Nat → F32}
    (hwin : ∀ u ∈ window, u.kind = .soft) (h0 : acc 0 = .fin 0)
    (hstep : ∀ j v d x, window[window.length - p.ideal.length + j]? = some (.soft v d) → p.ideal[j]? = some x →
      acc (j + 1) = fadd32 (acc j) (fmul32 (F32.ofBits v) (F32.ofBits x)))
    (hlen : p.ideal.length ≤ window.length) : softScore (span window p.ideal.length) p = acc p.ideal.length := by
  refine softScore_eq_of_acc h0 (fun j u x hu hx => ?_) (length_span hlen)
  rw [getElem?_span] at hu
  obtain ⟨v, d, rfl⟩ := InputUnit.exists_of_kind_soft (hwin u (List.mem_of_getElem? hu))
  exact hstep j v d x hu hx

/-- Settles O29: the candidates of R213 by their scores, which for a hard protocol are the positions that agree and for
a soft one the last partial sum. -/
theorem hardDetectionIsTheUniqueBestPattern : Obligations.HardDetectionIsTheUniqueBestPattern := by
  refine ⟨fun cfg window agree hk hnd hagree => ?hard,
    fun cfg window acc score thr hk hnd hwin hthr h0 hstep hscore => ?soft⟩
  case hard =>
    have hagree' (p : Pattern) : hardScore (span window (patternLength cfg.unitKind p)) p = agree p := by
      rw [hagree, hardScore, countP_zip_eq_countP_range, span]
    exact ⟨fun p => detection_hard_eq_found_iff hk hnd hagree', detection_hard_eq_none_iff hk hagree'⟩
  case soft =>
    have hsoft (p : Pattern) (hlen : p.ideal.length ≤ window.length) :
        Machine.score .soft window p = .soft (score p) := by
      rw [score_of_soft, softScore_span_eq_of_acc hwin (h0 p) (hstep p) hlen, hscore]
    have hthreshold : threshold cfg = .soft thr := (threshold_of_soft hk).trans (congrArg _ hthr.symm)
    refine ⟨fun p => ?_, ?_, fun p hnan => ?_⟩
    · rw [detection_eq_found_iff hnd, hk, hthreshold]
      refine and_congr_right fun _ => and_congr_right fun hlen => ?_
      rw [hsoft p hlen]
      refine and_congr_right fun _ => forall₄_congr fun q _ _ hqlen => ?_
      rw [hsoft q hqlen]
      rfl
    · rw [detection_eq_none_iff, hk, hthreshold]
      refine forall₃_congr fun q _ hqlen => ?_
      rw [hsoft q hqlen]
      rfl
    · rw [hnan]
      rfl

end Sys2Proof.Machine

/-! What an accepted PUSH may change (41_framer.md section 3), the unit that leaves the frame in assembly (R252, R255),
and the verdicts of the trellis decoder and of a result list (42_error_correction.md R303, R333, R337, R338). -/

namespace Sys2Proof.Machine

/-! ### The frame that stays in assembly -/

/-- R255: a frame that is not at its target stays. -/
theorem frameProgress_of_below {f : Frame} {n : Nat} (ht : f.target = some n) (hn : f.bits.length ≠ n) (now : U64)
    (s : State) : frameProgress f now s = holdFrame f s := by
  have hne : f.target ≠ some f.bits.length := fun h => hn (Option.some.inj (h.symm.trans ht))
  rw [frameProgress, ht, Option.isSome_some, if_pos rfl, completeIfFull, if_neg hne]

/-- R255: a frame whose header is not complete stays. -/
theorem frameProgress_of_header_below {f : Frame} {s : State} {d : DuCfg} {h : Nat} {l : Field} {c : List Check}
    {m : LenMap} (ht : f.target = none) (hd : s.cfg.du? f.du = some d) (hlen : d.length = .variableLen h l c m)
    (hlt : f.bits.length < h) (now : U64) : frameProgress f now s = holdFrame f s := by
  simp [frameProgress, ht, hd, hlen, hlt]

/-- R214: only an AMBIGUOUS result counts where no pattern is found. -/
theorem countDetection_of_not_found {r : Detection} (hr : ∀ p, r ≠ .found p) (s : State) :
    countDetection r s =
      { s with ctr := if r = .ambiguous then s.ctr.add .syncAmbiguous 1 else s.ctr } := by
  cases r with
  | none => rfl
  | ambiguous => rfl
  | found p => exact absurd rfl (hr p)

/-- Settles O34: the unit joins the frame, and the framer holds it in either case. -/
theorem unitExtendsTheFrame : Obligations.UnitExtendsTheFrame := by
  intro i u s f hok hu hl hr hbelow
  have hhold : frameProgress { f with bits := f.bits ++ unitBits u } s.unitCount
      (countDetection (detection s.cfg (windowWith s u)) (admitted i u s)) =
      holdFrame { f with bits := f.bits ++ unitBits u }
        (countDetection (detection s.cfg (windowWith s u)) (admitted i u s)) := by
    obtain ⟨n, ht, hn⟩ | ⟨ht, d, h, l, c, m, hd, hlen, hlt⟩ := hbelow
    · exact frameProgress_of_below (f := { f with bits := f.bits ++ unitBits u }) ht
        (by rwa [List.length_append]) _ _
    · exact frameProgress_of_header_below (f := { f with bits := f.bits ++ unitBits u }) ht
        (by rwa [countDetection_admitted_cfg]) hlen (by rwa [List.length_append]) _
  rw [exec_of_synchronized hok hu hl rfl hr, hhold, countDetection_of_not_found hr]
  rfl

/-! ### What an accepted PUSH may change -/

/-- R204: NAN_INPUT is another counter than ILLEGAL_CMD. -/
theorem nanCounted_illegalCmd (s : State) (i : Instr) :
    (nanCounted s i).get .illegalCmd = s.ctr.get .illegalCmd := by
  unfold nanCounted
  split
  · split
    · exact Counters.get_add_ne _ (by decide) _
    · rfl
  · rfl

/-- R201: no stage of an accepted PUSH counts ILLEGAL_CMD. -/
theorem afterPush_illegalCmd (i : Instr) (u : InputUnit) (s : State) :
    (afterPush i u s).ctr.get .illegalCmd = s.ctr.get .illegalCmd :=
  calc (afterPush i u s).ctr.get .illegalCmd = (admitted i u s).ctr.get .illegalCmd := (afterPush_base i u s).illegalCmd
    _ = (nanCounted s i).get .illegalCmd :=
      Counters.get_add_ne (name := .seqTimeout) (nanCounted s i) (by decide) _
    _ = s.ctr.get .illegalCmd := nanCounted_illegalCmd s i

/-- Settles O37: the stages behind the window push keep what `SameBase` names and write the queue as `Output` says. -/
theorem pushFrame : Obligations.PushFrame := by
  intro i u s t hok hu h
  obtain rfl := Host.Outcome.next.inj ((exec_push hok hu).symm.trans h)
  have hbase := afterPush_base i u s
  refine ⟨hbase.cfg, hbase.par, hbase.cfgOk, hbase.cmds, rfl, hbase.unitCount, hbase.window, ?_,
    afterPush_illegalCmd i u s⟩
  obtain hquiet | ⟨m, -, hq, he⟩ | ⟨hfull, hq, he⟩ := afterPush_output i u s
  · exact .inl hquiet
  · exact .inr (.inl ⟨m, hq, he⟩)
  · exact .inr (.inr ⟨hq, he, hfull⟩)

/-! ### The trellis decoder -/

theorem violations_cons_eq_zero_iff {legal : Dibit → Dibit → Bool} {prev : Option Dibit} {d : Dibit}
    {ds : List Dibit} :
    violations legal prev (d :: ds) = 0 ↔ d ∈ successors legal prev ∧ violations legal (some d) ds = 0 := by
  cases prev with
  | none => simp [violations, mem_successors]
  | some p => simp [violations, mem_successors]

/-- R337: no violation exactly when every transition is legal. -/
theorem violations_eq_zero_iff {legal : Dibit → Dibit → Bool} {prev : Option Dibit} {d : List Dibit} :
    violations legal prev d = 0 ↔ LegalPath legal prev d := by
  induction d generalizing prev with
  | nil => simp [violations, LegalPath]
  | cons d ds ih => rw [violations_cons_eq_zero_iff, legalPath_cons, ih]

theorem dibitWeight_xor_eq_zero_iff {a b : Dibit} : dibitWeight (a ^^^ b) = 0 ↔ a = b := by
  revert a b
  decide

/-- R335: a sequence costs nothing exactly when it is the received one. -/
theorem pathCost_eq_zero_iff {d e : List Dibit} (h : e.length = d.length) : pathCost d e = 0 ↔ d = e := by
  induction d generalizing e with
  | nil => simp [pathCost, List.length_eq_zero_iff.1 h]
  | cons a d ih =>
    obtain _ | ⟨b, e⟩ := e
    · simp at h
    · rw [pathCost_cons, Nat.add_eq_zero_iff, dibitWeight_xor_eq_zero_iff, ih (Nat.succ.inj h), List.cons.injEq]

/-- R338: the minimum cost is 0 exactly when the received dibits are legal. -/
theorem minCost_eq_zero_iff {legal : Dibit → Dibit → Bool} {prev : Option Dibit} {d : List Dibit} :
    minCost legal prev d = some 0 ↔ LegalPath legal prev d := by
  constructor
  · intro h
    obtain ⟨⟨hlen, hpath⟩, hcost⟩ := bestPath_legalFor h (fun _ => 0) 0
    exact (pathCost_eq_zero_iff hlen).1 hcost ▸ hpath
  · intro h
    obtain ⟨c, hc, hle⟩ := exists_minCost_le (d := d) ⟨rfl, h⟩
    rw [(pathCost_eq_zero_iff rfl).2 rfl, Nat.le_zero] at hle
    rw [hc, hle]

/-- R333: where every dibit has a successor, a legal sequence of every length exists. -/
theorem exists_legalFor {legal : Dibit → Dibit → Bool} (h : ∀ a, ∃ b, legal a b = true) (prev : Option Dibit)
    (d : List Dibit) : ∃ e, LegalFor legal prev d e := by
  induction d generalizing prev with
  | nil => exact ⟨[], legalFor_nil.2 rfl⟩
  | cons d ds ih =>
    obtain ⟨a, ha⟩ : ∃ a, a ∈ successors legal prev := by
      cases prev with
      | none => exact ⟨0, mem_allDibits 0⟩
      | some p =>
        obtain ⟨b, hb⟩ := h p
        exact ⟨b, mem_successors.2 fun q hq => Option.some.inj hq ▸ hb⟩
    obtain ⟨es, hes⟩ := ih (some a)
    exact ⟨a :: es, legalFor_cons.2 ⟨a, es, rfl, ha, hes⟩⟩

/-- Settles O43: the violations count the illegal transitions, and a legal sequence bounds the minimum cost. -/
theorem trellisViolationsAndVerdicts : Obligations.TrellisViolationsAndVerdicts := by
  intro cfg start d
  have hcost (h : ∀ a, ∃ b, cfg.legal a b = true) (d : List Dibit) : ∃ c, minCost cfg.legal start d = some c := by
    obtain ⟨e, he⟩ := exists_legalFor h start d
    obtain ⟨c, hc, -⟩ := exists_minCost_le he
    exact ⟨c, hc⟩
  refine ⟨violations_eq_zero_iff, violations_eq_zero_iff.trans minCost_eq_zero_iff.symm, fun h => hcost h d,
    fun h pos bits => ?_⟩
  obtain ⟨c, hc⟩ := hcost h (dibitsOf (bitsAt bits pos))
  by_cases h0 : c = 0
  · rw [trellisDecode_of_zero rfl hc h0]
    exact Verdict.noConfusion
  · obtain ⟨e, -, -, hdec⟩ := trellisDecode_of_pos rfl hc (failAbove := none) (by simp) h0
    rw [hdec]
    exact Verdict.noConfusion

/-! ### The validity of a result list -/

/-- R303: the three answers by the checks that failed. -/
theorem validityOf_cases (l : List CheckResult) :
    ((∃ r ∈ l, r.kind ≠ .crc ∧ r.verdict = .failed) ∧ validityOf l = .invalid) ∨
      ((∀ r ∈ l, r.kind ≠ .crc → r.verdict ≠ .failed) ∧ (∃ r ∈ l, r.kind = .crc ∧ r.verdict = .failed) ∧
        validityOf l = .crcFailed) ∨
      ((∀ r ∈ l, r.verdict ≠ .failed) ∧ validityOf l = .valid) := by
  unfold validityOf
  split
  · rename_i hother
    exact .inl ⟨by simpa using hother, rfl⟩
  · rename_i hother
    have hother : ∀ r ∈ l, r.kind ≠ .crc → r.verdict ≠ .failed := by simpa using hother
    split
    · rename_i hcrc
      exact .inr (.inl ⟨hother, by simpa using hcrc, rfl⟩)
    · rename_i hcrc
      have hcrc : ∀ r ∈ l, r.kind = .crc → r.verdict ≠ .failed := by simpa using hcrc
      exact .inr (.inr ⟨fun r hr => (em (r.kind = .crc)).elim (hcrc r hr) (hother r hr), rfl⟩)

/-- Settles O47: the three answers exclude each other, and so do the three conditions. -/
theorem validityOfResults : Obligations.ValidityOfResults := by
  refine ⟨⟨by decide, by decide⟩, fun a b => ⟨worse_eq_or a b, severity_le_worse a b⟩, fun l => ?_⟩
  obtain ⟨⟨r, hr, hkind, hfail⟩, h⟩ | ⟨hother, ⟨r, hr, hkind, hfail⟩, h⟩ | ⟨hall, h⟩ := validityOf_cases l <;> rw [h]
  · exact ⟨iff_of_true rfl ⟨r, hr, hkind, hfail⟩, iff_of_false nofun fun hc => hc.2 r hr hkind hfail,
      iff_of_false nofun fun hv => hv r hr hfail⟩
  · exact ⟨iff_of_false nofun fun ⟨q, hq, hqkind, hqfail⟩ => hother q hq hqkind hqfail,
      iff_of_true rfl ⟨⟨r, hr, hkind, hfail⟩, hother⟩, iff_of_false nofun fun hv => hv r hr hfail⟩
  · exact ⟨iff_of_false nofun fun ⟨q, hq, _, hqfail⟩ => hall q hq hqfail,
      iff_of_false nofun fun ⟨⟨q, hq, _, hqfail⟩, _⟩ => hall q hq hqfail, iff_of_true rfl hall⟩

end Sys2Proof.Machine

/-! A header and its blocks (43_dispatch.md R381): the table while the sequence is collected, and its one message. -/

namespace Sys2Proof.Machine

/-- The state `t` while the sequence that the header `h` opened in the state `s` is being collected: its entry is the
table's last, and nothing has entered the queue. -/
structure Collecting (s : State) (k : U8 × List U32) (h : Frame) (count : Nat) (blocks : List Frame) (t : State) :
    Prop where
  cfg : t.cfg = s.cfg
  par : t.par = s.par
  outq : t.outq = s.outq
  seqs : ∃ last, t.seqs = s.seqs ++ [{ key := k, header := h, blocks := blocks, expected := count, last := last }]

/-- The frame is a block of the key and class, for the `j`-th place where its type has an index field (R377). -/
def IsBlock (cfg : Cfg) (cls : U8) (k : U8 × List U32) (j : Nat) (f : Frame) : Prop :=
  ∃ b kf xf, cfg.du? f.du = some b ∧ b.role = .block cls kf xf ∧ seqKey f cls kf = k ∧
    ∀ x, xf = some x → field f.bits x = j

/-- R373: a header opens the sequence. -/
theorem collecting_of_header {s : State} {h : Frame} {d : DuCfg} {cls : U8} {kf : List Field} {cf : Field}
    (hd : s.cfg.du? h.du = some d) (hr : d.role = .header cls kf cf) (hv : validityOf h.results = .valid)
    (hpos : 1 ≤ field h.bits cf) (hle : field h.bits cf ≤ s.par.maxBlocks)
    (habsent : ∀ e ∈ s.seqs, e.key ≠ seqKey h cls kf) (hroom : s.seqs.length < s.par.maxPending) (now : U64) :
    Collecting s (seqKey h cls kf) h (field h.bits cf) [] (handleFrame h now s) := by
  obtain ⟨hopen, -, -⟩ := headerOpensASequence h now s d cls kf cf _ _ hd hr hv hpos hle rfl rfl
  rw [hopen habsent hroom.ne]
  exact ⟨rfl, rfl, rfl, _, rfl⟩

section Collecting

variable {s t : State} {k : U8 × List U32} {h f : Frame} {count : Nat} {blocks : List Frame} {cls : U8}
  (ht : Collecting s k h count blocks t) (habsent : ∀ e ∈ s.seqs, e.key ≠ k)
  (hf : IsBlock s.cfg cls k blocks.length f)
include ht habsent hf

/-- R377: a block before the last joins the entry. -/
theorem Collecting.block (hmore : blocks.length + 1 ≠ count) (now : U64) :
    Collecting s k h count (blocks ++ [f]) (handleFrame f now t) := by
  obtain ⟨hcfg, hpar, houtq, last, hseqs⟩ := ht
  obtain ⟨b, kf, xf, hd, hr, hk, hx⟩ := hf
  obtain ⟨-, hjoin⟩ := blockJoinsItsSequence f now t b cls kf xf k (hcfg ▸ hd) hr hk.symm
  obtain ⟨-, hin⟩ := hjoin _ _ [] hseqs rfl habsent
  rw [(hin hx).1 hmore]
  exact ⟨hcfg, hpar, houtq, now, rfl⟩

/-- R378: the last block completes the sequence into one message. -/
theorem Collecting.last_block (hlast : blocks.length + 1 = count) (now : U64) :
    (handleFrame f now t).seqs = s.seqs ∧
      (handleFrame f now t).outq =
        if s.outq.length < s.par.outqDepth then s.outq ++ [buildMessage s.cfg h (blocks ++ [f])] else s.outq := by
  obtain ⟨hcfg, hpar, houtq, last, hseqs⟩ := ht
  obtain ⟨b, kf, xf, hd, hr, hk, hx⟩ := hf
  obtain ⟨-, hjoin⟩ := blockJoinsItsSequence f now t b cls kf xf k (hcfg ▸ hd) hr hk.symm
  obtain ⟨-, hin⟩ := hjoin _ _ [] hseqs rfl habsent
  rw [(hin hx).2 hlast]
  refine ⟨by rw [emitFrames_seqs, List.append_nil], ?_⟩
  rw [emitFrames_outq]
  simp only [hcfg, hpar, houtq]

end Collecting

theorem feedFrames_concat (s : State) (l : List (Frame × U64)) (fn : Frame × U64) :
    feedFrames s (l ++ [fn]) = handleFrame fn.1 fn.2 (feedFrames s l) := List.foldl_concat ..

/-- R381: the sequence is still being collected after any number of blocks below `count`. -/
theorem Collecting.feedFrames {s t : State} {k : U8 × List U32} {h : Frame} {count : Nat} {cls : U8}
    (ht : Collecting s k h count [] t) (habsent : ∀ e ∈ s.seqs, e.key ≠ k) {l : List (Frame × U64)}
    (hl : ∀ j fn, l[j]? = some fn → IsBlock s.cfg cls k j fn.1) {j : Nat} (hlen : j ≤ l.length) (hj : j < count) :
    Collecting s k h count ((l.take j).map (·.1)) (feedFrames t (l.take j)) := by
  induction j with
  | zero => exact ht
  | succ j ih =>
    have hfn : l[j]? = some l[j] := List.getElem?_eq_getElem hlen
    have hlength : ((l.take j).map (·.1)).length = j := by
      rw [List.length_map, List.length_take, Nat.min_eq_left (Nat.le_of_lt hlen)]
    rw [List.take_add_one, hfn, Option.toList_some, feedFrames_concat, List.map_append]
    exact (ih (Nat.le_of_lt hlen) (Nat.lt_of_succ_lt hj)).block habsent (by rw [hlength]; exact hl j _ hfn)
      (by rw [hlength]; exact hj.ne) _

/-- Settles O55: by induction on the blocks before the last; the last one completes the sequence. -/
theorem sequenceYieldsExactlyOneMessage : Obligations.SequenceYieldsExactlyOneMessage := by
  rintro s h now l d cls kf cf k hd hr hv rfl hcount hpos hle habsent hroom hl
  have hopen := collecting_of_header hd hr hv (hcount ▸ hpos) (hcount ▸ hle) habsent hroom now
  rw [hcount] at hopen
  have hcollect (j : Nat) (hj : j < l.length) := hopen.feedFrames habsent hl (Nat.le_of_lt hj) hj
  refine ⟨fun j hj => (hcollect j hj).outq, ?_⟩
  rcases List.eq_nil_or_concat' l with rfl | ⟨l', fn, rfl⟩
  · cases hpos
  · have hlength : (l' ++ [fn]).length = l'.length + 1 := by simp
    have hlast := hcollect l'.length (hlength ▸ Nat.lt_succ_self _)
    rw [List.take_left] at hlast
    have hfn : IsBlock s.cfg cls (seqKey h cls kf) (l'.map (·.1)).length fn.1 := by
      rw [List.length_map]
      exact hl _ fn (by simp)
    rw [feedFrames_concat, List.map_append]
    exact hlast.last_block habsent hfn (by rw [List.length_map, hlength]) fn.2

end Sys2Proof.Machine

/-! The reassembly table along a step (43_dispatch.md R373 to R378): what one frame can do to it, said once, and the
bounds, keys and times that every step keeps (10_state.md R55 to R58). -/

namespace Sys2Proof.Machine

/-! ### What one frame can do to the table -/

/-- The table after a frame handled at the unit index `now`: it has lost entries, or a new one stands behind what is
left of it (R373 to R375), or one entry has been extended in its place (R377). -/
inductive TableChange (par : Params) (now : U64) (l : List SeqEntry) : List SeqEntry → Prop
  | lose {l' : List SeqEntry} (h : l'.Sublist l) : TableChange par now l l'
  | opened {rest : List SeqEntry} {new : SeqEntry} (hrest : rest.Sublist l)
      (hroom : 1 ≤ par.maxPending → l.length ≤ par.maxPending → rest.length < par.maxPending)
      (hkey : (l.map (·.key)).Nodup → ∀ e ∈ rest, e.key ≠ new.key) (hpos : 1 ≤ new.expected)
      (hmax : new.expected ≤ par.maxBlocks) (hblocks : new.blocks = []) (hlast : new.last = now) :
      TableChange par now l (rest ++ [new])
  | joined {pre post : List SeqEntry} {e : SeqEntry} {f : Frame} (hl : l = pre ++ e :: post)
      (hmore : e.blocks.length + 1 ≠ e.expected) : TableChange par now l (pre ++ extended e f now :: post)

theorem TableChange.refl (par : Params) (now : U64) (l : List SeqEntry) : TableChange par now l l :=
  .lose (List.Sublist.refl l)

/-- The change seen from a state with the same table and parameters. -/
theorem TableChange.of_same {s t : State} {now : U64} {l : List SeqEntry} (hp : t.par = s.par) (hs : t.seqs = s.seqs)
    (h : TableChange t.par now t.seqs l) : TableChange s.par now s.seqs l := by
  rwa [hp, hs] at h

theorem removeSeq_sublist (l : List SeqEntry) (k : U8 × List U32) : (removeSeq l k).Sublist l := List.eraseP_sublist

/-- R374: with one entry per key, none of the key is left. -/
theorem key_ne_of_mem_removeSeq {l : List SeqEntry} {k : U8 × List U32} (hnd : (l.map (·.key)).Nodup) {e : SeqEntry}
    (he : e ∈ removeSeq l k) : e.key ≠ k := by
  induction l with
  | nil => simp [removeSeq] at he
  | cons a l ih =>
    obtain ⟨ha, hnd⟩ := List.nodup_cons.1 hnd
    by_cases hk : a.key = k
    · rw [removeSeq, List.eraseP_cons_of_pos (hasKey_iff.2 hk)] at he
      exact fun he' => ha (List.mem_map.2 ⟨e, he, he'.trans hk.symm⟩)
    · rw [removeSeq, List.eraseP_cons_of_neg (mt hasKey_iff.1 hk)] at he
      obtain rfl | he := List.mem_cons.1 he
      · exact hk
      · exact ih hnd he

theorem evictOldest_sublist (l : List SeqEntry) : (evictOldest l).Sublist l := by
  unfold evictOldest
  split
  · exact List.erase_sublist
  · exact List.Sublist.refl l

/-- R375: a table that is not empty loses one entry. -/
theorem length_evictOldest_lt {l : List SeqEntry} (h : 1 ≤ l.length) : (evictOldest l).length < l.length := by
  cases l with
  | nil => cases h
  | cons e es =>
    have hmem : es.foldl earlier e ∈ e :: es := foldl_mem_of_choice earlier_eq_or e es
    simp only [evictOldest, oldestSeq_cons]
    rw [List.length_erase_of_mem hmem]
    exact Nat.lt_succ_self _

theorem abandonSeq_sublist (k : U8 × List U32) (s : State) : (abandonSeq k s).seqs.Sublist s.seqs := by
  obtain ⟨-, h⟩ | ⟨-, h⟩ := abandonSeq_cases k s
  · rw [h]
  · exact h ▸ removeSeq_sublist s.seqs k

theorem key_ne_of_mem_abandonSeq {k : U8 × List U32} {s : State} (hnd : (s.seqs.map (·.key)).Nodup) {e : SeqEntry}
    (he : e ∈ (abandonSeq k s).seqs) : e.key ≠ k := by
  obtain ⟨habsent, h⟩ | ⟨-, h⟩ := abandonSeq_cases k s <;> rw [h] at he
  · exact habsent e he
  · exact key_ne_of_mem_removeSeq hnd he

theorem makeRoom_sublist (s : State) : (makeRoom s).seqs.Sublist s.seqs := by
  obtain ⟨-, h⟩ | ⟨-, h⟩ := makeRoom_cases s
  · rw [h]
  · exact h ▸ evictOldest_sublist s.seqs

/-- R375: a table within M has room for one more entry. -/
theorem length_makeRoom_lt {s : State} (hM : 1 ≤ s.par.maxPending) (h : s.seqs.length ≤ s.par.maxPending) :
    (makeRoom s).seqs.length < s.par.maxPending := by
  obtain ⟨hne, he⟩ | ⟨hfull, he⟩ := makeRoom_cases s <;> rw [he]
  · exact lt_of_le_of_ne h hne
  · exact hfull ▸ length_evictOldest_lt (hfull ▸ hM)

theorem openSequence_tableChange (f : Frame) (k : U8 × List U32) {count : Nat} (now : U64) {s : State}
    (hpos : 1 ≤ count) (hmax : count ≤ s.par.maxBlocks) :
    TableChange s.par now s.seqs (openSequence f k count now s).seqs := by
  have hpar : (abandonSeq k s).par = s.par := (abandonSeq_base k s).par
  refine .opened ((makeRoom_sublist _).trans (abandonSeq_sublist k s)) (fun hM hlen => ?_) (fun hnd e he => ?_) hpos
    hmax rfl rfl
  · rw [← hpar] at hM hlen ⊢
    exact length_makeRoom_lt hM ((abandonSeq_sublist k s).length_le.trans hlen)
  · exact key_ne_of_mem_abandonSeq hnd ((makeRoom_sublist _).subset he)

theorem emitFrames_tableChange (par : Params) (now : U64) (h : Frame) (blocks : List Frame) (s : State) :
    TableChange par now s.seqs (emitFrames h blocks s).seqs := by
  rw [emitFrames_seqs]
  exact .refl _ _ _

theorem headerFrame_tableChange (f : Frame) (cls : U8) (kf : List Field) (cf : Field) (now : U64) (s : State) :
    TableChange s.par now s.seqs (headerFrame f cls kf cf now s).seqs := by
  obtain ⟨-, h⟩ | ⟨-, -, h⟩ | ⟨-, hpos, hle, h⟩ := headerFrame_cases f cls kf cf now s <;> rw [h]
  · exact emitFrames_tableChange _ now f [] (s.count .seqRejected 1)
  · exact emitFrames_tableChange _ now f [] s
  · exact openSequence_tableChange f _ now hpos hle

/-- The entry found stands somewhere in the table, behind entries of other keys. -/
theorem exists_split_of_findSeq {l : List SeqEntry} {k : U8 × List U32} {e : SeqEntry} (h : findSeq l k = some e) :
    ∃ pre post, l = pre ++ e :: post ∧ e.key = k ∧ ∀ e' ∈ pre, e'.key ≠ k := by
  obtain ⟨hk, pre, post, hl, hpre⟩ := List.find?_eq_some_iff_append.1 h
  refine ⟨pre, post, hl, hasKey_iff.1 hk, fun e' he' hk' => ?_⟩
  have hne := hpre e' he'
  rw [hasKey_iff.2 hk'] at hne
  cases hne

theorem blockFrame_tableChange (f : Frame) (cls : U8) (kf : List Field) (xf : Option Field) (now : U64) (s : State) :
    TableChange s.par now s.seqs (blockFrame f cls kf xf now s).seqs := by
  obtain ⟨-, h⟩ | ⟨e, hfind, hcase⟩ := blockFrame_cases f cls kf xf now s
  · rw [h]
    exact .refl _ _ _
  · obtain ⟨pre, post, hl, hk, hpre⟩ := exists_split_of_findSeq hfind
    have hreplace : replaceSeq s.seqs (seqKey f cls kf) (extended e f now) = pre ++ extended e f now :: post :=
      hl ▸ replaceSeq_split hpre hk post _
    obtain ⟨-, h⟩ | ⟨-, hmore, h⟩ | ⟨-, -, h⟩ := hcase <;> rw [h]
    · exact .refl _ _ _
    · rw [hreplace]
      exact .joined hl hmore
    · have hpre' : ∀ e' ∈ pre, e'.key ≠ (extended e f now).key := fun e' he' => hk ▸ hpre e' he'
      rw [completeSequence_seqs, hreplace, State.setSeqs_seqs, removeSeq_split hpre' rfl]
      exact .lose (hl ▸ List.Sublist.append_left (List.sublist_cons_self e post) pre)

theorem handleFrame_tableChange (f : Frame) (now : U64) (s : State) :
    TableChange s.par now s.seqs (handleFrame f now s).seqs := by
  obtain h | h | ⟨cls, kf, cf, h⟩ | ⟨cls, kf, xf, h⟩ := handleFrame_cases f now s <;> rw [h]
  · exact .refl _ _ _
  · exact emitFrames_tableChange _ now f [] s
  · exact headerFrame_tableChange f cls kf cf now s
  · exact blockFrame_tableChange f cls kf xf now s

/-! ### What one unit can do to the table -/

theorem completeFrame_tableChange (f : Frame) (now : U64) (s : State) :
    TableChange s.par now s.seqs (completeFrame f now s).seqs :=
  .of_same (runChecks_base _ f ((s.setLock .searching).count .frameComplete 1)).par (runChecks_seqs _ _ _)
    (handleFrame_tableChange _ _ _)

theorem completeIfFull_tableChange (f : Frame) (now : U64) (s : State) :
    TableChange s.par now s.seqs (completeIfFull f now s).seqs := by
  obtain ⟨-, h⟩ | ⟨-, h⟩ := completeIfFull_cases f now s <;> rw [h]
  · exact completeFrame_tableChange f now s
  · exact .refl _ _ _

theorem readHeader_tableChange (f : Frame) (hdrBits : Nat) (lenField : Field) (hdrChecks : List Check) (map : LenMap)
    (now : U64) (s : State) :
    TableChange s.par now s.seqs (readHeader f hdrBits lenField hdrChecks map now s).seqs := by
  obtain ⟨-, h⟩ | ⟨-, ⟨-, h⟩ | ⟨du, n, -, h⟩⟩ :=
    readHeader_cases f hdrBits lenField hdrChecks map now s _ _ rfl <;> rw [h] <;>
    refine .of_same (runChecks_base hdrChecks f s).par (runChecks_seqs hdrChecks f s) ?_
  · exact .refl _ _ _
  · exact .refl _ _ _
  · exact completeIfFull_tableChange _ now _

theorem frameProgress_tableChange (f : Frame) (now : U64) (s : State) :
    TableChange s.par now s.seqs (frameProgress f now s).seqs := by
  obtain ⟨-, h⟩ | ⟨-, d, hb, l, c, m, -, -, -, h⟩ | ⟨-, h, -⟩ := frameProgress_cases f now s <;> rw [h]
  · exact completeIfFull_tableChange f now s
  · exact readHeader_tableChange f hb l c m now s
  · exact .refl _ _ _

theorem framerStep_tableChange (r : Detection) (bits : List Bool) (now : U64) (s : State) :
    TableChange s.par now s.seqs (framerStep r bits now s).seqs := by
  obtain ⟨p, -, -, h⟩ | ⟨-, -, h⟩ | ⟨p, f, -, -, h⟩ | ⟨f, -, -, h⟩ := framerStep_cases r bits now s <;> rw [h]
  · exact .refl _ _ _
  · exact .refl _ _ _
  · exact .refl _ _ _
  · exact frameProgress_tableChange _ now s

/-- R201, R376: the framer meets the entries that outlive the unit. -/
theorem afterPush_tableChange (i : Instr) (u : InputUnit) (s : State) :
    TableChange s.par s.unitCount (surviving s) (afterPush i u s).seqs :=
  .of_same (s := admitted i u s) (countDetection_base _ _).par (countDetection_seqs _ _)
    (framerStep_tableChange _ _ _ _)

/-! ### One entry per key -/

/-- R374 on the table: one entry per key, each waiting for at least one of at most B blocks. -/
def TableOk (par : Params) (l : List SeqEntry) : Prop :=
  (l.map (·.key)).Nodup ∧ ∀ e ∈ l, 1 ≤ e.expected ∧ e.expected ≤ par.maxBlocks ∧ e.blocks.length < e.expected

theorem tableInv_iff {s : State} : TableInv s ↔ TableOk s.par s.seqs := .rfl

theorem TableOk.sublist {par : Params} {l l' : List SeqEntry} (hl : TableOk par l) (h : l'.Sublist l) :
    TableOk par l' := by
  obtain ⟨hnd, hall⟩ := hl
  exact ⟨hnd.sublist (h.map _), fun e he => hall e (h.subset he)⟩

theorem TableChange.tableOk {par : Params} {now : U64} {l l' : List SeqEntry} (h : TableChange par now l l')
    (hl : TableOk par l) : TableOk par l' := by
  cases h with
  | lose h => exact hl.sublist h
  | @opened rest new hrest _ hkey hpos hmax hblocks _ =>
    obtain ⟨hnd, hall⟩ := hl.sublist hrest
    refine ⟨?_, List.forall_mem_append.2 ⟨hall, List.forall_mem_singleton.2 ⟨hpos, hmax, by rwa [hblocks]⟩⟩⟩
    rw [List.map_append, List.map_singleton, List.nodup_append_comm, List.singleton_append, List.nodup_cons]
    refine ⟨fun hmem => ?_, hnd⟩
    obtain ⟨e, he, hk⟩ := List.mem_map.1 hmem
    exact hkey hl.1 e he hk
  | @joined pre post e f hsplit hmore =>
    subst hsplit
    obtain ⟨hnd, hall⟩ := hl
    obtain ⟨hpre, htail⟩ := List.forall_mem_append.1 hall
    obtain ⟨⟨hpos, hmax, hlt⟩, hpost⟩ := List.forall_mem_cons.1 htail
    refine ⟨by simpa [extended] using hnd, ?_⟩
    have hlength : (extended e f now).blocks.length = e.blocks.length + 1 := by simp [extended]
    refine List.forall_mem_append.2 ⟨hpre, List.forall_mem_cons.2 ⟨⟨hpos, hmax, ?_⟩, hpost⟩⟩
    rw [hlength]
    exact lt_of_le_of_ne hlt hmore

/-- Every operation but an accepted PUSH and RESET leaves the table and the parameters alone. -/
theorem tableInv_kept : KeptByOperations TableInv where
  cmds _ _ hs := hs
  respond _ _ hs := hs
  error _ _ _ _ hs := hs
  push s i u _ _ hs := by
    have hpar : (afterPush i u s).par = s.par := (afterPush_base i u s).par
    rw [tableInv_iff, hpar]
    exact (afterPush_tableChange i u s).tableOk (TableOk.sublist hs List.filter_sublist)
  reset _ _ := ⟨List.nodup_nil, List.forall_mem_nil _⟩
  pop _ _ _ _ hs := hs
  ctrl s v hs := by rwa [writeCtrl_eq]

/-- Settles O58: whatever a frame does to the table, its keys stay distinct and every entry waits. -/
theorem stepKeepsOneEntryPerKey : Obligations.StepKeepsOneEntryPerKey := fun _ _ hs h => tableInv_kept.step hs h

/-! ### Times of the entries -/

/-- R375, R376 on the table, at the unit count `count`: the `last` of the entries are distinct, and each is 1 to
`limit` units before the count. -/
def TimesOk (limit : Nat) (count : U64) (l : List SeqEntry) : Prop :=
  (l.map (·.last)).Nodup ∧ ∀ e ∈ l, 1 ≤ (count - e.last).toNat ∧ (count - e.last).toNat ≤ limit

theorem timesInv_iff {s : State} : TimesInv s ↔ TimesOk (s.par.seqTimeout + 1) s.unitCount s.seqs := .rfl

theorem TimesOk.sublist {limit : Nat} {count : U64} {l l' : List SeqEntry} (hl : TimesOk limit count l)
    (h : l'.Sublist l) : TimesOk limit count l' := by
  obtain ⟨hnd, hall⟩ := hl
  exact ⟨hnd.sublist (h.map _), fun e he => hall e (h.subset he)⟩

/-- R376: the sweep leaves the entries of the last T units. -/
theorem surviving_timesOk {s : State} (hs : TimesInv s) : TimesOk s.par.seqTimeout s.unitCount (surviving s) := by
  have hsub : (surviving s).Sublist s.seqs := List.filter_sublist
  obtain ⟨hnd, hall⟩ := TimesOk.sublist hs hsub
  exact ⟨hnd, fun e he => ⟨(hall e he).1, of_decide_eq_true (List.mem_filter.1 he).2⟩⟩

/-- One more unit is one more unit of age, while ages are within 32 bits. -/
theorem age_succ {now last : U64} (h : (now - last).toNat < 2 ^ 32) :
    (now + 1 - last).toNat = (now - last).toNat + 1 := by
  bv_omega

/-- An entry of age 1 or more was not extended by the unit that is being handled. -/
theorem last_ne_of_age_pos {now last : U64} (h : 1 ≤ (now - last).toNat) : last ≠ now := by
  rintro rfl
  simp at h

theorem TimesOk.succ {limit : Nat} {now : U64} {l : List SeqEntry} (hlimit : limit < 2 ^ 32)
    (hl : TimesOk limit now l) : TimesOk (limit + 1) (now + 1) l := by
  obtain ⟨hnd, hall⟩ := hl
  refine ⟨hnd, fun e he => ?_⟩
  obtain ⟨hpos, hle⟩ := hall e he
  rw [age_succ (hle.trans_lt hlimit)]
  omega

/-- An entry that the unit `now` extends, among entries of earlier units. -/
theorem TimesOk.insert {limit : Nat} {now : U64} {pre post : List SeqEntry} {x : SeqEntry} (hlimit : limit < 2 ^ 32)
    (hl : TimesOk limit now (pre ++ post)) (hx : x.last = now) : TimesOk (limit + 1) (now + 1) (pre ++ x :: post) := by
  have hfresh : x.last ∉ (pre ++ post).map (·.last) := fun hmem => by
    obtain ⟨e, he, hlast⟩ := List.mem_map.1 hmem
    exact last_ne_of_age_pos (hl.2 e he).1 (hlast.trans hx)
  have hage : (now + 1 - x.last).toNat = 1 := by
    rw [hx]
    bv_omega
  obtain ⟨hnd, hall⟩ := hl.succ hlimit
  obtain ⟨hpre, hpost⟩ := List.forall_mem_append.1 hall
  refine ⟨?_, List.forall_mem_append.2 ⟨hpre, List.forall_mem_cons.2 ⟨⟨hage.ge, hage.le.trans (by omega)⟩, hpost⟩⟩⟩
  rw [List.map_append, List.map_cons, List.nodup_middle, ← List.map_append]
  exact List.nodup_cons.2 ⟨hfresh, hnd⟩

theorem TableChange.timesOk {par : Params} {now : U64} {l l' : List SeqEntry} (h : TableChange par now l l')
    {limit : Nat} (hlimit : limit < 2 ^ 32) (hl : TimesOk limit now l) : TimesOk (limit + 1) (now + 1) l' := by
  cases h with
  | lose h => exact (hl.sublist h).succ hlimit
  | opened hrest _ _ _ _ _ hlast => exact .insert hlimit (by simpa using hl.sublist hrest) hlast
  | @joined pre post e _ hsplit _ =>
    exact .insert hlimit
      (hl.sublist (hsplit ▸ List.Sublist.append_left (List.sublist_cons_self e post) pre)) rfl

/-! ### The configuration of a working core -/

theorem ConfigInv.of_sameConfig {s t : State} (hs : ConfigInv s) (h : SameConfig s t) : ConfigInv t := by
  rw [ConfigInv, h.cfg, h.par, h.cfgOk]
  exact hs

theorem afterPush_sameConfig (i : Instr) (u : InputUnit) (s : State) : SameConfig s (afterPush i u s) :=
  SameConfig.trans (t := admitted i u s) ⟨rfl, rfl, rfl⟩ (afterPush_base i u s).sameConfig

/-- R58: a core that is `cfg_ok` has a valid configuration. -/
theorem cfgValid_of_cfgOk {s : State} (hs : ConfigInv s) (hok : s.cfgOk = true) : cfgValid s.cfg s.par = true :=
  hs.symm.trans hok

/-- 00_scope.md R9: the ranges of the parameters that the invariants need. -/
theorem params_of_cfgValid {cfg : Cfg} {par : Params} (h : cfgValid cfg par = true) :
    1 ≤ par.maxPending ∧ par.seqTimeout < 2 ^ 32 := by
  simp only [cfgValid, paramsValid, Bool.and_eq_true, decide_eq_true_eq] at h
  omega

theorem configInv_and_timesInv_kept : KeptByOperations fun s => ConfigInv s ∧ TimesInv s where
  cmds _ _ hs := hs
  respond _ _ hs := hs
  error _ _ _ _ hs := hs
  push s i u hok _ hs := by
    obtain ⟨hcfg, htimes⟩ := hs
    obtain ⟨-, hT⟩ := params_of_cfgValid (cfgValid_of_cfgOk hcfg hok)
    have hpar : (afterPush i u s).par = s.par := (afterPush_sameConfig i u s).par
    have hcount : (afterPush i u s).unitCount = s.unitCount + 1 := (afterPush_base i u s).unitCount
    refine ⟨hcfg.of_sameConfig (afterPush_sameConfig i u s), ?_⟩
    rw [timesInv_iff, hpar, hcount]
    exact (afterPush_tableChange i u s).timesOk hT (surviving_timesOk htimes)
  reset _ hs := ⟨hs.1, List.nodup_nil, List.forall_mem_nil _⟩
  pop _ _ _ _ hs := hs
  ctrl s v hs := by rwa [writeCtrl_eq]

/-- Settles O59: after the sweep every entry is at most T units old, one unit later at most T + 1; the entry that the
unit opens or extends is the only one that is 1 unit old. -/
theorem stepKeepsLastTimesDistinct : Obligations.StepKeepsLastTimesDistinct :=
  fun _ _ hcfg htimes h => configInv_and_timesInv_kept.step ⟨hcfg, htimes⟩ h

/-! ### The bounds -/

theorem TableChange.length_le {par : Params} {now : U64} {l l' : List SeqEntry} (h : TableChange par now l l')
    (hM : 1 ≤ par.maxPending) (hl : l.length ≤ par.maxPending) : l'.length ≤ par.maxPending := by
  cases h with
  | lose h => exact h.length_le.trans hl
  | opened _ hroom =>
    rw [List.length_append, List.length_singleton]
    exact hroom hM hl
  | joined hsplit =>
    rw [hsplit] at hl
    simpa using hl

/-- R380: the queue stays within Q. -/
theorem Output.length_le {s t : State} (h : Output s t) (hs : s.outq.length ≤ s.par.outqDepth) :
    t.outq.length ≤ s.par.outqDepth := by
  obtain ⟨hq, -⟩ | ⟨m, hlt, hq, -⟩ | ⟨-, hq, -⟩ := h <;> rw [hq]
  · exact hs
  · rw [List.length_append, List.length_singleton]
    exact hlt
  · exact hs

theorem configInv_and_boundsInv_kept : KeptByOperations fun s => ConfigInv s ∧ BoundsInv s where
  cmds _ _ hs := hs
  respond _ _ hs := hs
  error _ _ _ _ hs := hs
  push s i u hok _ hs := by
    obtain ⟨hcfg, hwindow, htable, hqueue⟩ := hs
    obtain ⟨hM, -⟩ := params_of_cfgValid (cfgValid_of_cfgOk hcfg hok)
    have hsame := afterPush_sameConfig i u s
    have hwindow' : (afterPush i u s).window = windowWith s u := (afterPush_base i u s).window
    have hsurvive : (surviving s).length ≤ s.par.maxPending := List.filter_sublist.length_le.trans htable
    refine ⟨hcfg.of_sameConfig hsame, ?_⟩
    rw [BoundsInv, hsame.cfg, hsame.par, hwindow']
    exact ⟨length_pushWindow_le hwindow u, (afterPush_tableChange i u s).length_le hM hsurvive,
      (afterPush_output i u s).length_le hqueue⟩
  reset s hs := by
    obtain ⟨hcfg, -, -, hqueue⟩ := hs
    exact ⟨hcfg, Nat.zero_le _, Nat.zero_le _, hqueue⟩
  pop s m rest hq hs := by
    obtain ⟨hcfg, hwindow, htable, hqueue⟩ := hs
    rw [hq] at hqueue
    exact ⟨hcfg, hwindow, htable, Nat.le_of_succ_le hqueue⟩
  ctrl s v hs := by rwa [writeCtrl_eq]

/-- Settles O56: the window drops its oldest unit over W, the table makes room at M, and the queue takes no message at
Q. -/
theorem stepKeepsTheBounds : Obligations.StepKeepsTheBounds :=
  fun _ _ hcfg hbounds h => configInv_and_boundsInv_kept.step ⟨hcfg, hbounds⟩ h

end Sys2Proof.Machine

/-! The frame in assembly (41_framer.md R263): it holds whole units, fewer than its target or, without one, than its
header; and the window's units are of the configured kind. -/

namespace Sys2Proof

/-! ### What a valid configuration says of lengths -/

/-- The value of a key is in the table's range. -/
theorem Table.mem_range_of_get? {α β : Type} [BEq α] [LawfulBEq α] {t : Table α β} {k : α} {v : β}
    (h : Table.get? t k = some v) : v ∈ Table.range t := by
  obtain ⟨l₁, l₂, ht, -⟩ := List.lookup_eq_some_iff.1 h
  have hmem : (k, v) ∈ t := ht ▸ List.mem_append_right l₁ List.mem_cons_self
  exact List.mem_filterMap.2 ⟨k, List.mem_map.2 ⟨(k, v), hmem, rfl⟩, h⟩

/-- A key of the domain has a value. -/
theorem Table.exists_get?_of_mem_dom {α β : Type} [BEq α] [LawfulBEq α] {t : Table α β} {k : α}
    (h : k ∈ Table.dom t) : ∃ v, Table.get? t k = some v := by
  obtain ⟨p, hp, hk⟩ := List.mem_map.1 h
  exact Option.isSome_iff_exists.1 (List.lookup_isSome_iff.2 ⟨p, hp, beq_iff_eq.2 hk.symm⟩)

theorem vPatterns_of_cfgValid {cfg : Cfg} {par : Params} (h : cfgValid cfg par = true) : vPatterns cfg = true := by
  simp only [cfgValid, Bool.and_eq_true] at h
  tauto

theorem vLengths_of_cfgValid {cfg : Cfg} {par : Params} (h : cfgValid cfg par = true) : vLengths cfg par = true := by
  simp only [cfgValid, Bool.and_eq_true] at h
  tauto

/-- R14: the type of a pattern has a description. -/
theorem exists_du_of_pattern {cfg : Cfg} {par : Params} (h : cfgValid cfg par = true) {p : Pattern}
    (hp : p ∈ cfg.patterns) : ∃ d, cfg.du? p.du = some d := by
  have hpatterns := vPatterns_of_cfgValid h
  simp only [vPatterns, Bool.and_eq_true, List.all_eq_true] at hpatterns
  obtain ⟨-, hall⟩ := hpatterns
  have hpattern := hall p hp
  simp only [vPattern, Bool.and_eq_true] at hpattern
  obtain ⟨⟨-, hdu⟩, -⟩ := hpattern
  exact Table.exists_get?_of_mem_dom (List.contains_iff_mem.1 hdu)

/-- R16: every type that has a description passes V_LENGTHS. -/
theorem vLength_of_cfgValid {cfg : Cfg} {par : Params} (h : cfgValid cfg par = true) {du : U8} {d : DuCfg}
    (hd : cfg.du? du = some d) : vLength cfg par d = true := by
  exact List.all_eq_true.1 (vLengths_of_cfgValid h) d (Table.mem_range_of_get? hd)

/-- R16: a fixed length is 1 to F bits, in whole units. -/
theorem vLength_fixed {cfg : Cfg} {par : Params} {d : DuCfg} {n : Nat} (h : vLength cfg par d = true)
    (hlen : d.length = .fixed n) : 1 ≤ n ∧ n ≤ par.maxFrameBits ∧ n % cfg.bpu = 0 := by
  simpa [vLength, hlen, and_assoc] using h

/-- R16: a header is at least one bit, in whole units, and its length map is valid. -/
theorem vLength_variableLen {cfg : Cfg} {par : Params} {d : DuCfg} {hdrBits : Nat} {lenField : Field}
    {hdrChecks : List Check} {map : LenMap} (h : vLength cfg par d = true)
    (hlen : d.length = .variableLen hdrBits lenField hdrChecks map) :
    1 ≤ hdrBits ∧ hdrBits % cfg.bpu = 0 ∧ vLenMap cfg hdrBits map = true := by
  simp only [vLength, hlen, Bool.and_eq_true, decide_eq_true_eq, beq_iff_eq] at h
  obtain ⟨⟨⟨⟨⟨hpos, -⟩, hwhole⟩, -⟩, -⟩, hmap⟩ := h
  exact ⟨hpos, hwhole, hmap⟩

end Sys2Proof

namespace Sys2Proof.Machine

theorem fixedLength_eq_some {cfg : Cfg} {du : U8} {n : Nat} (h : fixedLength cfg du = some n) :
    ∃ d, cfg.du? du = some d ∧ d.length = .fixed n := by
  cases hd : cfg.du? du with
  | none => simp [fixedLength, hd] at h
  | some d =>
    cases hlen : d.length with
    | fixed m =>
      rw [fixedLength_of_fixed hd hlen] at h
      exact ⟨d, rfl, Option.some.inj h ▸ hlen⟩
    | variableLen => simp [fixedLength_of_variableLen hd hlen] at h

/-- R16, R258, R259: a length that a header gives is at least the header's and at most F, in whole units. -/
theorem headerLength_within {cfg : Cfg} {par : Params} (hv : cfgValid cfg par = true) {du du' : U8} {hdrBits : Nat}
    {map : LenMap} {v n : Nat} (hmap : vLenMap cfg hdrBits map = true)
    (h : headerLength cfg par du hdrBits map v = some (du', n)) :
    hdrBits ≤ n ∧ n ≤ par.maxFrameBits ∧ n % cfg.bpu = 0 := by
  cases map with
  | affine base mult =>
    simp only [headerLength, Option.ite_none_left_eq_some, Option.some.injEq, Prod.mk.injEq, not_or, not_lt] at h
    obtain ⟨⟨hlo, hhi⟩, -, rfl⟩ := h
    have hwhole : base % cfg.bpu = 0 ∧ mult % cfg.bpu = 0 := by simpa [vLenMap] using hmap
    obtain ⟨hbase, hmult⟩ := hwhole
    exact ⟨hlo, hhi, by rw [Nat.add_mod, Nat.mul_mod, hbase, hmult]; simp⟩
  | select table =>
    cases ht : Table.get? table (BitVec.ofNat 32 v) with
    | none => simp [headerLength, ht] at h
    | some target =>
      obtain ⟨m, hm, he⟩ : ∃ m, fixedLength cfg target = some m ∧ (target, m) = (du', n) := by
        simpa [headerLength, ht] using h
      obtain ⟨rfl, rfl⟩ := Prod.mk.inj he
      obtain ⟨d, hd, hlen⟩ := fixedLength_eq_some hm
      obtain ⟨-, hhi, hwhole⟩ := vLength_fixed (vLength_of_cfgValid hv hd) hlen
      have hall := List.all_eq_true.1 hmap _ (Table.mem_range_of_get? ht)
      simp only [hd, hlen, decide_eq_true_eq] at hall
      exact ⟨hall, hhi, hwhole⟩

/-! ### Checks keep the length of the frame -/

theorem length_decodeCheck (cfg : Cfg) (bits : List Bool) (c : Check) :
    (decodeCheck cfg bits c).bits.length = bits.length := by
  cases c with
  | crc =>
    simp only [decodeCheck, crcCheck]
    split <;> rfl
  | block code pos =>
    simp only [decodeCheck, blockDecode]
    split
    · rfl
    · split
      · exact length_flipBits _ _
      · rfl
  | rs m prim n k fcr pos =>
    simp only [decodeCheck, rsDecode]
    split
    · rfl
    · split
      · exact length_writeBits _ _ _
      · rfl
  | trellis pos start failAbove =>
    simp only [decodeCheck, trellisDecode]
    split
    · rfl
    · split
      · rfl
      · split
        · rfl
        · exact length_writeBits _ _ _

theorem length_applyCheck (cfg : Cfg) (c : Check) (bits : List Bool) :
    (applyCheck cfg c bits).bits.length = bits.length := by
  by_cases hshort : ∃ p ∈ c.positions, bits.length ≤ p
  · obtain ⟨p, hp, hlen⟩ := hshort
    rw [applyCheck_of_short hp hlen]
  · push Not at hshort
    rw [applyCheck_of_inside hshort, length_decodeCheck]

theorem length_runChecks (cs : List Check) (f : Frame) (s : State) :
    (runChecks cs f s).1.bits.length = f.bits.length := by
  induction cs generalizing f s with
  | nil => rfl
  | cons c cs ih => exact (ih _ _).trans (length_applyCheck s.cfg c f.bits)

/-! ### Frames -/

theorem frameOk_of_target {cfg : Cfg} {par : Params} {f : Frame} {n : Nat} (ht : f.target = some n) :
    FrameOk cfg par f ↔
      f.bits.length % cfg.bpu = 0 ∧ f.bits.length < n ∧ n ≤ par.maxFrameBits ∧ n % cfg.bpu = 0 := by
  rw [FrameOk, ht]

theorem frameOk_of_no_target {cfg : Cfg} {par : Params} {f : Frame} (ht : f.target = none) :
    FrameOk cfg par f ↔ f.bits.length % cfg.bpu = 0 ∧
      ∃ d hdrBits lenField hdrChecks map, cfg.du? f.du = some d ∧
        d.length = .variableLen hdrBits lenField hdrChecks map ∧ f.bits.length < hdrBits := by
  rw [FrameOk, ht]

/-- R254: a new frame holds no bits yet. -/
theorem newFrame_frameOk {cfg : Cfg} {par : Params} (hv : cfgValid cfg par = true) {p : Pattern}
    (hp : p ∈ cfg.patterns) (now : U64) : FrameOk cfg par (newFrame cfg p now) := by
  obtain ⟨d, hd⟩ := exists_du_of_pattern hv hp
  have hvalid := vLength_of_cfgValid hv hd
  cases hlen : d.length with
  | fixed n =>
    obtain ⟨hpos, hF, hwhole⟩ := vLength_fixed hvalid hlen
    exact (frameOk_of_target (fixedLength_of_fixed hd hlen)).2 ⟨Nat.zero_mod _, hpos, hF, hwhole⟩
  | variableLen hdrBits lenField hdrChecks map =>
    obtain ⟨hpos, -, -⟩ := vLength_variableLen hvalid hlen
    exact (frameOk_of_no_target (fixedLength_of_variableLen hd hlen)).2
      ⟨Nat.zero_mod _, d, hdrBits, lenField, hdrChecks, map, hd, hlen, hpos⟩

/-- R263 on the lock. -/
def LockOk (cfg : Cfg) (par : Params) (l : Lock) : Prop := ∀ f, l = .synchronized f → FrameOk cfg par f

theorem frameInv_iff {s : State} : FrameInv s ↔ LockOk s.cfg s.par s.lock := .rfl

theorem lockOk_searching (cfg : Cfg) (par : Params) : LockOk cfg par .searching := fun _ h => Lock.noConfusion h

theorem lockOk_synchronized {cfg : Cfg} {par : Params} {f : Frame} (h : FrameOk cfg par f) :
    LockOk cfg par (.synchronized f) := fun _ he => Lock.synchronized.inj he ▸ h

/-- R255: a frame that has not passed its target is below it, or completes. -/
theorem completeIfFull_lockOk {cfg : Cfg} {par : Params} {f : Frame} {n : Nat} (ht : f.target = some n)
    (hbits : f.bits.length % cfg.bpu = 0) (hle : f.bits.length ≤ n) (hF : n ≤ par.maxFrameBits)
    (hn : n % cfg.bpu = 0) (now : U64) (s : State) : LockOk cfg par (completeIfFull f now s).lock := by
  obtain ⟨-, h⟩ | ⟨hne, h⟩ := completeIfFull_cases f now s <;> rw [h]
  · rw [completeFrame_lock]
    exact lockOk_searching cfg par
  · have hlt : f.bits.length < n := lt_of_le_of_ne hle fun he => hne (he ▸ ht)
    exact lockOk_synchronized ((frameOk_of_target ht).2 ⟨hbits, hlt, hF, hn⟩)

/-- R256 to R259: a header just complete gives a target that the frame has not passed, or the frame is discarded. -/
theorem readHeader_lockOk {f : Frame} {s : State} (hv : cfgValid s.cfg s.par = true) {hdrBits : Nat} {map : LenMap}
    (hmap : vLenMap s.cfg hdrBits map = true) (hbits : f.bits.length % s.cfg.bpu = 0)
    (hle : f.bits.length ≤ hdrBits) (lenField : Field) (hdrChecks : List Check) (now : U64) :
    LockOk s.cfg s.par (readHeader f hdrBits lenField hdrChecks map now s).lock := by
  have hlength := length_runChecks hdrChecks f s
  obtain ⟨-, h⟩ | ⟨-, ⟨-, h⟩ | ⟨du, n, hn, h⟩⟩ := readHeader_cases f hdrBits lenField hdrChecks map now s _ _ rfl <;>
    rw [h]
  · exact lockOk_searching _ _
  · exact lockOk_searching _ _
  · obtain ⟨hlo, hF, hwhole⟩ := headerLength_within hv hmap hn
    exact completeIfFull_lockOk (f := { (runChecks hdrChecks f s).1 with du := du, target := some n }) rfl
      (hlength ▸ hbits) (hlength ▸ hle.trans hlo) hF hwhole now _

/-! ### Whole units -/

/-- 00_scope.md R11: a unit of the configured kind is `bpu` bits. -/
theorem length_unitBits {cfg : Cfg} {u : InputUnit} (h : u.kind = cfg.unitKind) :
    (unitBits u).length = cfg.bpu := by
  rw [Cfg.bpu, ← h]
  cases u <;> rfl

/-- One more unit does not pass a length in whole units. -/
theorem add_unit_le {k a b : Nat} (ha : a % k = 0) (hb : b % k = 0) (h : a < b) : a + k ≤ b := by
  have hdvd : k ∣ b - a := Nat.dvd_sub (Nat.dvd_of_mod_eq_zero hb) (Nat.dvd_of_mod_eq_zero ha)
  have hle : k ≤ b - a := Nat.le_of_dvd (Nat.sub_pos_of_lt h) hdvd
  omega

/-- R252, R255: the frame in assembly with one more unit. -/
theorem frameProgress_lockOk {f : Frame} {bits : List Bool} {s : State} (hv : cfgValid s.cfg s.par = true)
    (hf : FrameOk s.cfg s.par f) (hunit : bits.length = s.cfg.bpu) (now : U64) :
    LockOk s.cfg s.par (frameProgress { f with bits := f.bits ++ bits } now s).lock := by
  have hlength : (f.bits ++ bits).length = f.bits.length + s.cfg.bpu := by rw [List.length_append, hunit]
  have hwhole (h : f.bits.length % s.cfg.bpu = 0) : (f.bits ++ bits).length % s.cfg.bpu = 0 := by
    rw [hlength, Nat.add_mod_right, h]
  obtain ht | ⟨n, ht⟩ := Option.eq_none_or_eq_some f.target
  case inr =>
    obtain ⟨hbits, hlt, hF, hn⟩ := (frameOk_of_target ht).1 hf
    obtain ⟨-, h⟩ | ⟨hnone, -⟩ | ⟨hnone, -⟩ := frameProgress_cases { f with bits := f.bits ++ bits } now s
    · rw [h]
      exact completeIfFull_lockOk (f := { f with bits := f.bits ++ bits }) ht (hwhole hbits)
        (hlength.le.trans (add_unit_le hbits hn hlt)) hF hn now s
    · simp [ht] at hnone
    · simp [ht] at hnone
  case inl =>
    obtain ⟨hbits, d, hdrBits, lenField, hdrChecks, map, hd, hlen, hlt⟩ := (frameOk_of_no_target ht).1 hf
    obtain ⟨-, hhdr, hmap⟩ := vLength_variableLen (vLength_of_cfgValid hv hd) hlen
    by_cases hbelow : (f.bits ++ bits).length < hdrBits
    · rw [frameProgress_of_header_below (f := { f with bits := f.bits ++ bits }) ht hd hlen hbelow]
      exact lockOk_synchronized ((frameOk_of_no_target (f := { f with bits := f.bits ++ bits }) ht).2
        ⟨hwhole hbits, d, hdrBits, lenField, hdrChecks, map, hd, hlen, hbelow⟩)
    · rw [frameProgress_of_header (f := { f with bits := f.bits ++ bits }) ht hd hlen (not_lt.1 hbelow)]
      exact readHeader_lockOk hv hmap (hwhole hbits) (hlength.le.trans (add_unit_le hbits hhdr hlt)) _ _ now

theorem framerStep_lockOk {cfg : Cfg} {par : Params} {r : Detection} {bits : List Bool} {s : State} (hc : s.cfg = cfg)
    (hp : s.par = par) (hv : cfgValid cfg par = true) (hr : ∀ p, r = .found p → p ∈ cfg.patterns)
    (hunit : bits.length = cfg.bpu) (hs : LockOk cfg par s.lock) (now : U64) :
    LockOk cfg par (framerStep r bits now s).lock := by
  subst hc hp
  obtain ⟨p, hp, -, h⟩ | ⟨-, -, h⟩ | ⟨p, f, hp, -, h⟩ | ⟨f, -, hl, h⟩ := framerStep_cases r bits now s <;> rw [h]
  · exact lockOk_synchronized (newFrame_frameOk hv (hr p hp) now)
  · exact hs
  · exact lockOk_synchronized (newFrame_frameOk hv (hr p hp) now)
  · exact frameProgress_lockOk hv (hs f hl) hunit now

/-! ### The invariant -/

/-- 00_scope.md R11: the unit a PUSH carries in is of the configured kind. -/
theorem kind_of_pushedUnit {i : Instr} {u : InputUnit} {s : State} (h : pushedUnit s i = some u) :
    u.kind = s.cfg.unitKind := by
  cases i with
  | pushBit | pushDibit | pushSoft =>
    simp only [pushedUnit, Option.ite_none_right_eq_some, Option.some.injEq] at h
    obtain ⟨hk, rfl⟩ := h
    exact hk.symm
  | nop | reset | pop | rdcsr | wrcsr => cases h

theorem afterPush_lockOk {i : Instr} {u : InputUnit} {s : State} (hv : cfgValid s.cfg s.par = true)
    (hu : pushedUnit s i = some u) (hs : FrameInv s) : LockOk s.cfg s.par (afterPush i u s).lock := by
  have hbase := countDetection_base (detection s.cfg (windowWith s u)) (admitted i u s)
  have hlock := countDetection_admitted_lock (detection s.cfg (windowWith s u)) i u s
  exact framerStep_lockOk hbase.cfg hbase.par hv (fun p hp => mem_patterns_of_found hp)
    (length_unitBits (kind_of_pushedUnit hu)) (by rw [hlock]; exact hs) s.unitCount

theorem frameInvs_kept : KeptByOperations fun s => ConfigInv s ∧ WindowKindInv s ∧ FrameInv s where
  cmds _ _ hs := hs
  respond _ _ hs := hs
  error _ _ _ _ hs := hs
  push s i u hok hu hs := by
    obtain ⟨hcfg, hwindow, hframe⟩ := hs
    have hsame := afterPush_sameConfig i u s
    have hwindow' : (afterPush i u s).window = windowWith s u := (afterPush_base i u s).window
    refine ⟨hcfg.of_sameConfig hsame, ?_, ?_⟩
    · rw [WindowKindInv, hsame.cfg, hwindow']
      intro v hv
      obtain hold | rfl := mem_pushWindow hv
      · exact hwindow v hold
      · exact kind_of_pushedUnit hu
    · rw [frameInv_iff, hsame.cfg, hsame.par]
      exact afterPush_lockOk (cfgValid_of_cfgOk hcfg hok) hu hframe
  reset s hs := by
    obtain ⟨hcfg, -, -⟩ := hs
    exact ⟨hcfg, List.forall_mem_nil _, lockOk_searching _ _⟩
  pop _ _ _ _ hs := hs
  ctrl s v hs := by rwa [writeCtrl_eq]

/-- Settles O57: a unit is `bpu` bits and every length is a number of units, so no frame passes its target or its
header; a frame that reaches one of them completes, is discarded, or gets its target. -/
theorem stepKeepsFramesBelowTheirTarget : Obligations.StepKeepsFramesBelowTheirTarget :=
  fun _ _ hcfg hwindow hframe h => frameInvs_kept.step ⟨hcfg, hwindow, hframe⟩ h

end Sys2Proof.Machine
